-- ==== Sys2Proof/Word.lean ====
section
/-! DEFINITION. The word types of the SM2 engine: a byte of BUF, a host-window word, a 256-bit
element of an F or N register, and a 4-bit register index. -/

namespace Sys2Proof

/-- One byte of the I/O buffer (spec/10_state.md R28). -/
abbrev Byte := BitVec 8

/-- One 32-bit word of the host window; a command word is one of these (spec/30_encoding.md R60). -/
abbrev Word := BitVec 32

/-- A 256-bit value of an F or N register, or a coordinate (spec/00_scope.md R10, R11). -/
abbrev Elem := BitVec 256

/-- A register index 0–15 into the F, N or P file; every index is valid (spec/30_encoding.md R62). -/
abbrev Reg := Fin 16

end Sys2Proof
end

