-- ==== Sys2Proof/Syntax.lean ====
section
/-! DEFINITION. The command set SM2EC version 1 (spec/30_encoding.md R65): one constructor of `Instr`
for each row of spec/opcode_table.json, the opcode names, the ten formats, and the record of
operand fields a format draws on. -/

namespace Sys2Proof

/-- The command formats of R63: which of RD, RA, RB, RC, IMM an opcode uses. -/
inductive Format where
  | n | i | d | s | di | r2 | r2i | ss | r3 | r4
  deriving DecidableEq, Repr

/-- The opcode names of R65, in the table's order. -/
inductive Op where
  | nop
  | cset
  | fadd
  | fsub
  | fmul
  | fsqr
  | finv
  | fsqrt
  | fnegc
  | fsel
  | feq
  | ftom
  | ffromm
  | fmov
  | fldc
  | fld
  | fst
  | fltp
  | nadd
  | nsub
  | nmul
  | nsqr
  | ninv
  | nmov
  | nldc
  | nld
  | nst
  | impsig
  | pinf
  | pgen
  | pmov
  | pdbl
  | padd
  | pnegc
  | psel
  | pisinf
  | pmul
  | pbmul
  | pdec
  | penc
  | pencc
  | pencx
  deriving DecidableEq, Repr

/-- A command. Register operands are indices into the file the opcode names (R65, column "files");
`k` is the 8-bit immediate, whose legal range is a check of `Instr.WellFormed`. -/
inductive Instr where
  /-- `NOP`: no operation (R126). -/
  | nop
  /-- `CSET`: write the condition flag: 0 clear, 1 set, 2 invert (R127). -/
  | cset (k : BitVec 8)
  /-- `FADD`: GF(p) modular adder (R73). -/
  | fadd (rd ra rb : Reg)
  /-- `FSUB`: GF(p) modular subtractor (R74). -/
  | fsub (rd ra rb : Reg)
  /-- `FMUL`: GF(p) Montgomery product (R75). -/
  | fmul (rd ra rb : Reg)
  /-- `FSQR`: `k` chained GF(p) Montgomery squarings, 1 ≤ `k` ≤ 255 (R76). -/
  | fsqr (rd ra : Reg) (k : BitVec 8)
  /-- `FINV`: GF(p) inversion, inverse of zero is zero (R77). -/
  | finv (rd ra : Reg)
  /-- `FSQRT`: GF(p) square root candidate, C tells whether it is a root (R78). -/
  | fsqrt (rd ra : Reg)
  /-- `FNEGC`: negate iff C (R79). -/
  | fnegc (rd ra : Reg)
  /-- `FSEL`: `C ? ra : rb` (R80). -/
  | fsel (rd ra rb : Reg)
  /-- `FEQ`: C := `ra = rb` (R81). -/
  | feq (ra rb : Reg)
  /-- `FTOM`: into Montgomery form (R82). -/
  | ftom (rd ra : Reg)
  /-- `FFROMM`: out of Montgomery form (R83). -/
  | ffromm (rd ra : Reg)
  /-- `FMOV`: copy (R84). -/
  | fmov (rd ra : Reg)
  /-- `FLDC`: load constant `k`, 0 ≤ `k` ≤ 7 (R85). -/
  | fldc (rd : Reg) (k : BitVec 8)
  /-- `FLD`: load a canonical residue from BUF (R86). -/
  | fld (rd : Reg)
  /-- `FST`: store to BUF (R87). -/
  | fst (ra : Reg)
  /-- `FLTP`: C := BUF value below p (R88). -/
  | fltp
  /-- `NADD`: GF(n) modular adder (R90). -/
  | nadd (rd ra rb : Reg)
  /-- `NSUB`: GF(n) modular subtractor (R91). -/
  | nsub (rd ra rb : Reg)
  /-- `NMUL`: GF(n) Montgomery product (R92). -/
  | nmul (rd ra rb : Reg)
  /-- `NSQR`: `k` chained GF(n) Montgomery squarings, 1 ≤ `k` ≤ 255 (R93). -/
  | nsqr (rd ra : Reg) (k : BitVec 8)
  /-- `NINV`: GF(n) inversion, inverse of zero is zero (R94). -/
  | ninv (rd ra : Reg)
  /-- `NMOV`: copy (R95). -/
  | nmov (rd ra : Reg)
  /-- `NLDC`: load constant `k`, 0 ≤ `k` ≤ 3 (R96). -/
  | nldc (rd : Reg) (k : BitVec 8)
  /-- `NLD`: load a scalar from BUF, reduced mod n (R97). -/
  | nld (rd : Reg)
  /-- `NST`: store the true value to BUF (R98). -/
  | nst (ra : Reg)
  /-- `IMPSIG`: `(e·t + s) mod n` with s = `ra`, e = `rb`, t = `rc` (R99). -/
  | impsig (rd ra rb rc : Reg)
  /-- `PINF`: the point at infinity (R104). -/
  | pinf (rd : Reg)
  /-- `PGEN`: the generator (R105). -/
  | pgen (rd : Reg)
  /-- `PMOV`: copy (R106). -/
  | pmov (rd ra : Reg)
  /-- `PDBL`: point doubling (R107). -/
  | pdbl (rd ra : Reg)
  /-- `PADD`: complete point addition, C := inputs finite and equal (R108). -/
  | padd (rd ra rb : Reg)
  /-- `PNEGC`: negate iff C (R109). -/
  | pnegc (rd ra : Reg)
  /-- `PSEL`: `C ? ra : rb` (R110). -/
  | psel (rd ra rb : Reg)
  /-- `PISINF`: C := operand is infinity (R111). -/
  | pisinf (ra : Reg)
  /-- `PMUL`: variable-base scalar multiplication, `rb` an N register (R119). -/
  | pmul (rd ra rb : Reg)
  /-- `PBMUL`: fixed-base scalar multiplication, `ra` an N register (R120). -/
  | pbmul (rd ra : Reg)
  /-- `PDEC`: decode and validate a point from BUF (R122). -/
  | pdec (rd : Reg)
  /-- `PENC`: uncompressed encoding to BUF (R123). -/
  | penc (ra : Reg)
  /-- `PENCC`: compressed encoding to BUF (R124). -/
  | pencc (ra : Reg)
  /-- `PENCX`: x-coordinate to BUF, infinity is an error (R125). -/
  | pencx (ra : Reg)
  deriving DecidableEq, Repr

/-- The operand fields of a command word (R61), already cut out of it. -/
structure Fields where
  rd : Reg
  ra : Reg
  rb : Reg
  rc : Reg
  imm : BitVec 8
  deriving DecidableEq, Repr

end Sys2Proof
end

