-- ==== Sys2Proof/WellFormed.lean ====
section
/-! DEFINITION. What the syntax does not fix by its types: the legal immediate ranges of R62. Every
register index is legal, so nothing else is to be checked. -/

namespace Sys2Proof

/-- The immediate of a command is in its legal range (spec/30_encoding.md R62): the flag operation of
CSET is 0–2, the repeat count of FSQR and NSQR is 1–255, the constant selector of FLDC is 0–7 and
that of NLDC is 0–3. -/
def Instr.wellFormed : Instr → Bool
  | .cset k => decide (k.toNat ≤ 2)
  | .fsqr _ _ k => decide (1 ≤ k.toNat)
  | .nsqr _ _ k => decide (1 ≤ k.toNat)
  | .fldc _ k => decide (k.toNat ≤ 7)
  | .nldc _ k => decide (k.toNat ≤ 3)
  | .nop => true
  | .fadd _ _ _ => true
  | .fsub _ _ _ => true
  | .fmul _ _ _ => true
  | .finv _ _ => true
  | .fsqrt _ _ => true
  | .fnegc _ _ => true
  | .fsel _ _ _ => true
  | .feq _ _ => true
  | .ftom _ _ => true
  | .ffromm _ _ => true
  | .fmov _ _ => true
  | .fld _ => true
  | .fst _ => true
  | .fltp => true
  | .nadd _ _ _ => true
  | .nsub _ _ _ => true
  | .nmul _ _ _ => true
  | .ninv _ _ => true
  | .nmov _ _ => true
  | .nld _ => true
  | .nst _ => true
  | .impsig _ _ _ _ => true
  | .pinf _ => true
  | .pgen _ => true
  | .pmov _ _ => true
  | .pdbl _ _ => true
  | .padd _ _ _ => true
  | .pnegc _ _ => true
  | .psel _ _ _ => true
  | .pisinf _ => true
  | .pmul _ _ _ => true
  | .pbmul _ _ => true
  | .pdec _ => true
  | .penc _ => true
  | .pencc _ => true
  | .pencx _ => true

/-- A command that a legal word can stand for. -/
abbrev Instr.WellFormed (i : Instr) : Prop := i.wellFormed = true

end Sys2Proof
end

