-- ==== Sys2Proof/Decode.lean ====
section
/-! DEFINITION. The opcode map, the total decoder of R67, which rejects an illegal word by name, and
the encoder of R68. -/

namespace Sys2Proof

/-- The opcode number of R65 (word bits 7:0). -/
def Op.code : Op → BitVec 8
  | .nop => 0x00
  | .cset => 0x01
  | .fadd => 0x10
  | .fsub => 0x11
  | .fmul => 0x12
  | .fsqr => 0x13
  | .finv => 0x14
  | .fsqrt => 0x15
  | .fnegc => 0x16
  | .fsel => 0x17
  | .feq => 0x18
  | .ftom => 0x19
  | .ffromm => 0x1A
  | .fmov => 0x1B
  | .fldc => 0x1C
  | .fld => 0x1D
  | .fst => 0x1E
  | .fltp => 0x1F
  | .nadd => 0x20
  | .nsub => 0x21
  | .nmul => 0x22
  | .nsqr => 0x23
  | .ninv => 0x24
  | .nmov => 0x25
  | .nldc => 0x26
  | .nld => 0x27
  | .nst => 0x28
  | .impsig => 0x29
  | .pinf => 0x30
  | .pgen => 0x31
  | .pmov => 0x32
  | .pdbl => 0x33
  | .padd => 0x34
  | .pnegc => 0x35
  | .psel => 0x36
  | .pisinf => 0x37
  | .pmul => 0x38
  | .pbmul => 0x39
  | .pdec => 0x40
  | .penc => 0x41
  | .pencc => 0x42
  | .pencx => 0x43

/-- The format column of R65. -/
def Op.format : Op → Format
  | .nop | .fltp => .n
  | .cset => .i
  | .fld | .nld | .pinf | .pgen | .pdec => .d
  | .fst | .nst | .pisinf | .penc | .pencc | .pencx => .s
  | .fldc | .nldc => .di
  | .finv | .fsqrt | .fnegc | .ftom | .ffromm | .fmov | .ninv | .nmov | .pmov | .pdbl | .pnegc | .pbmul => .r2
  | .fsqr | .nsqr => .r2i
  | .feq => .ss
  | .fadd | .fsub | .fmul | .fsel | .nadd | .nsub | .nmul | .padd | .psel | .pmul => .r3
  | .impsig => .r4

/-- OPMAP of R67: the row an opcode byte selects; a reserved opcode selects none (R66). -/
def opOfCode (c : BitVec 8) : Option Op :=
  match c.toNat with
  | 0x00 => some .nop
  | 0x01 => some .cset
  | 0x10 => some .fadd
  | 0x11 => some .fsub
  | 0x12 => some .fmul
  | 0x13 => some .fsqr
  | 0x14 => some .finv
  | 0x15 => some .fsqrt
  | 0x16 => some .fnegc
  | 0x17 => some .fsel
  | 0x18 => some .feq
  | 0x19 => some .ftom
  | 0x1A => some .ffromm
  | 0x1B => some .fmov
  | 0x1C => some .fldc
  | 0x1D => some .fld
  | 0x1E => some .fst
  | 0x1F => some .fltp
  | 0x20 => some .nadd
  | 0x21 => some .nsub
  | 0x22 => some .nmul
  | 0x23 => some .nsqr
  | 0x24 => some .ninv
  | 0x25 => some .nmov
  | 0x26 => some .nldc
  | 0x27 => some .nld
  | 0x28 => some .nst
  | 0x29 => some .impsig
  | 0x30 => some .pinf
  | 0x31 => some .pgen
  | 0x32 => some .pmov
  | 0x33 => some .pdbl
  | 0x34 => some .padd
  | 0x35 => some .pnegc
  | 0x36 => some .psel
  | 0x37 => some .pisinf
  | 0x38 => some .pmul
  | 0x39 => some .pbmul
  | 0x40 => some .pdec
  | 0x41 => some .penc
  | 0x42 => some .pencc
  | 0x43 => some .pencx
  | _ => none

/-- The mask of fixed bits of a format: the opcode and every field the format does not use (R63). -/
def Format.mask : Format → Word
  | .n => 0xFFFFFFFF
  | .i => 0x00FFFFFF
  | .d => 0xFFFFF0FF
  | .s => 0xFFFF0FFF
  | .di => 0x00FFF0FF
  | .r2 => 0xFFFF00FF
  | .r2i => 0x00FF00FF
  | .ss => 0xFFF00FFF
  | .r3 => 0xFFF000FF
  | .r4 => 0xFF0000FF

/-- match(r) of R63: the opcode in bits 7:0 and zero elsewhere. -/
def Op.matchWord (op : Op) : Word := op.code.setWidth 32

/-- The legal range of IMM, for the opcodes that have one (R62). -/
def Op.immRange : Op → Option (Nat × Nat)
  | .fsqr | .nsqr => some (1, 255)
  | .fldc => some (0, 7)
  | .nldc => some (0, 3)
  | .cset => some (0, 2)
  | .nop | .fadd | .fsub | .fmul | .finv | .fsqrt | .fnegc | .fsel | .feq
  | .ftom | .ffromm | .fmov | .fld | .fst | .fltp | .nadd | .nsub | .nmul
  | .ninv | .nmov | .nld | .nst | .impsig | .pinf | .pgen | .pmov | .pdbl
  | .padd | .pnegc | .psel | .pisinf | .pmul | .pbmul | .pdec | .penc | .pencc
  | .pencx => none

/-- IMM lies in the opcode's legal range, where the opcode has one. -/
def Op.immOk (op : Op) (imm : BitVec 8) : Bool :=
  match op.immRange with
  | none => true
  | some (lo, hi) => decide (lo ≤ imm.toNat) && decide (imm.toNat ≤ hi)

/-- OP = w[7:0] (R61). -/
def wordOp (w : Word) : BitVec 8 := BitVec.ofNat 8 w.toNat

/-- The 4-bit field of `w` whose least significant bit has the weight `weight` (R61, R62). -/
def wordReg (weight : Nat) (w : Word) : Reg := Fin.ofNat 16 (w.toNat / weight)

/-- RD = w[11:8], RA = w[15:12], RB = w[19:16], RC = w[23:20], IMM = w[31:24] (R61). -/
def wordFields (w : Word) : Fields where
  rd := wordReg 0x100 w
  ra := wordReg 0x1000 w
  rb := wordReg 0x10000 w
  rc := wordReg 0x100000 w
  imm := BitVec.ofNat 8 (w.toNat / 0x1000000)

/-- The command an opcode and its operand fields stand for: each opcode takes the fields its format
uses (R63, R65). -/
def buildInstr (op : Op) (x : Fields) : Instr :=
  match op with
  | .nop => .nop
  | .cset => .cset x.imm
  | .fadd => .fadd x.rd x.ra x.rb
  | .fsub => .fsub x.rd x.ra x.rb
  | .fmul => .fmul x.rd x.ra x.rb
  | .fsqr => .fsqr x.rd x.ra x.imm
  | .finv => .finv x.rd x.ra
  | .fsqrt => .fsqrt x.rd x.ra
  | .fnegc => .fnegc x.rd x.ra
  | .fsel => .fsel x.rd x.ra x.rb
  | .feq => .feq x.ra x.rb
  | .ftom => .ftom x.rd x.ra
  | .ffromm => .ffromm x.rd x.ra
  | .fmov => .fmov x.rd x.ra
  | .fldc => .fldc x.rd x.imm
  | .fld => .fld x.rd
  | .fst => .fst x.ra
  | .fltp => .fltp
  | .nadd => .nadd x.rd x.ra x.rb
  | .nsub => .nsub x.rd x.ra x.rb
  | .nmul => .nmul x.rd x.ra x.rb
  | .nsqr => .nsqr x.rd x.ra x.imm
  | .ninv => .ninv x.rd x.ra
  | .nmov => .nmov x.rd x.ra
  | .nldc => .nldc x.rd x.imm
  | .nld => .nld x.rd
  | .nst => .nst x.ra
  | .impsig => .impsig x.rd x.ra x.rb x.rc
  | .pinf => .pinf x.rd
  | .pgen => .pgen x.rd
  | .pmov => .pmov x.rd x.ra
  | .pdbl => .pdbl x.rd x.ra
  | .padd => .padd x.rd x.ra x.rb
  | .pnegc => .pnegc x.rd x.ra
  | .psel => .psel x.rd x.ra x.rb
  | .pisinf => .pisinf x.ra
  | .pmul => .pmul x.rd x.ra x.rb
  | .pbmul => .pbmul x.rd x.ra
  | .pdec => .pdec x.rd
  | .penc => .penc x.ra
  | .pencc => .pencc x.ra
  | .pencx => .pencx x.ra

/-- Why a word is illegal: the three cases (a), (b), (c) of R66. -/
inductive DecodeReject where
  /-- (a) OP is not in the opcode map. -/
  | reservedOpcode
  /-- (b) a field the format does not use is not zero. -/
  | unusedField
  /-- (c) IMM is outside the legal range. -/
  | immRange
  deriving DecidableEq, Repr

/-- R67: decoding as a total function of any 32-bit word. -/
def decode (w : Word) : Except DecodeReject Instr :=
  match opOfCode (wordOp w) with
  | none => .error .reservedOpcode
  | some op =>
    if w &&& op.format.mask = op.matchWord then
      if op.immOk (wordFields w).imm then .ok (buildInstr op (wordFields w))
      else .error .immRange
    else .error .unusedField

/-- The opcode of a command. -/
def Instr.op : Instr → Op
  | .nop => .nop
  | .cset _ => .cset
  | .fadd _ _ _ => .fadd
  | .fsub _ _ _ => .fsub
  | .fmul _ _ _ => .fmul
  | .fsqr _ _ _ => .fsqr
  | .finv _ _ => .finv
  | .fsqrt _ _ => .fsqrt
  | .fnegc _ _ => .fnegc
  | .fsel _ _ _ => .fsel
  | .feq _ _ => .feq
  | .ftom _ _ => .ftom
  | .ffromm _ _ => .ffromm
  | .fmov _ _ => .fmov
  | .fldc _ _ => .fldc
  | .fld _ => .fld
  | .fst _ => .fst
  | .fltp => .fltp
  | .nadd _ _ _ => .nadd
  | .nsub _ _ _ => .nsub
  | .nmul _ _ _ => .nmul
  | .nsqr _ _ _ => .nsqr
  | .ninv _ _ => .ninv
  | .nmov _ _ => .nmov
  | .nldc _ _ => .nldc
  | .nld _ => .nld
  | .nst _ => .nst
  | .impsig _ _ _ _ => .impsig
  | .pinf _ => .pinf
  | .pgen _ => .pgen
  | .pmov _ _ => .pmov
  | .pdbl _ _ => .pdbl
  | .padd _ _ _ => .padd
  | .pnegc _ _ => .pnegc
  | .psel _ _ _ => .psel
  | .pisinf _ => .pisinf
  | .pmul _ _ _ => .pmul
  | .pbmul _ _ => .pbmul
  | .pdec _ => .pdec
  | .penc _ => .penc
  | .pencc _ => .pencc
  | .pencx _ => .pencx

/-- The operand fields of a command; a field its format does not use is zero (R63). -/
def Instr.fields : Instr → Fields
  | .nop => ⟨0, 0, 0, 0, 0⟩
  | .cset k => ⟨0, 0, 0, 0, k⟩
  | .fadd rd ra rb => ⟨rd, ra, rb, 0, 0⟩
  | .fsub rd ra rb => ⟨rd, ra, rb, 0, 0⟩
  | .fmul rd ra rb => ⟨rd, ra, rb, 0, 0⟩
  | .fsqr rd ra k => ⟨rd, ra, 0, 0, k⟩
  | .finv rd ra => ⟨rd, ra, 0, 0, 0⟩
  | .fsqrt rd ra => ⟨rd, ra, 0, 0, 0⟩
  | .fnegc rd ra => ⟨rd, ra, 0, 0, 0⟩
  | .fsel rd ra rb => ⟨rd, ra, rb, 0, 0⟩
  | .feq ra rb => ⟨0, ra, rb, 0, 0⟩
  | .ftom rd ra => ⟨rd, ra, 0, 0, 0⟩
  | .ffromm rd ra => ⟨rd, ra, 0, 0, 0⟩
  | .fmov rd ra => ⟨rd, ra, 0, 0, 0⟩
  | .fldc rd k => ⟨rd, 0, 0, 0, k⟩
  | .fld rd => ⟨rd, 0, 0, 0, 0⟩
  | .fst ra => ⟨0, ra, 0, 0, 0⟩
  | .fltp => ⟨0, 0, 0, 0, 0⟩
  | .nadd rd ra rb => ⟨rd, ra, rb, 0, 0⟩
  | .nsub rd ra rb => ⟨rd, ra, rb, 0, 0⟩
  | .nmul rd ra rb => ⟨rd, ra, rb, 0, 0⟩
  | .nsqr rd ra k => ⟨rd, ra, 0, 0, k⟩
  | .ninv rd ra => ⟨rd, ra, 0, 0, 0⟩
  | .nmov rd ra => ⟨rd, ra, 0, 0, 0⟩
  | .nldc rd k => ⟨rd, 0, 0, 0, k⟩
  | .nld rd => ⟨rd, 0, 0, 0, 0⟩
  | .nst ra => ⟨0, ra, 0, 0, 0⟩
  | .impsig rd ra rb rc => ⟨rd, ra, rb, rc, 0⟩
  | .pinf rd => ⟨rd, 0, 0, 0, 0⟩
  | .pgen rd => ⟨rd, 0, 0, 0, 0⟩
  | .pmov rd ra => ⟨rd, ra, 0, 0, 0⟩
  | .pdbl rd ra => ⟨rd, ra, 0, 0, 0⟩
  | .padd rd ra rb => ⟨rd, ra, rb, 0, 0⟩
  | .pnegc rd ra => ⟨rd, ra, 0, 0, 0⟩
  | .psel rd ra rb => ⟨rd, ra, rb, 0, 0⟩
  | .pisinf ra => ⟨0, ra, 0, 0, 0⟩
  | .pmul rd ra rb => ⟨rd, ra, rb, 0, 0⟩
  | .pbmul rd ra => ⟨rd, ra, 0, 0, 0⟩
  | .pdec rd => ⟨rd, 0, 0, 0, 0⟩
  | .penc ra => ⟨0, ra, 0, 0, 0⟩
  | .pencc ra => ⟨0, ra, 0, 0, 0⟩
  | .pencx ra => ⟨0, ra, 0, 0, 0⟩

/-- `IMM<<24 | RC<<20 | RB<<16 | RA<<12 | RD<<8 | OP` (R68), as a sum: the fields do not overlap. -/
def packWord (op : BitVec 8) (x : Fields) : Word :=
  BitVec.ofNat 32 (op.toNat + x.rd.val * 0x100 + x.ra.val * 0x1000 + x.rb.val * 0x10000
    + x.rc.val * 0x100000 + x.imm.toNat * 0x1000000)

/-- The encoder: the word of a command (R68). -/
def encode (i : Instr) : Word := packWord i.op.code i.fields

/-- The command the decoder reads from a table word: bit 0 is the least significant bit of the one
32-bit command word; bits at or above `nbits` are zero. -/
def decodeTableWord (nbits w : Nat) : Option Instr :=
  (decode (BitVec.ofNat 32 (w % 2 ^ nbits))).toOption

end Sys2Proof
end

