-- ==== Sys2Proof/Machine/State.lean ====
section
/-! DEFINITION. The architectural state of the engine (spec/10_state.md) as plain data, the events a
host can present, the ways a step can stop, and the state after reset. -/

namespace Sys2Proof.Machine

/-- A data register or flag with the mark R35 gives it: `written` is false from reset until a command
writes the register. The value of an unwritten register is the model's, and no command uses it (log
entry 1). -/
structure Slot (α : Type) where
  val : α
  written : Bool
  deriving DecidableEq, Repr

/-- A point of E as a P register holds it (R24): infinity, or the affine point with true (not
Montgomery) coordinates. -/
inductive Point where
  | infinity
  | affine (x y : Elem)
  deriving DecidableEq, Repr

/-- The names of what can be unwritten: an F, N or P register or the flag C (R35). -/
inductive RegName where
  | f (i : Reg)
  | n (i : Reg)
  | p (i : Reg)
  | c
  deriving DecidableEq, Repr

/-- The 65-byte buffer BUF (R28): the bytes that are not `Memory.blankByte`, by strictly rising
index. `Memory.wf` states the form. -/
abbrev Memory := List Host.Cell

/-- What an index of BUF that is not listed reads as: every BUF byte is 0x00 after reset (R34). -/
def Memory.blankByte : Byte := 0x00

/-- What the host presents next (R19, R37, R38, R144). `width` is the number of bytes of an access and
`off` its byte offset from the engine's base address. -/
inductive HostEvent where
  /-- The host makes no access: the engine may take its step. -/
  | wait
  /-- A host read. -/
  | read (width off : Nat)
  /-- A host write of `data`. -/
  | write (width off : Nat) (data : Word)
  /-- The platform asserts the reset signal. -/
  | assertReset
  /-- The platform releases the reset signal. -/
  | releaseReset
  deriving DecidableEq, Repr

/-- The ways the machine can stop with a fault: none. Every command completes with a completion code
(R128, R152) or, where it reads an unwritten register, does not complete and is recorded in
`State.uninit` (R132, log entry 1), which is a next state; and the engine's only byte-addressed store
is never accessed out of range (R50). -/
inductive Fault where
  deriving DecidableEq, Repr

/-- What is refused. -/
inductive Refusal where
  /-- Raised by an arm of `exec` that has no meaning yet; no arm raises it. Safe: nothing is claimed. -/
  | notModelled (mnemonic : String)
  /-- Raised by the host port for an access that is not 32 bits wide (R38). Safe: the spec gives no
  such access. -/
  | subWordAccess
  /-- Raised by the host port for an offset that is not a multiple of 4 (R38). Safe: as above. -/
  | misalignedAccess
  /-- Raised by the host port for an offset outside 0x00–0xFC (R38). Safe: as above. -/
  | outsideWindow
  /-- Raised by the host port for an access while reset is asserted (R145). Safe: as above. -/
  | accessDuringReset
  deriving DecidableEq, Repr

/-- The state of the engine and of its host port. -/
structure State where
  /-- F0–F15, prime-field residues (R20, R21). -/
  f : Vector (Slot Elem) 16
  /-- N0–N15, order-field residues (R22). -/
  n : Vector (Slot Elem) 16
  /-- P0–P15, points of E (R23, R24). -/
  p : Vector (Slot Point) 16
  /-- The condition flag C (R26). -/
  c : Slot Bool
  /-- BUF[0]–BUF[64] (R28). -/
  buf : Memory
  /-- BUFLEN, 0 to 65 (R28). -/
  bufLen : Nat
  /-- STATUS.BUSY: a command is latched and not finished (R29). -/
  busy : Bool
  /-- STATUS.DONE: the last command finished and is not acknowledged (R29). -/
  done : Bool
  /-- STATUS.ERR: the completion code of the last finished command (R29, R128). -/
  err : BitVec 4
  /-- STATUS.OVR, sticky: a host write was dropped while BUSY (R29). -/
  ovr : Bool
  /-- CMDL, the command latch (R30). -/
  cmdl : Word
  /-- The reset signal is asserted (R144, R145). -/
  inReset : Bool
  /-- The host's coming events, in the order the host issues them (R54). -/
  inbox : List HostEvent
  /-- The words host reads have returned, newest first (R51). -/
  replies : List Word
  /-- How many free values have been drawn (log entry 4). -/
  draws : Nat
  /-- The `ReadUninit` record of R14 and R132: the first unwritten register or flag a command has read;
  recorded and never cleared. -/
  uninit : Option RegName
  /-- OP and IMM of each completed command, newest first: what its latency depends on (R153). No command
  and no host access reads the list: it is the model's own (log entry 7). -/
  completed : List (BitVec 8 × BitVec 8)
  deriving DecidableEq, Repr

/-- The machine right after reset (R34, R35, R144, R146): control and status state and BUF zero, every
data register and C unwritten. The values of the unwritten ones are the model's: zero, infinity and
0 (log entry 1). -/
def State.reset : State where
  f := Vector.replicate 16 ⟨0, false⟩
  n := Vector.replicate 16 ⟨0, false⟩
  p := Vector.replicate 16 ⟨.infinity, false⟩
  c := ⟨false, false⟩
  buf := []
  bufLen := 0
  busy := false
  done := false
  err := 0
  ovr := false
  cmdl := 0
  inReset := false
  inbox := []
  replies := []
  draws := 0
  uninit := none
  completed := []

end Sys2Proof.Machine
end

