-- ==== Sys2Proof/Machine/Params.lean ====
section
/-! DEFINITION. The fixed constants of the engine: the SM2 domain parameters (spec/00_scope.md R5 to
R8), the Montgomery constants (R10) and the identity value (spec/10_state.md R31). -/

namespace Sys2Proof.Machine

/-- p, the prime-field modulus (R5). -/
def primeP : Nat := 0xFFFFFFFEFFFFFFFFFFFFFFFFFFFFFFFFFFFFFFFF00000000FFFFFFFFFFFFFFFF

/-- n, the curve order (R6). -/
def orderN : Nat := 0xFFFFFFFEFFFFFFFFFFFFFFFFFFFFFFFF7203DF6B21C6052B53BBF40939D54123

/-- b of the curve y² = x³ − 3x + b (R7). -/
def curveB : Nat := 0x28E9FA9E9D9F5E344D5A9E4BCF6509A7F39789F515AB8F92DDBCBD414D940E93

/-- Gx, the generator's x-coordinate (R8). -/
def genX : Nat := 0x32C4AE2C1F1981195F9904466A39C9948FE30BBFF2660BE1715A4589334C74C7

/-- Gy, the generator's y-coordinate (R8). -/
def genY : Nat := 0xBC3736A2F4F6779C59BDCEE36B692153D0A9877CC62A474002DF32E52139F0A0

/-- R = 2^256, the Montgomery radix (R10). -/
def radixR : Nat := 0x10000000000000000000000000000000000000000000000000000000000000000

/-- R mod p, Montgomery one (R10). -/
def rModP : Nat := 0x0000000100000000000000000000000000000000FFFFFFFF0000000000000001

/-- R² mod p (R10). -/
def r2ModP : Nat := 0x0000000400000002000000010000000100000002FFFFFFFF0000000200000003

/-- R⁻¹ mod p (R10). -/
def rInvModP : Nat := 0xFFFFFFFB00000005FFFFFFFC00000002FFFFFFFD00000006FFFFFFF900000004

/-- R mod n (R10). -/
def rModN : Nat := 0x000000010000000000000000000000008DFC2094DE39FAD4AC440BF6C62ABEDD

/-- R² mod n (R10). -/
def r2ModN : Nat := 0x1EB5E412A22B3D3B620FC84C3AFFE0D43464504ADE6FA2FA901192AF7C114F20

/-- R⁻¹ mod n (R10). -/
def rInvModN : Nat := 0x6F39132F13ABB48CA81BA1178588D900F0E551783F95FA1213E93C0567B935EA

/-- ID_VALUE: ASCII "SM2" and command-set version 1 (R31). -/
def idValue : Word := 0x534D3201

end Sys2Proof.Machine
end

