-- ==== Sys2Proof/Machine/Modular.lean ====
section
/-! DEFINITION. The modular adder and subtractor, the Montgomery product and its uses, exponentiation,
inversion and square root over GF(p) and GF(n) (spec/00_scope.md R13, spec/40_prime_field.md,
spec/41_order_field.md), as exact functions of natural numbers. -/

namespace Sys2Proof.Machine

/-- The modular adder: `(a + b) mod m` (R73, R90). -/
def addMod (m a b : Nat) : Nat := (a + b) % m

/-- The modular subtractor: the least non-negative residue of `a − b` (R74, R91). -/
def subMod (m a b : Nat) : Nat := (((a : Int) - (b : Int)) % (m : Int)).toNat

/-- `(m − a) mod m`, the negation of R79. -/
def negMod (m a : Nat) : Nat := subMod m 0 a

/-- `a · b mod m`, a product of true values. -/
def mulMod (m a b : Nat) : Nat := a * b % m

/-- One square-and-multiply round a bit of the exponent, least significant bit first. -/
def powModRounds (m : Nat) : Nat → Nat → Nat → Nat → Nat
  | 0, _, _, acc => acc
  | k + 1, b, e, acc =>
    powModRounds m k (b * b % m) (e / 2) (if e % 2 = 1 then acc * b % m else acc)

/-- `x^e mod m` for an exponent below 2^256. -/
def powMod (m x e : Nat) : Nat := powModRounds m 256 (x % m) e (1 % m)

/-- `inv_m(x)`: x^(m−2) mod m, which is 0 for x ≡ 0 (R13, R77, R94). -/
def invMod (m x : Nat) : Nat := powMod m x (m - 2)

/-- The Montgomery product over GF(p): `a · b · R⁻¹ mod p` (R72). -/
def montMulP (a b : Nat) : Nat := a * b * rInvModP % primeP

/-- The Montgomery product over GF(n): `a · b · R⁻¹ mod n` (R89). -/
def montMulN (a b : Nat) : Nat := a * b * rInvModN % orderN

/-- `mont_p(x) = x · R mod p` (R13). -/
def montP (x : Nat) : Nat := x * radixR % primeP

/-- `unmont_p(w) = w · R⁻¹ mod p` (R13). -/
def unmontP (w : Nat) : Nat := w * rInvModP % primeP

/-- `mont_n(x) = x · R mod n` (R13). -/
def montN (x : Nat) : Nat := x * radixR % orderN

/-- `unmont_n(w) = w · R⁻¹ mod n` (R13). -/
def unmontN (w : Nat) : Nat := w * rInvModN % orderN

/-- `f` applied `k` times. -/
def applyTimes {α : Type} (f : α → α) : Nat → α → α
  | 0, x => x
  | k + 1, x => applyTimes f k (f x)

/-- `k` chained Montgomery squarings over GF(p) (R76). -/
def montSqrP (k x : Nat) : Nat := applyTimes (fun y => montMulP y y) k x

/-- `k` chained Montgomery squarings over GF(n) (R93). -/
def montSqrN (k x : Nat) : Nat := applyTimes (fun y => montMulN y y) k x

/-- `t^((p+1)/4) mod p`, the square root candidate of a true value (R78, R122). -/
def sqrtCandidate (t : Nat) : Nat := powMod primeP t ((primeP + 1) / 4)

end Sys2Proof.Machine
end

