-- ==== Sys2Proof/Machine/Curve.lean ====
section
/-! DEFINITION. The curve E and its group law on affine points with true coordinates
(spec/00_scope.md R7, R8, R17), by the chord-and-tangent formulas. -/

namespace Sys2Proof.Machine

/-- `rhs(x) = (x³ − 3x + b) mod p` (R122). -/
def curveRhs (x : Nat) : Nat :=
  addMod primeP (subMod primeP (mulMod primeP (mulMod primeP x x) x) (mulMod primeP 3 x)) curveB

/-- The point of two coordinates given as residues. -/
def Point.ofNat (x y : Nat) : Point := .affine (BitVec.ofNat 256 x) (BitVec.ofNat 256 y)

/-- Membership in E (R17): infinity, or coordinates below p that meet y² ≡ x³ − 3x + b. -/
def Point.onCurve : Point → Bool
  | .infinity => true
  | .affine x y =>
    decide (x.toNat < primeP) && decide (y.toNat < primeP)
      && decide (mulMod primeP y.toNat y.toNat = curveRhs x.toNat)

/-- The generator G (R8). -/
def Point.generator : Point := Point.ofNat genX genY

/-- `−(x, y) = (x, p − y)` and `−∞ = ∞` (R17, R109). -/
def Point.neg : Point → Point
  | .infinity => .infinity
  | .affine x y => Point.ofNat x.toNat (negMod primeP y.toNat)

/-- The third point of a line of slope `l` through (x1, y1) and a point at x2, negated:
`x₃ = λ² − x₁ − x₂; y₃ = λ(x₁ − x₃) − y₁` (R17). -/
def Point.ofSlope (l x1 y1 x2 : Nat) : Point :=
  let x3 := subMod primeP (subMod primeP (mulMod primeP l l) x1) x2
  Point.ofNat x3 (subMod primeP (mulMod primeP l (subMod primeP x1 x3)) y1)

/-- The chord's slope `λ = (y₂ − y₁)/(x₂ − x₁)` (R17). -/
def chordSlope (x1 y1 x2 y2 : Nat) : Nat :=
  mulMod primeP (subMod primeP y2 y1) (invMod primeP (subMod primeP x2 x1))

/-- The tangent's slope `λ = (3x₁² + a)/(2y₁)` with a = −3 (R7, R17). -/
def tangentSlope (x1 y1 : Nat) : Nat :=
  mulMod primeP (subMod primeP (mulMod primeP 3 (mulMod primeP x1 x1)) 3)
    (invMod primeP (mulMod primeP 2 y1))

/-- The group law `P + Q` of E (R17): ∞ is the identity, opposite points give ∞, equal points the
tangent, others the chord. -/
def Point.add : Point → Point → Point
  | .infinity, q => q
  | .affine x y, .infinity => .affine x y
  | .affine x1 y1, .affine x2 y2 =>
    if x1 = x2 then
      if addMod primeP y1.toNat y2.toNat = 0 then .infinity
      else Point.ofSlope (tangentSlope x1.toNat y1.toNat) x1.toNat y1.toNat x2.toNat
    else
      Point.ofSlope (chordSlope x1.toNat y1.toNat x2.toNat y2.toNat) x1.toNat y1.toNat x2.toNat

/-- `2·P = P + P` (R107). -/
def Point.double (q : Point) : Point := Point.add q q

/-- `[k]P`: P added to itself `k` times, `[0]P = ∞` (R17). The clear definition that statements use;
the commands compute it by the windowed algorithms of Machine/Windowed.lean. -/
def Point.smul : Nat → Point → Point
  | 0, _ => .infinity
  | k + 1, q => Point.add (Point.smul k q) q

end Sys2Proof.Machine
end

