-- ==== Sys2Proof/Config.lean ====
section
/-! DEFINITION. What the spec leaves open: the free values a host read may return, the latency
parameter `LAT` and its use. Each is opaque, so no proof can rest on what it is. -/

namespace Sys2Proof

/-- The `k`-th free bit: STATUS bit 2 while BUSY = 1 or while C is unwritten (spec/20_memory.md R44;
log entry 4). -/
opaque Config.freeBit : Nat → Bool

/-- The `k`-th free word: a host read of BUFLEN or BUFWi while BUSY = 1 (spec/20_memory.md R48; log
entry 4). -/
opaque Config.freeWord : Nat → Word

/-- The part of the latency above its least value, by OP and IMM (spec/70_reset_and_hazards.md R153;
log entry 7). -/
opaque Config.extraLatency : BitVec 8 → BitVec 8 → Nat

/-- `LAT(cmd)`: engine cycles from the accepted CMD write to completion, at least 1, a function of OP
and IMM alone (spec/00_scope.md R11, spec/70_reset_and_hazards.md R153). -/
def Config.latency (op imm : BitVec 8) : Nat := Config.extraLatency op imm + 1

end Sys2Proof
end

