-- ==== Sys2Proof/Machine/Ops.lean ====
section
/-! DEFINITION. The named operations over registers, the ReadUninit record, the buffer, completion,
and the engine's counterpart of taking an exception and returning from one (spec/00_scope.md R14 to
R16, spec/20_memory.md R41, R43, spec/60_exceptions.md R128 to R136). -/

namespace Sys2Proof.Machine

/-- The value of F[i] as a natural number below 2^256 (R20). -/
def State.fReg (s : State) (i : Reg) : Nat := (s.f.get i).val.toNat

/-- The value of N[i] (R22). -/
def State.nReg (s : State) (i : Reg) : Nat := (s.n.get i).val.toNat

/-- The point P[i] (R24). -/
def State.pReg (s : State) (i : Reg) : Point := (s.p.get i).val

/-- The condition flag C (R26). -/
def State.cFlag (s : State) : Bool := s.c.val

/-- `F[i] <- v`: the register holds `v` and is written (R14, R35). -/
def State.setF (s : State) (i : Reg) (v : Nat) : State :=
  { s with f := s.f.set i.val ⟨BitVec.ofNat 256 v, true⟩ i.isLt }

/-- `N[i] <- v` (R14, R35). -/
def State.setN (s : State) (i : Reg) (v : Nat) : State :=
  { s with n := s.n.set i.val ⟨BitVec.ofNat 256 v, true⟩ i.isLt }

/-- `P[i] <- q` (R14, R35). -/
def State.setP (s : State) (i : Reg) (q : Point) : State :=
  { s with p := s.p.set i.val ⟨q, true⟩ i.isLt }

/-- `C <- b` (R14, R35). -/
def State.setC (s : State) (b : Bool) : State := { s with c := ⟨b, true⟩ }

/-- The register or flag has been written since reset (R35). -/
def State.isWritten (s : State) : RegName → Bool
  | .f i => (s.f.get i).written
  | .n i => (s.n.get i).written
  | .p i => (s.p.get i).written
  | .c => s.c.written

/-- The first of `rs` that no command has written since reset (R35; the order is the model's, log
entry 1). -/
def State.firstUnwritten (s : State) (rs : List RegName) : Option RegName :=
  rs.find? fun r => !s.isWritten r

/-- The model fault `ReadUninit(r)` is recorded; a record once made stays (R14, R132). -/
def State.recordUninit (s : State) (r : RegName) : State := { s with uninit := s.uninit.or (some r) }

/-- A command reads all its sources `rs` before any check of its own and before it writes (R14, R133).
If one is unwritten, the command does not complete: ReadUninit is recorded and nothing else changes, so
BUSY stays set, until reset (R132, R145; log entry 1). Otherwise the command goes on as `rest`. -/
def State.reading (s : State) (rs : List RegName) (rest : Host.Outcome State Fault Refusal) :
    Host.Outcome State Fault Refusal :=
  match s.firstUnwritten rs with
  | some r => .next (s.recordUninit r)
  | none => rest

/-- The byte a list of cells holds at an index; an unlisted index is blank. -/
def Memory.read : Memory → Nat → Byte
  | [], _ => Memory.blankByte
  | (a, v) :: m, k => if a = k then v else Memory.read m k

/-- The list with the byte at index `k` made `v`, in the canonical form: rising indices, no blank
byte listed. -/
def Memory.write : Memory → Nat → Byte → Memory
  | [], k, v => if v = Memory.blankByte then [] else [(k, v)]
  | (a, x) :: m, k, v =>
    if k < a then (if v = Memory.blankByte then (a, x) :: m else (k, v) :: (a, x) :: m)
    else if k = a then (if v = Memory.blankByte then m else (k, v) :: m)
    else (a, x) :: Memory.write m k v

/-- Every index from `lo` on rises strictly and stays below 65, and no listed byte is blank. -/
def Memory.wfFrom : Nat → Memory → Bool
  | _, [] => true
  | lo, (a, v) :: m =>
    decide (lo ≤ a) && decide (a < 65) && decide (v ≠ Memory.blankByte) && Memory.wfFrom (a + 1) m

/-- The canonical form of BUF: equal buffers are equal lists. -/
def Memory.wf (m : Memory) : Bool := Memory.wfFrom 0 m

/-- Write one BUF byte; a position beyond BUF[64] holds no byte and is ignored (R46, R47). -/
def Memory.put (m : Memory) (k : Nat) (v : Byte) : Memory :=
  if k < 65 then Memory.write m k v else m

/-- `MemWrite` on the buffer alone: the bytes of the string from index `off` on (R15). -/
def Memory.putBytes : Memory → Nat → List Byte → Memory
  | m, _, [] => m
  | m, off, b :: bs => Memory.putBytes (Memory.put m off b) (off + 1) bs

/-- BUF[k]; a position beyond BUF[64] holds no byte and reads 0 (R28, R46, R47). -/
def State.bufByte (s : State) (k : Nat) : Byte := if k < 65 then Memory.read s.buf k else 0x00

/-- `MemRead(off, k)`: the string `BUF[off] ‖ … ‖ BUF[off+k−1]` (R15). -/
def State.memRead (s : State) (off k : Nat) : List Byte :=
  (List.range k).map fun j => s.bufByte (off + j)

/-- `MemWrite(off, k, bytes)` with k the length of the string (R15). -/
def State.memWrite (s : State) (off : Nat) (bytes : List Byte) : State :=
  { s with buf := Memory.putBytes s.buf off bytes }

/-- `BUFLEN <- k` (R28). -/
def State.setBufLen (s : State) (k : Nat) : State := { s with bufLen := k }

/-- Every transfer to BUF starts at BUF[0], writes its bytes and sets BUFLEN to their number; the bytes
beyond stay (R150, spec/92_eei_decisions.md D30). -/
def State.output (s : State) (bytes : List Byte) : State :=
  (s.memWrite 0 bytes).setBufLen bytes.length

/-- `be(s)`: the unsigned integer whose big-endian byte string is given (R15). -/
def beNat (bytes : List Byte) : Nat := bytes.foldl (fun acc b => acc * 256 + b.toNat) 0

/-- The `k`-byte big-endian string of a value. -/
def beBytes : Nat → Nat → List Byte
  | 0, _ => []
  | k + 1, v => BitVec.ofNat 8 (v / 256 ^ k) :: beBytes k v

/-- `be32(v)` (R15). -/
def be32 (v : Nat) : List Byte := beBytes 32 v

/-- The error kinds of R16 and R128. -/
inductive ErrKind where
  | decodeError | notOnCurve | noSquareRoot | invalidScalarLength | infinityOperand | illegalCommand
  deriving DecidableEq, Repr

/-- The completion code of an error kind (R128); code 0 is success. -/
def ErrKind.code : ErrKind → BitVec 4
  | .decodeError => 1
  | .notOnCurve => 2
  | .noSquareRoot => 3
  | .invalidScalarLength => 4
  | .infinityOperand => 5
  | .illegalCommand => 6

/-- OP and IMM of the latched word, on which its latency depends (R153). -/
def State.timing (s : State) : BitVec 8 × BitVec 8 := (wordOp s.cmdl, (wordFields s.cmdl).imm)

/-- LAT of the latched command, in engine cycles (R153). -/
def State.latency (s : State) : Nat := Config.latency s.timing.1 s.timing.2

/-- The engine cycles that the completed commands have taken, from acceptance to completion (R153). -/
def State.elapsed (s : State) : Nat := (s.completed.map fun c => Config.latency c.1 c.2).sum

/-- The completion of the command in CMDL: `BUSY <- 0; DONE <- 1; ERR <- code` (R43), LAT engine cycles
after its acceptance, with or without an error (R153). CMDL keeps its word, which means nothing while
BUSY = 0 (R30; log entry 6). -/
def State.complete (s : State) (code : BitVec 4) : State :=
  { s with busy := false, done := true, err := code, completed := s.timing :: s.completed }

/-- A command succeeds: completion with code 0 (R43, R128). -/
def State.succeed (s : State) : Host.Outcome State Fault Refusal := .next (s.complete 0)

/-- `raise E` (R16): taking an exception on this engine. No register, C, BUF or BUFLEN is written; the
whole of the entry is the completion with the error's code (R129, R134). -/
def State.raise (s : State) (e : ErrKind) : Host.Outcome State Fault Refusal :=
  .next (s.complete e.code)

/-- The return of R135: the host acknowledges, `DONE <- 0; ERR <- 0`. -/
def State.acknowledge (s : State) : State := { s with done := false, err := 0 }

/-- The acceptance of a command word: `CMDL <- w; BUSY <- 1; DONE <- 0; ERR <- 0` (R41). -/
def State.accept (s : State) (w : Word) : State :=
  { s with cmdl := w, busy := true, done := false, err := 0 }

end Sys2Proof.Machine
end

