-- ==== Sys2Proof/Machine/Operands.lean ====
section
/-! DEFINITION. The operand forms that are more than a register: the true value of an N register, the
big-endian number at the front of BUF, and the constants an IMM selects (spec/10_state.md R22,
spec/40_prime_field.md R85, spec/41_order_field.md R96). -/

namespace Sys2Proof.Machine

/-- `unmont_n(N[i])`, the true value of an N register: the scalar of PMUL and PBMUL, the operand of NINV
and NST (R22, R89). -/
def State.nTrue (s : State) (i : Reg) : Nat := unmontN (s.nReg i)

/-- `unmont_p(F[i])`, the true value of an F register (R21). -/
def State.fTrue (s : State) (i : Reg) : Nat := unmontP (s.fReg i)

/-- `be(MemRead(off, 32))`: a 32-byte big-endian number in BUF (R15, R49). -/
def State.bufNat (s : State) (off : Nat) : Nat := beNat (s.memRead off 32)

/-- FCONST[k] (R85). The selectors 0–7 are legal; another is never read (R66). -/
def fConst : Nat → Nat
  | 0 => 0
  | 1 => rModP
  | 2 => r2ModP
  | 3 => 0x240FE188BA20E2C8527981505EA51C3C71CF379AE9B537AB90D230632BC0DD42
  | 4 => 0xFFFFFFFBFFFFFFFFFFFFFFFFFFFFFFFFFFFFFFFC00000003FFFFFFFFFFFFFFFC
  | 5 => 0x91167A5EE1C13B05D6A1ED99AC24C3C33E7981EDDCA6C05061328990F418029E
  | 6 => 0x63CD65D481D735BD8D4CFB066E2A48F8C1F5E5788D3295FAC1354E593C2D0DDD
  | _ => 1

/-- NCONST[k] (R96). The selectors 0–3 are legal; another is never read (R66). -/
def nConst : Nat → Nat
  | 0 => 0
  | 1 => rModN
  | 2 => r2ModN
  | _ => 1

/-- The conditional operand of FNEGC: `c ? (p − v) mod p : v` (R79). -/
def negateIf (c : Bool) (v : Nat) : Nat := if c then negMod primeP v else v

/-- The conditional operand of PNEGC: `c ? −Q : Q` (R109). -/
def Point.negIf (c : Bool) (q : Point) : Point := if c then q.neg else q

/-- The select of FSEL and PSEL: `c ? a : b` (R80, R110). -/
def selectBy {α : Type} (c : Bool) (a b : α) : α := if c then a else b

end Sys2Proof.Machine
end

