-- ==== Sys2Proof/Machine/Flags.lean ====
section
/-! DEFINITION. Every computation of the condition flag C (spec/10_state.md R26). -/

namespace Sys2Proof.Machine

/-- FSQRT: the candidate `r` is a square root of `t`, `r·r mod p == t` (R78). -/
def flagRoot (t r : Nat) : Bool := mulMod primeP r r == t

/-- FEQ: the two 256-bit words are equal (R81). -/
def flagEqual (a b : Nat) : Bool := a == b

/-- FLTP: the buffer's value is below p (R88). -/
def flagBelowP (v : Nat) : Bool := decide (v < primeP)

/-- PISINF: the point is ∞ (R111). -/
def flagIsInfinity (q : Point) : Bool := q == .infinity

/-- PADD: `A != ∞ and B != ∞ and A == B` (R108). -/
def flagInputsEqual (a b : Point) : Bool :=
  !flagIsInfinity a && !flagIsInfinity b && a == b

/-- CSET: 0 clears, 1 sets, 2 inverts (R127); another selector is illegal and has no flag value. -/
def flagCset (k : Nat) (c : Bool) : Option Bool :=
  match k with
  | 0 => some false
  | 1 => some true
  | 2 => some (!c)
  | _ => none

end Sys2Proof.Machine
end

