-- ==== Sys2Proof/Machine/Control.lean ====
section
/-! DEFINITION. The control commands NOP and CSET (spec/45_control.md). -/

namespace Sys2Proof.Machine

/-- NOP: no write but the completion (R126). -/
def execNop (s : State) : Host.Outcome State Fault Refusal := s.succeed

/-- CSET #k: `C <- 0`, `1` or `1 − C`; only k = 2 reads C; k ≥ 3 is IllegalCommand (R127). -/
def execCset (k : BitVec 8) (s : State) : Host.Outcome State Fault Refusal :=
  match flagCset k.toNat s.cFlag with
  | some c => s.reading (if k.toNat = 2 then [.c] else []) (s.setC c).succeed
  | none => s.raise .illegalCommand

end Sys2Proof.Machine
end

