-- ==== Sys2Proof/Machine/OrderField.lean ====
section
/-! DEFINITION. The order-field commands (spec/41_order_field.md R90 to R99). None reads or writes C or
an F or P register (R89). -/

namespace Sys2Proof.Machine

/-- NADD: `N[RD] <- (N[RA] + N[RB]) mod n` (R90). -/
def execNadd (rd ra rb : Reg) (s : State) : Host.Outcome State Fault Refusal :=
  s.reading [.n ra, .n rb] (s.setN rd (addMod orderN (s.nReg ra) (s.nReg rb))).succeed

/-- NSUB: `N[RD] <- (N[RA] − N[RB]) mod n` (R91). -/
def execNsub (rd ra rb : Reg) (s : State) : Host.Outcome State Fault Refusal :=
  s.reading [.n ra, .n rb] (s.setN rd (subMod orderN (s.nReg ra) (s.nReg rb))).succeed

/-- NMUL: `N[RD] <- MontMul_n(N[RA], N[RB])` (R92). -/
def execNmul (rd ra rb : Reg) (s : State) : Host.Outcome State Fault Refusal :=
  s.reading [.n ra, .n rb] (s.setN rd (montMulN (s.nReg ra) (s.nReg rb))).succeed

/-- NSQR #k: k Montgomery squarings; k = 0 is IllegalCommand (R93). -/
def execNsqr (rd ra : Reg) (k : BitVec 8) (s : State) : Host.Outcome State Fault Refusal :=
  if k.toNat = 0 then s.raise .illegalCommand
  else s.reading [.n ra] (s.setN rd (montSqrN k.toNat (s.nReg ra))).succeed

/-- NINV: `t <- unmont_n(N[RA]); N[RD] <- mont_n(t^(n−2) mod n)`; zero gives zero, no error (R94). -/
def execNinv (rd ra : Reg) (s : State) : Host.Outcome State Fault Refusal :=
  s.reading [.n ra] (s.setN rd (montN (invMod orderN (s.nTrue ra)))).succeed

/-- NMOV: `N[RD] <- N[RA]` (R95). -/
def execNmov (rd ra : Reg) (s : State) : Host.Outcome State Fault Refusal :=
  s.reading [.n ra] (s.setN rd (s.nReg ra)).succeed

/-- NLDC #k: `N[RD] <- NCONST[k]`; k ≥ 4 is IllegalCommand (R96). -/
def execNldc (rd : Reg) (k : BitVec 8) (s : State) : Host.Outcome State Fault Refusal :=
  if k.toNat ≤ 3 then (s.setN rd (nConst k.toNat)).succeed else s.raise .illegalCommand

/-- NLD: InvalidScalarLengthError when BUFLEN ≠ 32, else `N[RD] <- mont_n(v mod n)`; a value at or
above n is reduced, not rejected (R97). -/
def execNld (rd : Reg) (s : State) : Host.Outcome State Fault Refusal :=
  if s.bufLen ≠ 32 then s.raise .invalidScalarLength
  else (s.setN rd (montN (s.bufNat 0 % orderN))).succeed

/-- NST: `MemWrite(0, 32, be32(unmont_n(N[RA]))); BUFLEN <- 32` (R98). -/
def execNst (ra : Reg) (s : State) : Host.Outcome State Fault Refusal :=
  s.reading [.n ra] (s.output (be32 (s.nTrue ra))).succeed

/-- IMPSIG: `N[RD] <- (MontMul_n(N[RB], N[RC]) + N[RA]) mod n` with RA = s, RB = e, RC = t (R99). -/
def execImpsig (rd ra rb rc : Reg) (s : State) : Host.Outcome State Fault Refusal :=
  s.reading [.n ra, .n rb, .n rc] (s.setN rd
    (addMod orderN (montMulN (s.nReg rb) (s.nReg rc)) (s.nReg ra))).succeed

end Sys2Proof.Machine
end

