-- ==== Sys2Proof/Machine/PointArith.lean ====
section
/-! DEFINITION. The point commands (spec/42_point.md R104 to R111), each stated by the point it writes
(R100); the Jacobian datapath that computes such a point stands in Machine/Jacobian.lean. -/

namespace Sys2Proof.Machine

/-- PINF: `P[RD] <- ∞` (R104). -/
def execPinf (rd : Reg) (s : State) : Host.Outcome State Fault Refusal :=
  (s.setP rd .infinity).succeed

/-- PGEN: `P[RD] <- G` (R105). -/
def execPgen (rd : Reg) (s : State) : Host.Outcome State Fault Refusal :=
  (s.setP rd Point.generator).succeed

/-- PMOV: `P[RD] <- P[RA]` (R106). -/
def execPmov (rd ra : Reg) (s : State) : Host.Outcome State Fault Refusal :=
  s.reading [.p ra] (s.setP rd (s.pReg ra)).succeed

/-- PDBL: `P[RD] <- P[RA] + P[RA]`; C unchanged (R107). -/
def execPdbl (rd ra : Reg) (s : State) : Host.Outcome State Fault Refusal :=
  s.reading [.p ra] (s.setP rd (Point.double (s.pReg ra))).succeed

/-- PADD: `P[RD] <- A + B; C <- (A != ∞ and B != ∞ and A == B)` (R108). -/
def execPadd (rd ra rb : Reg) (s : State) : Host.Outcome State Fault Refusal :=
  let a := s.pReg ra
  let b := s.pReg rb
  s.reading [.p ra, .p rb] ((s.setP rd (Point.add a b)).setC (flagInputsEqual a b)).succeed

/-- PNEGC: `P[RD] <- (C == 1) ? −P[RA] : P[RA]` (R109). -/
def execPnegc (rd ra : Reg) (s : State) : Host.Outcome State Fault Refusal :=
  s.reading [.p ra, .c] (s.setP rd (Point.negIf s.cFlag (s.pReg ra))).succeed

/-- PSEL: `P[RD] <- (C == 1) ? P[RA] : P[RB]` (R110). -/
def execPsel (rd ra rb : Reg) (s : State) : Host.Outcome State Fault Refusal :=
  s.reading [.p ra, .p rb, .c] (s.setP rd (selectBy s.cFlag (s.pReg ra) (s.pReg rb))).succeed

/-- PISINF: `C <- (P[RA] == ∞) ? 1 : 0` (R111). -/
def execPisinf (ra : Reg) (s : State) : Host.Outcome State Fault Refusal :=
  s.reading [.p ra] (s.setC (flagIsInfinity (s.pReg ra))).succeed

end Sys2Proof.Machine
end

