-- ==== Sys2Proof/Machine/PointCodec.lean ====
section
/-! DEFINITION. The SEC1 point encoder and decoder (spec/44_point_codec.md R121 to R125). -/

namespace Sys2Proof.Machine

/-- The affine coordinates of a finite point; ∞ has none. -/
def Point.coords : Point → Option (Nat × Nat)
  | .infinity => none
  | .affine x y => some (x.toNat, y.toNat)

/-- The root of a compressed encoding: `(r mod 2 == tag mod 2) ? r : (p − r) mod p` (R122). -/
def rootOfParity (r : Nat) (tag : Byte) : Nat :=
  if r % 2 = tag.toNat % 2 then r else negMod primeP r

/-- The decoder of R122 on BUF and BUFLEN: the length and tag dispatch, then the range of the
coordinates, then the curve equation or the square root (R133). -/
def State.decodePoint (s : State) : Except ErrKind Point :=
  if s.bufLen = 1 ∧ s.bufByte 0 = 0x00 then .ok .infinity
  else if s.bufLen = 65 ∧ s.bufByte 0 = 0x04 then
    let x := s.bufNat 1
    let y := s.bufNat 33
    if x ≥ primeP ∨ y ≥ primeP then .error .decodeError
    else if subMod primeP (y * y) (curveRhs x) ≠ 0 then .error .notOnCurve
    else .ok (Point.ofNat x y)
  else if s.bufLen = 33 ∧ (s.bufByte 0 = 0x02 ∨ s.bufByte 0 = 0x03) then
    let x := s.bufNat 1
    if x ≥ primeP then .error .decodeError
    else
      let r := sqrtCandidate (curveRhs x)
      if subMod primeP (r * r) (curveRhs x) ≠ 0 then .error .noSquareRoot
      else .ok (Point.ofNat x (rootOfParity r (s.bufByte 0)))
  else .error .decodeError

/-- The uncompressed form: `00` for ∞, else `04 ‖ be32(x) ‖ be32(y)` (R121, R123). -/
def Point.uncompressed (q : Point) : List Byte :=
  match q.coords with
  | none => [0x00]
  | some (x, y) => 0x04 :: (be32 x ++ be32 y)

/-- The tag of the compressed form: `02 | (y mod 2)` (R121). -/
def parityTag (y : Nat) : Byte := 0x02 ||| BitVec.ofNat 8 (y % 2)

/-- The compressed form: `00` for ∞, else `T ‖ be32(x)` (R121, R124). -/
def Point.compressed (q : Point) : List Byte :=
  match q.coords with
  | none => [0x00]
  | some (x, y) => parityTag y :: be32 x

/-- PDEC: decode and validate a point; on an error P[RD] keeps its value (R122). -/
def execPdec (rd : Reg) (s : State) : Host.Outcome State Fault Refusal :=
  match s.decodePoint with
  | .ok q => (s.setP rd q).succeed
  | .error e => s.raise e

/-- PENC: the uncompressed encoding to BUF, BUFLEN 65, or 1 for ∞ (R123). -/
def execPenc (ra : Reg) (s : State) : Host.Outcome State Fault Refusal :=
  s.reading [.p ra] (s.output (s.pReg ra).uncompressed).succeed

/-- PENCC: the compressed encoding to BUF, BUFLEN 33, or 1 for ∞ (R124). -/
def execPencc (ra : Reg) (s : State) : Host.Outcome State Fault Refusal :=
  s.reading [.p ra] (s.output (s.pReg ra).compressed).succeed

/-- PENCX: the 32-byte x-coordinate to BUF, BUFLEN 32; InfinityOperandError for ∞ (R125). -/
def execPencx (ra : Reg) (s : State) : Host.Outcome State Fault Refusal :=
  s.reading [.p ra]
    (match (s.pReg ra).coords with
      | none => s.raise .infinityOperand
      | some (x, _) => (s.output (be32 x)).succeed)

end Sys2Proof.Machine
end

