-- ==== Sys2Proof/Machine/PrimeField.lean ====
section
/-! DEFINITION. The prime-field commands (spec/40_prime_field.md R73 to R88). Each reads all its sources
before it writes (R14), and completes with code 0 unless its rule raises an error. -/

namespace Sys2Proof.Machine

/-- FADD: `F[RD] <- (F[RA] + F[RB]) mod p` (R73). -/
def execFadd (rd ra rb : Reg) (s : State) : Host.Outcome State Fault Refusal :=
  s.reading [.f ra, .f rb] (s.setF rd (addMod primeP (s.fReg ra) (s.fReg rb))).succeed

/-- FSUB: `F[RD] <- (F[RA] − F[RB]) mod p` (R74). -/
def execFsub (rd ra rb : Reg) (s : State) : Host.Outcome State Fault Refusal :=
  s.reading [.f ra, .f rb] (s.setF rd (subMod primeP (s.fReg ra) (s.fReg rb))).succeed

/-- FMUL: `F[RD] <- MontMul_p(F[RA], F[RB])` (R75). -/
def execFmul (rd ra rb : Reg) (s : State) : Host.Outcome State Fault Refusal :=
  s.reading [.f ra, .f rb] (s.setF rd (montMulP (s.fReg ra) (s.fReg rb))).succeed

/-- FSQR #k: k Montgomery squarings; k = 0 is IllegalCommand (R76). -/
def execFsqr (rd ra : Reg) (k : BitVec 8) (s : State) : Host.Outcome State Fault Refusal :=
  if k.toNat = 0 then s.raise .illegalCommand
  else s.reading [.f ra] (s.setF rd (montSqrP k.toNat (s.fReg ra))).succeed

/-- FINV: `t <- unmont_p(F[RA]); F[RD] <- mont_p(t^(p−2) mod p)`; zero gives zero, no error (R77). -/
def execFinv (rd ra : Reg) (s : State) : Host.Outcome State Fault Refusal :=
  s.reading [.f ra] (s.setF rd (montP (invMod primeP (s.fTrue ra)))).succeed

/-- FSQRT: the candidate is written in either case, C tells whether it is a root (R78). -/
def execFsqrt (rd ra : Reg) (s : State) : Host.Outcome State Fault Refusal :=
  let t := s.fTrue ra
  let r := sqrtCandidate t
  s.reading [.f ra] ((s.setF rd (montP r)).setC (flagRoot t r)).succeed

/-- FNEGC: `F[RD] <- (C == 1) ? ((p − F[RA]) mod p) : F[RA]` (R79). -/
def execFnegc (rd ra : Reg) (s : State) : Host.Outcome State Fault Refusal :=
  s.reading [.f ra, .c] (s.setF rd (negateIf s.cFlag (s.fReg ra))).succeed

/-- FSEL: `F[RD] <- (C == 1) ? F[RA] : F[RB]` (R80). -/
def execFsel (rd ra rb : Reg) (s : State) : Host.Outcome State Fault Refusal :=
  s.reading [.f ra, .f rb, .c] (s.setF rd (selectBy s.cFlag (s.fReg ra) (s.fReg rb))).succeed

/-- FEQ: `C <- (F[RA] == F[RB]) ? 1 : 0` (R81). -/
def execFeq (ra rb : Reg) (s : State) : Host.Outcome State Fault Refusal :=
  s.reading [.f ra, .f rb] (s.setC (flagEqual (s.fReg ra) (s.fReg rb))).succeed

/-- FTOM: `F[RD] <- MontMul_p(F[RA], R² mod p)` (R82). -/
def execFtom (rd ra : Reg) (s : State) : Host.Outcome State Fault Refusal :=
  s.reading [.f ra] (s.setF rd (montMulP (s.fReg ra) r2ModP)).succeed

/-- FFROMM: `F[RD] <- MontMul_p(F[RA], 1)` (R83). -/
def execFfromm (rd ra : Reg) (s : State) : Host.Outcome State Fault Refusal :=
  s.reading [.f ra] (s.setF rd (montMulP (s.fReg ra) 1)).succeed

/-- FMOV: `F[RD] <- F[RA]` (R84). -/
def execFmov (rd ra : Reg) (s : State) : Host.Outcome State Fault Refusal :=
  s.reading [.f ra] (s.setF rd (s.fReg ra)).succeed

/-- FLDC #k: `F[RD] <- FCONST[k]`; k ≥ 8 is IllegalCommand (R85). -/
def execFldc (rd : Reg) (k : BitVec 8) (s : State) : Host.Outcome State Fault Refusal :=
  if k.toNat ≤ 7 then (s.setF rd (fConst k.toNat)).succeed else s.raise .illegalCommand

/-- FLD: DecodeError when BUFLEN ≠ 32 or the value is not below p, else `F[RD] <- v` (R86). -/
def execFld (rd : Reg) (s : State) : Host.Outcome State Fault Refusal :=
  if s.bufLen ≠ 32 then s.raise .decodeError
  else if s.bufNat 0 < primeP then (s.setF rd (s.bufNat 0)).succeed
  else s.raise .decodeError

/-- FST: `MemWrite(0, 32, be32(F[RA])); BUFLEN <- 32` (R87). -/
def execFst (ra : Reg) (s : State) : Host.Outcome State Fault Refusal :=
  s.reading [.f ra] (s.output (be32 (s.fReg ra))).succeed

/-- FLTP: DecodeError when BUFLEN ≠ 32, else `C <- (v < p) ? 1 : 0` (R88). -/
def execFltp (s : State) : Host.Outcome State Fault Refusal :=
  if s.bufLen ≠ 32 then s.raise .decodeError
  else (s.setC (flagBelowP (s.bufNat 0))).succeed

end Sys2Proof.Machine
end

