-- ==== Sys2Proof/Machine/Jacobian.lean ====
section
/-! DEFINITION. The point datapath on Jacobian triples (spec/42_point.md R101 to R103): the doubler,
the general adder with its equality flag, the mixed adder, and the complete adder made of them by
selection. Coordinates are true values; by R24 no triple is architectural. -/

namespace Sys2Proof.Machine

/-- A Jacobian triple standing for (X/Z², Y/Z³), or for ∞ when Z = 0 (R23). -/
structure Jac where
  x : Nat
  y : Nat
  z : Nat
  deriving DecidableEq, Repr

/-- `isinf(T) = (Z of T == 0)` (R103). -/
def Jac.isInf (t : Jac) : Bool := t.z == 0

/-- The triple of ∞: (1, 1, 0) in true values (R25). -/
def Jac.infinity : Jac := ⟨1, 1, 0⟩

/-- A triple of a point: Z = 1 for a finite one. -/
def Jac.ofPoint : Point → Jac
  | .infinity => Jac.infinity
  | .affine x y => ⟨x.toNat, y.toNat, 1⟩

/-- The point a triple represents: ∞ when Z = 0, otherwise (X/Z², Y/Z³) (R23). -/
def Jac.toPoint (t : Jac) : Point :=
  if t.isInf then .infinity
  else
    let zi := invMod primeP t.z
    let zi2 := mulMod primeP zi zi
    Point.ofNat (mulMod primeP t.x zi2) (mulMod primeP t.y (mulMod primeP zi2 zi))

/-- The negation of a triple: Y negated mod p (R109, R115). -/
def Jac.neg (t : Jac) : Jac := ⟨t.x, negMod primeP t.y, t.z⟩

/-- The doubler, with a = −3 (R101). -/
def Jac.double (t : Jac) : Jac :=
  let mul := mulMod primeP
  let sub := subMod primeP
  let delta := mul t.z t.z
  let gamma := mul t.y t.y
  let beta := mul t.x gamma
  let alpha := mul 3 (mul (sub t.x delta) (addMod primeP t.x delta))
  let x3 := sub (mul alpha alpha) (mul 8 beta)
  let yz := addMod primeP t.y t.z
  let z3 := sub (sub (mul yz yz) gamma) delta
  let y3 := sub (mul alpha (sub (mul 4 beta) x3)) (mul 8 (mul gamma gamma))
  ⟨x3, y3, z3⟩

/-- The general adder and its flag "inputs were equal" (R102). -/
def Jac.generalAdd (a b : Jac) : Jac × Bool :=
  let mul := mulMod primeP
  let sub := subMod primeP
  let z1z1 := mul a.z a.z
  let z2z2 := mul b.z b.z
  let u1 := mul a.x z2z2
  let u2 := mul b.x z1z1
  let s1 := mul (mul a.y b.z) z2z2
  let s2 := mul (mul b.y a.z) z1z1
  let h := sub u2 u1
  let h2 := mul 2 h
  let i := mul h2 h2
  let j := mul h i
  let r := mul 2 (sub s2 s1)
  let v := mul u1 i
  let x3 := sub (sub (mul r r) j) (mul 2 v)
  let y3 := sub (mul r (sub v x3)) (mul 2 (mul s1 j))
  let zz := addMod primeP a.z b.z
  let z3 := mul (sub (sub (mul zz zz) z1z1) z2z2) h
  (⟨x3, y3, z3⟩, h == 0 && r == 0)

/-- The mixed adder: the general adder with Z2 = 1 (R102), and the same equality flag. -/
def Jac.mixedAdd (a : Jac) (x2 y2 : Nat) : Jac × Bool :=
  let mul := mulMod primeP
  let sub := subMod primeP
  let z1z1 := mul a.z a.z
  let u2 := mul x2 z1z1
  let s2 := mul (mul y2 a.z) z1z1
  let h := sub u2 a.x
  let hh := mul h h
  let i := mul 4 hh
  let j := mul h i
  let r := mul 2 (sub s2 a.y)
  let v := mul a.x i
  let x3 := sub (sub (mul r r) j) (mul 2 v)
  let y3 := sub (mul r (sub v x3)) (mul 2 (mul a.y j))
  let zh := addMod primeP a.z h
  let z3 := sub (sub (mul zh zh) z1z1) hh
  (⟨x3, y3, z3⟩, h == 0 && r == 0)

/-- The selects of the complete adder (R103): doubling where the flag fired, then the other operand
where one is ∞. `s` and `eq` are an adder's sum and flag for `a` and `b`. -/
def Jac.selectSum (a b s : Jac) (eq : Bool) : Jac :=
  let t := if eq then Jac.double a else s
  let t := if a.isInf then b else t
  if b.isInf then a else t

/-- The complete adder over the general adder (R103), with the general adder's flag. -/
def Jac.completeAdd (a b : Jac) : Jac × Bool :=
  let (s, eq) := Jac.generalAdd a b
  (Jac.selectSum a b s eq, eq)

/-- The complete adder over the mixed adder, for an affine table entry or ∞ (R102, R118). -/
def Jac.completeMixedAdd (a : Jac) : Point → Jac
  | .infinity => a
  | .affine x y =>
    let (s, eq) := Jac.mixedAdd a x.toNat y.toNat
    Jac.selectSum a (Jac.ofPoint (.affine x y)) s eq

end Sys2Proof.Machine
end

