-- ==== Sys2Proof/Machine/Windowed.lean ====
section
/-! DEFINITION. The windowed scalar-multiplication datapath (spec/43_scalar_mult.md R112 to R118): the
Booth recoder, the windows of a scalar, the variable-base table, the generator ROM GT, the linear-scan
lookup and the two algorithms. -/

namespace Sys2Proof.Machine

/-- The Booth recoder: a 7-bit input to a magnitude in [0, 32] and a sign (R112). -/
def boothW6 (v : Nat) : Nat × Bool :=
  let s := v / 64 % 2 == 1
  let d := if s then 127 - v else v
  (d / 2 + d % 2, s)

/-- The signed digit D(v) a 7-bit input stands for (R112). -/
def boothDigit (v : Nat) : Int :=
  let (m, s) := boothW6 v
  if s then -(m : Int) else (m : Int)

/-- `bit(k, i − 1)`: bit −1 and the bits from 256 on are 0 (R113). -/
def scalarBitBelow (k : Nat) : Nat → Nat
  | 0 => 0
  | i + 1 => if i ≤ 255 then k / 2 ^ i % 2 else 0

/-- Window j of a scalar: `v_j = Σ_{t=0..6} bit(k, 6j − 1 + t) · 2^t` (R113). -/
def windowOf (k j : Nat) : Nat :=
  ((List.range 7).map fun t => scalarBitBelow k (6 * j + t) * 2 ^ t).sum

/-- The table of a base point with `rows` further entries after the first: entry i holds [i+1]B; an
entry of even multiple doubles the half entry, an odd one adds B to the entry before (R114). -/
def varTableRows (b : Jac) : Nat → List Jac
  | 0 => [b]
  | i + 1 =>
    let t := varTableRows b i
    let multiple := i + 2
    t ++ [if multiple % 2 = 0 then Jac.double (t.getD (multiple / 2 - 1) Jac.infinity)
          else (Jac.completeAdd (t.getD i Jac.infinity) b).1]

/-- The variable-base lookup table: 32 multiples of B (R114). -/
def varTable (b : Jac) : List Jac := varTableRows b 31

/-- The linear-scan lookup: the accumulator starts as `zero` (∞) and takes the entry whose index is
m − 1; every entry is read (R115). -/
def tableLookup {α : Type} (zero : α) (table : List α) (m : Nat) : α :=
  (table.zipIdx).foldl (fun acc e => if e.2 + 1 = m then e.1 else acc) zero

/-- Look a digit up in a table of triples and negate it when the sign is 1 (R115). -/
def lookupSigned (table : List Jac) (v : Nat) : Jac :=
  let (m, s) := boothW6 v
  let e := tableLookup Jac.infinity table m
  if s then e.neg else e

/-- `Double` applied `k` times. -/
def Jac.doubleTimes (k : Nat) (t : Jac) : Jac := applyTimes Jac.double k t

/-- The loop of VarMult over windows j − 1 down to 0: six doublings, then the window's entry (R117). -/
def varMultLoop (table : List Jac) (k : Nat) : Nat → Jac → Jac
  | 0, acc => acc
  | j + 1, acc =>
    varMultLoop table k j
      (Jac.completeAdd (Jac.doubleTimes 6 acc) (lookupSigned table (windowOf k j))).1

/-- The variable-base algorithm `VarMult(B, k)` over windows 42 … 0 (R117). -/
def varMult (b : Jac) (k : Nat) : Jac := varMultLoop (varTable b) k 43 Jac.infinity

/-- The first entry of sub-table j of GT: [2^(6j)]G (R116). -/
def gtBase : Nat → Point
  | 0 => Point.generator
  | j + 1 => (Jac.doubleTimes 6 (Jac.ofPoint (gtBase j))).toPoint

/-- Sub-table j of the generator ROM GT: the affine points [(i+1)·2^(6j)]G for i = 0 … 31, j = 0 … 42
(R32, R116), given by what they are: whether GT is stored or computed is not observable. -/
def gtTable (j : Nat) : List Point := (varTable (Jac.ofPoint (gtBase j))).map Jac.toPoint

/-- The signed affine entry (or ∞) of window value `v` in sub-table j (R115, R118). -/
def gtLookupSigned (j v : Nat) : Point :=
  let (m, s) := boothW6 v
  let e := tableLookup .infinity (gtTable j) m
  if s then e.neg else e

/-- The additions of BaseMult for windows 1 … `count` (R118). -/
def baseMultLoop (k : Nat) : Nat → Jac
  | 0 => Jac.ofPoint (gtLookupSigned 0 (windowOf k 0))
  | j + 1 => Jac.completeMixedAdd (baseMultLoop k j) (gtLookupSigned (j + 1) (windowOf k (j + 1)))

/-- The fixed-base algorithm `BaseMult(k)`: window 0 loaded, 42 additions (R118). -/
def baseMult (k : Nat) : Jac := baseMultLoop k 42

end Sys2Proof.Machine
end

