-- ==== Sys2Proof/Machine/ScalarMult.lean ====
section
/-! DEFINITION. The scalar-multiplication commands (spec/43_scalar_mult.md R119, R120), computed by the
windowed datapath of Machine/Windowed.lean. The scalar is the true value of an N register. -/

namespace Sys2Proof.Machine

/-- PMUL: `B <- P[RA]; k <- unmont_n(N[RB]); P[RD] <- [k]B`, by the algorithm of R117 (R119). -/
def execPmul (rd ra rb : Reg) (s : State) : Host.Outcome State Fault Refusal :=
  s.reading [.p ra, .n rb] (s.setP rd
    (varMult (Jac.ofPoint (s.pReg ra)) (s.nTrue rb)).toPoint).succeed

/-- PBMUL: `k <- unmont_n(N[RA]); P[RD] <- [k]G`, by the algorithm of R118 from GT (R120). -/
def execPbmul (rd ra : Reg) (s : State) : Host.Outcome State Fault Refusal :=
  s.reading [.n ra] (s.setP rd (baseMult (s.nTrue ra)).toPoint).succeed

end Sys2Proof.Machine
end

