-- ==== Sys2Proof/Machine/Dispatch.lean ====
section
/-! DEFINITION. The dispatch of a command to its meaning, one arm per row of spec/opcode_table.json. -/

namespace Sys2Proof.Machine

def exec (i : Instr) (s : State) : Host.Outcome State Fault Refusal :=
  match i with
  | .nop => Sys2Proof.Machine.execNop s
  | .cset k => Sys2Proof.Machine.execCset k s
  | .fadd rd ra rb => Sys2Proof.Machine.execFadd rd ra rb s
  | .fsub rd ra rb => Sys2Proof.Machine.execFsub rd ra rb s
  | .fmul rd ra rb => Sys2Proof.Machine.execFmul rd ra rb s
  | .fsqr rd ra k => Sys2Proof.Machine.execFsqr rd ra k s
  | .finv rd ra => Sys2Proof.Machine.execFinv rd ra s
  | .fsqrt rd ra => Sys2Proof.Machine.execFsqrt rd ra s
  | .fnegc rd ra => Sys2Proof.Machine.execFnegc rd ra s
  | .fsel rd ra rb => Sys2Proof.Machine.execFsel rd ra rb s
  | .feq ra rb => Sys2Proof.Machine.execFeq ra rb s
  | .ftom rd ra => Sys2Proof.Machine.execFtom rd ra s
  | .ffromm rd ra => Sys2Proof.Machine.execFfromm rd ra s
  | .fmov rd ra => Sys2Proof.Machine.execFmov rd ra s
  | .fldc rd k => Sys2Proof.Machine.execFldc rd k s
  | .fld rd => Sys2Proof.Machine.execFld rd s
  | .fst ra => Sys2Proof.Machine.execFst ra s
  | .fltp => Sys2Proof.Machine.execFltp s
  | .nadd rd ra rb => Sys2Proof.Machine.execNadd rd ra rb s
  | .nsub rd ra rb => Sys2Proof.Machine.execNsub rd ra rb s
  | .nmul rd ra rb => Sys2Proof.Machine.execNmul rd ra rb s
  | .nsqr rd ra k => Sys2Proof.Machine.execNsqr rd ra k s
  | .ninv rd ra => Sys2Proof.Machine.execNinv rd ra s
  | .nmov rd ra => Sys2Proof.Machine.execNmov rd ra s
  | .nldc rd k => Sys2Proof.Machine.execNldc rd k s
  | .nld rd => Sys2Proof.Machine.execNld rd s
  | .nst ra => Sys2Proof.Machine.execNst ra s
  | .impsig rd ra rb rc => Sys2Proof.Machine.execImpsig rd ra rb rc s
  | .pinf rd => Sys2Proof.Machine.execPinf rd s
  | .pgen rd => Sys2Proof.Machine.execPgen rd s
  | .pmov rd ra => Sys2Proof.Machine.execPmov rd ra s
  | .pdbl rd ra => Sys2Proof.Machine.execPdbl rd ra s
  | .padd rd ra rb => Sys2Proof.Machine.execPadd rd ra rb s
  | .pnegc rd ra => Sys2Proof.Machine.execPnegc rd ra s
  | .psel rd ra rb => Sys2Proof.Machine.execPsel rd ra rb s
  | .pisinf ra => Sys2Proof.Machine.execPisinf ra s
  | .pmul rd ra rb => Sys2Proof.Machine.execPmul rd ra rb s
  | .pbmul rd ra => Sys2Proof.Machine.execPbmul rd ra s
  | .pdec rd => Sys2Proof.Machine.execPdec rd s
  | .penc ra => Sys2Proof.Machine.execPenc ra s
  | .pencc ra => Sys2Proof.Machine.execPencc ra s
  | .pencx ra => Sys2Proof.Machine.execPencx ra s

end Sys2Proof.Machine
end

