-- ==== Sys2Proof/Machine/HostPort.lean ====
section
/-! DEFINITION. The host window (spec/20_memory.md R37 to R53): which access the port carries, what a
read of each offset returns and what a write does, and the reset signal (spec/70_reset_and_hazards.md
R144, R145). -/

namespace Sys2Proof.Machine

/-- What a word offset of the window names (R37). -/
inductive WindowReg where
  | id | cmd | status | bufLen
  | bufW (i : Nat)
  | reserved
  deriving DecidableEq, Repr

/-- The host window map (R37). -/
def windowReg (off : Nat) : WindowReg :=
  if off = 0x00 then .id
  else if off = 0x04 then .cmd
  else if off = 0x08 then .status
  else if off = 0x0C then .bufLen
  else if 0x40 ≤ off ∧ off ≤ 0x80 then .bufW ((off - 0x40) / 4)
  else .reserved

/-- ENGINE_BASE, the platform parameter the model takes as an argument (R53). It is aligned to 0x100, so
it is given by the number of its 0x100-byte page. -/
structure EngineBase where
  page : Nat
  deriving DecidableEq, Repr

/-- The address ENGINE_BASE (R53). -/
def EngineBase.address (base : EngineBase) : Nat := 0x100 * base.page

/-- The offset in the window of a platform address (R53); an address outside the window has none. -/
def windowOffset (base : EngineBase) (address : Nat) : Option Nat :=
  if base.address ≤ address ∧ address < base.address + 0x100 then some (address - base.address)
  else none

/-- The offset by which a platform address is presented to the port. An address outside the window is
presented as an offset outside it, which the port refuses (R38; log entry 9). -/
def portOffset (base : EngineBase) (address : Nat) : Nat := (windowOffset base address).getD 0x100

/-- An access of the host at a platform address, or another event of the platform (R53). -/
inductive BusEvent where
  | wait
  | read (width address : Nat)
  | write (width address : Nat) (data : Word)
  | assertReset
  | releaseReset
  deriving DecidableEq, Repr

/-- The event at the port of an engine whose window begins at ENGINE_BASE (R53). -/
def busToPort (base : EngineBase) : BusEvent → HostEvent
  | .wait => .wait
  | .read width address => .read width (portOffset base address)
  | .write width address data => .write width (portOffset base address) data
  | .assertReset => .assertReset
  | .releaseReset => .releaseReset

/-- Why the port does not carry an access, if it does not (R38, R145). -/
def State.portRefusal (s : State) (width off : Nat) : Option Refusal :=
  if s.inReset then some .accessDuringReset
  else if width ≠ 4 then some .subWordAccess
  else if off % 4 ≠ 0 then some .misalignedAccess
  else if off > 0xFC then some .outsideWindow
  else none

/-- The STATUS word with `c` in bit 2 (R44). -/
def State.statusWord (s : State) (c : Bool) : Word :=
  BitVec.ofNat 32 (s.busy.toNat + s.done.toNat * 2 + c.toNat * 4 + s.ovr.toNat * 8 + s.err.toNat * 16)

/-- A free value has been drawn. -/
def State.drawn (s : State) : State := { s with draws := s.draws + 1 }

/-- A read of STATUS: bit 2 is C when BUSY = 0 and C has been written since reset, else a free bit
(R44). -/
def State.readStatus (s : State) : Word × State :=
  if !s.busy && s.isWritten .c then (s.statusWord s.cFlag, s)
  else (s.statusWord (Config.freeBit s.draws), s.drawn)

/-- The word BUFWi: bytes BUF[4i] to BUF[4i+3], the first in the low byte, 0 where BUF has no byte
(R46, R47). -/
def State.bufWord (s : State) (i : Nat) : Word :=
  BitVec.ofNat 32 ((s.bufByte (4 * i)).toNat + (s.bufByte (4 * i + 1)).toNat * 0x100
    + (s.bufByte (4 * i + 2)).toNat * 0x10000 + (s.bufByte (4 * i + 3)).toNat * 0x1000000)

/-- The four bytes of a word, the low byte first (R46). -/
def wordBytes (w : Word) : List Byte :=
  [BitVec.ofNat 8 w.toNat, BitVec.ofNat 8 (w.toNat / 0x100), BitVec.ofNat 8 (w.toNat / 0x10000),
    BitVec.ofNat 8 (w.toNat / 0x1000000)]

/-- What a read that the engine answers only while idle returns: `w`, or a free word while BUSY = 1
(R45, R47, R48). -/
def State.readIdle (s : State) (w : Word) : Word × State :=
  if s.busy then (Config.freeWord s.draws, s.drawn) else (w, s)

/-- A host read of a window offset: the word returned and the state after it; no read has a side effect
on the engine (R37 to R48, R52). -/
def State.hostRead (s : State) (off : Nat) : Word × State :=
  match windowReg off with
  | .id => (idValue, s)
  | .cmd => (0, s)
  | .status => s.readStatus
  | .bufLen => s.readIdle (BitVec.ofNat 32 s.bufLen)
  | .bufW i => s.readIdle (s.bufWord i)
  | .reserved => (0, s)

/-- A write that is dropped because BUSY = 1: `OVR <- 1` and nothing else (R42, R48). -/
def State.overrun (s : State) : State := { s with ovr := true }

/-- `OVR <- 0` (R44). -/
def State.clearOvr (s : State) : State := { s with ovr := false }

/-- A write of w to STATUS, in any state: bit 1 acknowledges, bit 3 clears OVR (R44, R135). -/
def State.writeStatus (s : State) (w : Word) : State :=
  let s := if w.getLsbD 1 then s.acknowledge else s
  if w.getLsbD 3 then s.clearOvr else s

/-- A host write of a window offset (R37 to R48). -/
def State.hostWrite (s : State) (off : Nat) (w : Word) : State :=
  match windowReg off with
  | .id => s
  | .cmd => if s.busy then s.overrun else s.accept w
  | .status => s.writeStatus w
  | .bufLen =>
    if s.busy then s.overrun else if w.toNat ≤ 65 then s.setBufLen w.toNat else s
  | .bufW i => if s.busy then s.overrun else s.memWrite (4 * i) (wordBytes w)
  | .reserved => s

/-- A read's reply reaches the host (R51). -/
def State.reply (s : State) (w : Word) : State := { s with replies := w :: s.replies }

/-- Reset is asserted: control, status and data state take their reset values, whether or not a command
runs, and the host port is closed (R144, R145). What is not the engine's stays: the host's coming
events and the replies it has had, the count of free values, the list of completed commands, and the
ReadUninit record, which is never cleared (R132). -/
def State.assertReset (s : State) : State :=
  { State.reset with
    inReset := true
    inbox := s.inbox
    replies := s.replies
    draws := s.draws
    uninit := s.uninit
    completed := s.completed }

/-- Reset is released: the engine is idle and accepts accesses at once (R146). -/
def State.releaseReset (s : State) : State := { s with inReset := false }

end Sys2Proof.Machine
end

