-- ==== Sys2Proof/Machine/Engine.lean ====
section
/-! DEFINITION. The engine's step and the effect of a host event (spec/10_state.md R19,
spec/20_memory.md R54, spec/60_exceptions.md R133). -/

namespace Sys2Proof.Machine

/-- The engine executes the word in CMDL: a legal word's command, or IllegalCommand, found before any
operand is read (R66, R133). -/
def State.runWord (s : State) : Host.Outcome State Fault Refusal :=
  match decode s.cmdl with
  | .ok i => exec i s
  | .error _ => s.raise .illegalCommand

/-- The engine's step: the latched command while BUSY, nothing while idle (R19, R143, R146). -/
def State.engineStep (s : State) : Host.Outcome State Fault Refusal :=
  if s.busy then s.runWord else .next s

/-- A host access takes effect at one instant, if the port carries it (R38, R51, R54). -/
def State.onPort (s : State) (width off : Nat) (t : State) : Host.Outcome State Fault Refusal :=
  match s.portRefusal width off with
  | some r => .refused r
  | none => .next t

/-- The effect of one host event. While the host waits, the engine takes its step. -/
def State.hostEvent (s : State) : HostEvent → Host.Outcome State Fault Refusal
  | .wait => s.engineStep
  | .read width off => s.onPort width off ((s.hostRead off).2.reply (s.hostRead off).1)
  | .write width off data => s.onPort width off (s.hostWrite off data)
  | .assertReset => .next s.assertReset
  | .releaseReset => .next s.releaseReset

/-- Who moves next: the host's next event, in the order it issues them, or the engine when the host has
none (R54). -/
def State.move (s : State) : Host.Outcome State Fault Refusal :=
  match s.inbox with
  | [] => s.engineStep
  | ev :: rest => State.hostEvent { s with inbox := rest } ev

/-- A command word of which the low `nbits` bits are those of `w` and the rest zero, accepted as by an
idle engine (R41), with no host event before the engine's step. -/
def State.latchWord (s : State) (nbits w : Nat) : State :=
  State.accept { s with inbox := [] } (BitVec.ofNat 32 (w % 2 ^ nbits))

end Sys2Proof.Machine
end

