-- ==== Sys2Proof/Machine/Step.lean ====
section
/-! DEFINITION. One step of the machine, and the state in which the very next step runs a given command
word. -/

namespace Sys2Proof.Machine

/-- One step: the host's next event, or the engine's step when the host waits or has none. -/
def step (s : State) : Host.Outcome State Fault Refusal := s.move

/-- `s` with a command word latched in CMDL, where the engine takes its next command from (R30, R41; log
entry 8). -/
def State.withFetchWord (s : State) (nbits w : Nat) : State := s.latchWord nbits w

end Sys2Proof.Machine
end

