-- ==== Sys2Proof/Machine/Assembler.lean ====
section
/-! DEFINITION. The assembler text of a command and the pseudo-instructions (spec/30_encoding.md R68,
R69). Neither is decoded by the engine. -/

namespace Sys2Proof

/-- The mnemonic of R65. -/
def Op.mnemonic : Op → String
  | .nop => "NOP"
  | .cset => "CSET"
  | .fadd => "FADD"
  | .fsub => "FSUB"
  | .fmul => "FMUL"
  | .fsqr => "FSQR"
  | .finv => "FINV"
  | .fsqrt => "FSQRT"
  | .fnegc => "FNEGC"
  | .fsel => "FSEL"
  | .feq => "FEQ"
  | .ftom => "FTOM"
  | .ffromm => "FFROMM"
  | .fmov => "FMOV"
  | .fldc => "FLDC"
  | .fld => "FLD"
  | .fst => "FST"
  | .fltp => "FLTP"
  | .nadd => "NADD"
  | .nsub => "NSUB"
  | .nmul => "NMUL"
  | .nsqr => "NSQR"
  | .ninv => "NINV"
  | .nmov => "NMOV"
  | .nldc => "NLDC"
  | .nld => "NLD"
  | .nst => "NST"
  | .impsig => "IMPSIG"
  | .pinf => "PINF"
  | .pgen => "PGEN"
  | .pmov => "PMOV"
  | .pdbl => "PDBL"
  | .padd => "PADD"
  | .pnegc => "PNEGC"
  | .psel => "PSEL"
  | .pisinf => "PISINF"
  | .pmul => "PMUL"
  | .pbmul => "PBMUL"
  | .pdec => "PDEC"
  | .penc => "PENC"
  | .pencc => "PENCC"
  | .pencx => "PENCX"

/-- The register file of an operand (R65, column "files"). -/
inductive RegFile where
  | f | n | p
  deriving DecidableEq, Repr

/-- The files of the operands RD, RA, RB, RC of an opcode (R65). -/
def Op.files (op : Op) : RegFile × RegFile × RegFile × RegFile :=
  if op.code.toNat < 0x20 then (.f, .f, .f, .f)
  else if op.code.toNat < 0x30 then (.n, .n, .n, .n)
  else if op = .pmul then (.p, .p, .n, .n)
  else if op = .pbmul then (.p, .n, .n, .n)
  else (.p, .p, .p, .p)

/-- `F0`–`F15`, `N0`–`N15`, `P0`–`P15` (R68). -/
def regText (file : RegFile) (i : Reg) : String :=
  (match file with
    | .f => "F"
    | .n => "N"
    | .p => "P") ++ toString i.val

/-- The operands a format uses, in the order RD, RA, RB, RC, IMM (R63, R68). -/
def Format.operands (f : Format) (files : RegFile × RegFile × RegFile × RegFile) (x : Fields) :
    List String :=
  let rd := regText files.1 x.rd
  let ra := regText files.2.1 x.ra
  let rb := regText files.2.2.1 x.rb
  let rc := regText files.2.2.2 x.rc
  let imm := "#" ++ toString x.imm.toNat
  match f with
  | .n => []
  | .i => [imm]
  | .d => [rd]
  | .s => [ra]
  | .di => [rd, imm]
  | .r2 => [rd, ra]
  | .r2i => [rd, ra, imm]
  | .ss => [ra, rb]
  | .r3 => [rd, ra, rb]
  | .r4 => [rd, ra, rb, rc]

/-- The assembler text of a command (R68). -/
def Instr.asm (i : Instr) : String :=
  match i.op.format.operands i.op.files i.fields with
  | [] => i.op.mnemonic
  | operands => i.op.mnemonic ++ " " ++ String.intercalate ", " operands

/-- The pseudo-instructions of R69. -/
inductive Pseudo where
  | cclr
  | csetone
  | cnot
  | fneg (rd ra : Reg)
  | pneg (rd ra : Reg)
  | fzero (rd : Reg)
  | fone (rd : Reg)
  | fsqrn (rd ra : Reg) (k : BitVec 8)
  deriving DecidableEq, Repr

/-- The commands a pseudo-instruction stands for (R69). -/
def Pseudo.expand : Pseudo → List Instr
  | .cclr => [.cset 0]
  | .csetone => [.cset 1]
  | .cnot => [.cset 2]
  | .fneg rd ra => [.cset 1, .fnegc rd ra]
  | .pneg rd ra => [.cset 1, .pnegc rd ra]
  | .fzero rd => [.fldc rd 0]
  | .fone rd => [.fldc rd 1]
  | .fsqrn rd ra k => [.fsqr rd ra k]

end Sys2Proof
end

