-- ==== Sys2Proof/Machine/HostSequences.lean ====
section
/-! DEFINITION. The host's sequences of accesses for the source's functions (spec/30_encoding.md R70,
spec/20_memory.md R59), as the events a host presents. -/

namespace Sys2Proof.Machine

/-- The word BUFWi of a byte string, the byte 4i in the low byte (R46). DESIGN CHOICE: in the last word of
a string whose length is not a multiple of 4, the positions beyond the string are 0x00, so a fill
overwrites up to three BUF bytes beyond it; the spec does not say what the host writes there (R59, R70;
log entry 17). -/
def packedWord (bytes : List Byte) (i : Nat) : Word :=
  BitVec.ofNat 32 ((bytes.getD (4 * i) 0).toNat + (bytes.getD (4 * i + 1) 0).toNat * 0x100
    + (bytes.getD (4 * i + 2) 0).toNat * 0x10000 + (bytes.getD (4 * i + 3) 0).toNat * 0x1000000)

/-- "Fill BUF with s": the bytes to BUFW0…, then BUFLEN = |s| (R70). The padding of the last word is log
entry 17. DESIGN CHOICE: a string longer than the 65 bytes of BUF is filled in the same way, which R70 does
not settle: the words beyond BUFW16 go to reserved offsets, which ignore them (R52), and the BUFLEN write is
ignored, so that the old BUFLEN stays (R45); beyond 192 bytes the access at offset 0x100 is refused (R38;
log entry 19). -/
def fillBuf (bytes : List Byte) : List HostEvent :=
  (List.range ((bytes.length + 3) / 4)).map (fun i => .write 4 (0x40 + 4 * i) (packedWord bytes i))
    ++ [.write 4 0x0C (BitVec.ofNat 32 bytes.length)]

/-- A command: the CMD write, the engine's step, and a STATUS read (R59, R70). DESIGN CHOICE: the poll is
one read, after the engine's step, and shows BUSY = 0 and ERR of every command that completes. After a
command that never completes (ReadUninit, R132) it shows BUSY = 1: R70's poll would not end, R70 does not
say what the host does then, and the model's host goes on, so that its later CMD, BUFLEN and BUFWi writes
are dropped with OVR set (R42, R48; log entry 18). -/
def issue (i : Instr) : List HostEvent := [.write 4 0x04 (encode i), .wait, .read 4 0x08]

/-- Read BUFW0… for `k` bytes (R59). -/
def readBytes (k : Nat) : List HostEvent :=
  (List.range ((k + 3) / 4)).map fun i => .read 4 (0x40 + 4 * i)

/-- Read BUFLEN and all of BUF (R70). -/
def readOutput : List HostEvent := .read 4 0x0C :: readBytes 65

/-- The source's function-level surface, with the registers a host chooses, which may be the same (R70;
log entry 18). -/
inductive SourceCall where
  | newInfinity (pd : Reg)
  | setGenerator (pd : Reg)
  | add (pd pa pb : Reg)
  | double (pd pa : Reg)
  | scalarMult (pd pa nt : Reg) (k : List Byte)
  | scalarBaseMult (pd nt : Reg) (k : List Byte)
  | setBytes (pd : Reg) (buf : List Byte)
  | bytes (pa : Reg)
  | bytesCompressed (pa : Reg)
  | bytesX (pa : Reg)
  | orderInverse (nt : Reg) (k : List Byte)
  | orderMul (nd na nb : Reg) (a b : List Byte)
  | implicitSig (nd ns ne nt : Reg) (s e t : List Byte)
  deriving DecidableEq, Repr

/-- Fill BUF with a scalar and load it. -/
def loadScalar (nd : Reg) (k : List Byte) : List HostEvent := fillBuf k ++ issue (.nld nd)

/-- The host sequence of each function (R70). DESIGN CHOICE: a sequence does not depend on the replies: it
goes on after a command that ended in an error, and the ERR of each command is in `replies`; the spec does
not say what the host does when its check of ERR finds one (log entry 18). -/
def SourceCall.sequence : SourceCall → List HostEvent
  | .newInfinity pd => issue (.pinf pd)
  | .setGenerator pd => issue (.pgen pd)
  | .add pd pa pb => issue (.padd pd pa pb)
  | .double pd pa => issue (.pdbl pd pa)
  | .scalarMult pd pa nt k => loadScalar nt k ++ issue (.pmul pd pa nt)
  | .scalarBaseMult pd nt k => loadScalar nt k ++ issue (.pbmul pd nt)
  | .setBytes pd buf => fillBuf buf ++ issue (.pdec pd)
  | .bytes pa => issue (.penc pa) ++ readOutput
  | .bytesCompressed pa => issue (.pencc pa) ++ readOutput
  | .bytesX pa => issue (.pencx pa) ++ readBytes 32
  | .orderInverse nt k => loadScalar nt k ++ issue (.ninv nt nt) ++ issue (.nst nt) ++ readBytes 32
  | .orderMul nd na nb a b =>
    loadScalar na a ++ loadScalar nb b ++ issue (.nmul nd na nb) ++ issue (.nst nd)
  | .implicitSig nd ns ne nt s e t =>
    loadScalar ns s ++ loadScalar ne e ++ loadScalar nt t ++ issue (.impsig nd ns ne nt)
      ++ issue (.nst nd)

/-- The state with further host events to come. -/
def State.present (s : State) (events : List HostEvent) : State :=
  { s with inbox := s.inbox ++ events }

/-- The state with further events to come, given by platform addresses, for an engine at ENGINE_BASE
(R53). -/
def State.presentAt (base : EngineBase) (s : State) (events : List BusEvent) : State :=
  s.present (events.map (busToPort base))

end Sys2Proof.Machine
end

