-- ==== Sys2Proof/Machine/Montgomery.lean ====
section
/-! DEFINITION. The word-serial Montgomery multiplier of spec/40_prime_field.md R72: one realisation of
the product `montMulP`, with 64-bit words and p' = −p⁻¹ mod 2^64 = 1. How the product is formed is not
architectural; the commands are stated by `montMulP`. -/

namespace Sys2Proof.Machine

/-- p' = −p⁻¹ mod 2^64 (R72). -/
def pPrime : Nat := 1

/-- One round of the reduction: add the multiple of p that clears the lowest 64-bit word, and drop that
word. -/
def montRound (t : Nat) : Nat := (t + (t % 2 ^ 64 * pPrime % 2 ^ 64) * primeP) / 2 ^ 64

/-- Four rounds and one conditional subtraction of p. -/
def montReduce (t : Nat) : Nat :=
  let u := montRound (montRound (montRound (montRound t)))
  if u ≥ primeP then u - primeP else u

/-- The word-serial Montgomery product (R72). -/
def montMulWordSerial (a b : Nat) : Nat := montReduce (a * b)

/-- The modular adder's single conditional subtraction of a 257-bit sum (R73). -/
def addOneSubtraction (a b : Nat) : Nat := if a + b ≥ primeP then a + b - primeP else a + b

end Sys2Proof.Machine
end

