-- ==== Sys2Proof/Safety.lean ====
section
/-! DEFINITION. The terms claims are stated in: the invariants of the state, what a command reads, how a
completed command may differ from the state before it, and when a run is over. -/

namespace Sys2Proof.Machine

/-- Every F register, written or not, is below p (spec/10_state.md R21; log entry 1 for the unwritten). -/
abbrev State.FBelow (s : State) : Prop := ∀ i : Reg, s.fReg i < primeP

/-- Every N register, written or not, is below n (R22; log entry 1 for the unwritten). -/
abbrev State.NBelow (s : State) : Prop := ∀ i : Reg, s.nReg i < orderN

/-- Every P register, written or not, holds a point of E (R23; log entry 1 for the unwritten). -/
abbrev State.POnCurve (s : State) : Prop := ∀ i : Reg, (s.pReg i).onCurve = true

/-- BUF is in its canonical form and BUFLEN is at most 65 (R28). -/
abbrev State.BufferOk (s : State) : Prop := s.buf.wf = true ∧ s.bufLen ≤ 65

/-- The status bits are legal (R29, R34, R41, R43, R44, R128, R144): DONE is clear while BUSY; ERR is zero
unless DONE is set, and at most 6; while reset is asserted (log entry 10) the control state has its reset values. -/
abbrev State.StatusOk (s : State) : Prop :=
  (s.busy = true → s.done = false) ∧ (s.done = false → s.err = 0) ∧ s.err.toNat ≤ 6 ∧
    (s.inReset = true → s.busy = false ∧ s.done = false ∧ s.ovr = false ∧ s.cmdl = 0 ∧ s.bufLen = 0 ∧
      s.buf = [])

/-- The registers and the flag a command reads, in the order RA, RB, RC, C (R14, R26, R65). -/
def sources : Instr → List RegName
  | .fadd _ ra rb | .fsub _ ra rb | .fmul _ ra rb => [.f ra, .f rb]
  | .feq ra rb => [.f ra, .f rb]
  | .fsqr _ ra _ => [.f ra]
  | .finv _ ra | .fsqrt _ ra | .ftom _ ra | .ffromm _ ra | .fmov _ ra => [.f ra]
  | .fst ra => [.f ra]
  | .fnegc _ ra => [.f ra, .c]
  | .fsel _ ra rb => [.f ra, .f rb, .c]
  | .nadd _ ra rb | .nsub _ ra rb | .nmul _ ra rb => [.n ra, .n rb]
  | .nsqr _ ra _ => [.n ra]
  | .ninv _ ra | .nmov _ ra => [.n ra]
  | .nst ra => [.n ra]
  | .impsig _ ra rb rc => [.n ra, .n rb, .n rc]
  | .pmov _ ra | .pdbl _ ra => [.p ra]
  | .padd _ ra rb => [.p ra, .p rb]
  | .pnegc _ ra => [.p ra, .c]
  | .psel _ ra rb => [.p ra, .p rb, .c]
  | .pisinf ra | .penc ra | .pencc ra | .pencx ra => [.p ra]
  | .pmul _ ra rb => [.p ra, .n rb]
  | .pbmul _ ra => [.n ra]
  | .cset k => if k.toNat = 2 then [.c] else []
  | .nop | .fldc _ _ | .fld _ | .fltp | .nldc _ _ | .nld _ | .pinf _ | .pgen _ | .pdec _ => []

/-- Every register and flag a command reads has been written since reset (R14, R148). -/
abbrev State.Ready (s : State) (i : Instr) : Prop := ∀ r ∈ sources i, s.isWritten r = true

/-- The register a command writes when it succeeds, if it has one (R65, column "files"). -/
def destination : Instr → Option RegName
  | .fadd rd _ _ | .fsub rd _ _ | .fmul rd _ _ | .fsel rd _ _ => some (.f rd)
  | .fsqr rd _ _ => some (.f rd)
  | .finv rd _ | .fsqrt rd _ | .fnegc rd _ | .ftom rd _ | .ffromm rd _ | .fmov rd _ => some (.f rd)
  | .fldc rd _ => some (.f rd)
  | .fld rd => some (.f rd)
  | .nadd rd _ _ | .nsub rd _ _ | .nmul rd _ _ => some (.n rd)
  | .nsqr rd _ _ => some (.n rd)
  | .ninv rd _ | .nmov rd _ => some (.n rd)
  | .nldc rd _ => some (.n rd)
  | .nld rd => some (.n rd)
  | .impsig rd _ _ _ => some (.n rd)
  | .pinf rd | .pgen rd | .pdec rd => some (.p rd)
  | .pmov rd _ | .pdbl rd _ | .pnegc rd _ | .pbmul rd _ => some (.p rd)
  | .padd rd _ _ | .psel rd _ _ | .pmul rd _ _ => some (.p rd)
  | .nop | .cset _ | .feq _ _ | .fst _ | .fltp | .nst _ | .pisinf _ | .penc _ | .pencc _ | .pencx _ =>
    none

/-- The commands that write C when they succeed (R26). -/
def writesFlag : Op → Bool
  | .fsqrt | .feq | .fltp | .padd | .pisinf | .cset => true
  | _ => false

/-- The commands that write BUF and BUFLEN when they succeed (R28). -/
def writesBuffer : Op → Bool
  | .fst | .nst | .penc | .pencc | .pencx => true
  | _ => false

/-- `t` differs from `s` at most in: the register `dest`; C, if `flag`; BUF[0] to BUF[bytes − 1] and, if
`bytes > 0`, BUFLEN; the status bits BUSY, DONE and ERR; and the list of completed commands. Registers are
compared with their written marks, BUF byte by byte. That CMDL stays is log entry 6. -/
structure State.FrameOf (s t : State) (dest : Option RegName) (flag : Bool) (bytes : Nat) : Prop where
  f : ∀ i, dest ≠ some (.f i) → t.f.get i = s.f.get i
  n : ∀ i, dest ≠ some (.n i) → t.n.get i = s.n.get i
  p : ∀ i, dest ≠ some (.p i) → t.p.get i = s.p.get i
  c : flag = false → t.c = s.c
  buf : ∀ k, bytes ≤ k → t.bufByte k = s.bufByte k
  bufLen : bytes = 0 → t.bufLen = s.bufLen
  ovr : t.ovr = s.ovr
  cmdl : t.cmdl = s.cmdl
  inReset : t.inReset = s.inReset
  inbox : t.inbox = s.inbox
  replies : t.replies = s.replies
  draws : t.draws = s.draws
  uninit : t.uninit = s.uninit

/-- The completion of R43: `BUSY <- 0; DONE <- 1; ERR <- code`. -/
structure State.CompletedWith (t : State) (code : BitVec 4) : Prop where
  busy : t.busy = false
  done : t.done = true
  err : t.err = code

/-- `t` is `s` after a command that succeeded: completed with code 0, its destination and C written as
told, everything else as `FrameOf` says. -/
structure State.Succeeded (s t : State) (dest : Option RegName) (flag : Bool) (bytes : Nat) : Prop
    extends State.FrameOf s t dest flag bytes, State.CompletedWith t 0 where
  wroteDest : ∀ r, dest = some r → t.isWritten r = true
  wroteFlag : flag = true → t.c.written = true

/-- `t` is `s` after a command that raised the error of `code` (R16, R129): completed with the code and
nothing else written. -/
structure State.Raised (s t : State) (code : BitVec 4) : Prop
    extends State.FrameOf s t none false 0, State.CompletedWith t code

/-- The 32-byte big-endian number at BUF[off]…BUF[off+31], as the sum of its bytes (R15, R49). -/
def State.bigEndian (s : State) (off : Nat) : Nat :=
  ∑ i ∈ Finset.range 32, (s.bufByte (off + i)).toNat * 256 ^ (31 - i)

/-- The curve equation y² ≡ x³ − 3x + b (mod p) of R7, with no subtraction: y² + 3x ≡ x³ + b. -/
abbrev SatisfiesCurve (x y : Nat) : Prop := (y ^ 2 + 3 * x) % primeP = (x ^ 3 + curveB) % primeP

/-- A command has the opcode and the format that its row of R65 gives it. -/
abbrev HasRow (i : Instr) (op : BitVec 8) (format : Format) : Prop :=
  i.op.code = op ∧ i.op.format = format

/-- The host presents an access the port carries (R38), or waits. -/
def HostEvent.carried : HostEvent → Bool
  | .wait => true
  | .read width off => width == 4 && off % 4 == 0 && decide (off ≤ 0xFC)
  | .write width off _ => width == 4 && off % 4 == 0 && decide (off ≤ 0xFC)
  | .assertReset => false
  | .releaseReset => false

/-- A run is over: the host has no further access to make and BUSY = 0 (R152). -/
abbrev State.Over (s : State) : Prop := s.inbox = [] ∧ s.busy = false

/-- No command has read an unwritten register or flag (R132; log entry 1). -/
abbrev State.NoUninitRead (s : State) : Prop := s.uninit = none

end Sys2Proof.Machine
end

