-- ==== Sys2Proof/Certificates/Slice0/Obligations.lean ====
section
/-! DEFINITION. The statements for the provers, each from the spec's numbered rules. Values are stated in
plain arithmetic modulo p and n: an F register holding `w` stands for the true value `x` with
`x · R ≡ w (mod p)`, where R = 2^256 is `radixR` (spec/00_scope.md R10, R13), and likewise an N
register.

A command completes where every register and flag it reads has been written since reset (`State.Ready`,
R14, R148); what it does elsewhere is `UninitReadIsRecorded`. That CMDL keeps its word when a command
completes, which every frame says, is the model's choice (log entry 6). -/

open Sys2Proof Sys2Proof.Machine

/-! ### Encoding -/

/-- R67, R68: the decoder gives back every legal command from its word. -/
def Obligations.DecodeOfEncode : Prop :=
  ∀ i : Instr, i.WellFormed → decode (encode i) = .ok i

/-- R67, R68: a word the decoder accepts is the word of a legal command, and of that one only. -/
def Obligations.EncodeOfDecode : Prop :=
  ∀ (w : Word) (i : Instr), decode w = .ok i →
    i.WellFormed ∧ encode i = w ∧ ∀ j : Instr, j.WellFormed → encode j = w → j = i

/-- R63, R66: a word is illegal exactly when its OP is in no row, or it does not match the row's mask, or
its IMM is outside the row's range; the OP values in no row are the reserved ones; and a latched word that
is illegal raises IllegalCommand. The last clause, on a command no word decodes to, is log entry 11. -/
def Obligations.IllegalWordsAreRejected : Prop :=
  (∀ w : Word, (∃ e, decode w = .error e) ↔
    (∀ op : Op, op.code ≠ w.extractLsb' 0 8) ∨
    ∃ op : Op, op.code = w.extractLsb' 0 8 ∧
      (w &&& op.format.mask ≠ op.code.setWidth 32 ∨
        ∃ lo hi, op.immRange = some (lo, hi) ∧
          ((w.extractLsb' 24 8).toNat < lo ∨ hi < (w.extractLsb' 24 8).toNat))) ∧
  (∀ c : BitVec 8, (∀ op : Op, op.code ≠ c) ↔
    (0x02 ≤ c.toNat ∧ c.toNat ≤ 0x0F) ∨ (0x2A ≤ c.toNat ∧ c.toNat ≤ 0x2F) ∨
      (0x3A ≤ c.toNat ∧ c.toNat ≤ 0x3F) ∨ 0x44 ≤ c.toNat) ∧
  (∀ (s : State) (e : DecodeReject), s.busy = true → decode s.cmdl = .error e → s.inbox = [] →
    ∃ t, step s = .next t ∧ s.Raised t 6) ∧
  (∀ (i : Instr) (s : State), ¬i.WellFormed → ∃ t, exec i s = .next t ∧ s.Raised t 6)

/-- spec/95_test_vectors.md 2.1 and part 3: words written out there decode to the commands they stand
for, one at least of each family, and the illegal ones are refused; and so does the word of NINV N1, N1,
written out from R61 and R65. -/
def Obligations.PrintedWordsDecode : Prop :=
  decode 0x00000000 = .ok .nop ∧ decode 0x01000001 = .ok (.cset 1) ∧
  decode 0x00021312 = .ok (.fmul 3 1 2) ∧ decode 0xFF001113 = .ok (.fsqr 1 1 255) ∧
  decode 0x00021018 = .ok (.feq 1 2) ∧ decode 0x00210329 = .ok (.impsig 3 0 1 2) ∧
  decode 0x00000127 = .ok (.nld 1) ∧ decode 0x00001336 = .ok (.psel 3 1 0) ∧
  decode 0x00011238 = .ok (.pmul 2 1 1) ∧ decode 0x00001239 = .ok (.pbmul 2 1) ∧
  decode 0x00004041 = .ok (.penc 4) ∧
  decode 0x00003414 = .ok (.finv 4 3) ∧ decode 0x00000115 = .ok (.fsqrt 1 0) ∧
  decode 0x00001124 = .ok (.ninv 1 1) ∧ decode 0x00003434 = .ok (.padd 4 3 0) ∧
  decode 0x0000311E = .error .unusedField ∧ decode 0x00001113 = .error .immRange ∧
  decode 0x00000100 = .error .unusedField ∧ decode 0x000000FF = .error .reservedOpcode

/-! ### The machine -/

/-- R19, R41, R54: a step with no host access before the engine's runs exactly the command that CMDL
decodes to, or raises IllegalCommand; `withFetchWord` is such a state; and an idle engine's step changes
nothing. A wait event is taken off and the engine's step is the same. That a completion is entered in the list
of completed commands is log entry 7. -/
def Obligations.StepRunsTheLatchedCommand : Prop :=
  (∀ (s : State) (i : Instr), s.busy = true → decode s.cmdl = .ok i → s.inbox = [] →
    step s = exec i s) ∧
  (∀ (s : State) (i : Instr) (rest : List HostEvent), s.busy = true → decode s.cmdl = .ok i →
    s.inbox = .wait :: rest → step s = exec i { s with inbox := rest }) ∧
  (∀ (s : State) (e : DecodeReject), s.busy = true → decode s.cmdl = .error e →
    (s.inbox = [] → step s = .next { s with
      busy := false, done := true, err := 6, completed := s.timing :: s.completed }) ∧
    ∀ rest, s.inbox = .wait :: rest → step s = .next { s with
      inbox := rest, busy := false, done := true, err := 6, completed := s.timing :: s.completed }) ∧
  (∀ (s : State) (nbits w : Nat) (i : Instr), decodeTableWord nbits w = some i →
    step (s.withFetchWord nbits w) = exec i (s.withFetchWord nbits w)) ∧
  (∀ s : State, s.busy = false → (s.inbox = [] → step s = .next s) ∧
    ∀ rest, s.inbox = .wait :: rest → step s = .next { s with inbox := rest })

/-- R43, R128, R152: every command, in every state in which its sources have been written, and with every
operand, completes: BUSY is clear, DONE set, and ERR holds a code of the table. -/
def Obligations.EveryCommandCompletes : Prop :=
  ∀ (i : Instr) (s : State), s.Ready i → ∃ (t : State) (code : BitVec 4),
    exec i s = .next t ∧ t.CompletedWith code ∧ code.toNat ≤ 6

/-- R16, R26, R28, R129, R132: what a command leaves unchanged. A command that succeeds writes its
destination, C only if it is one of the six writers of C, BUF and BUFLEN only if it is one of the five that
store to BUF, and then only the bytes below the new BUFLEN; a command that raises an error writes none of
them; and one that reads an unwritten register changes the ReadUninit record alone. -/
def Obligations.CommandFrames : Prop :=
  ∀ (i : Instr) (s t : State), exec i s = .next t →
    (t.err = 0 ∧ s.Succeeded t (destination i) (writesFlag i.op)
      (if writesBuffer i.op then t.bufLen else 0)) ∨
    (t.err ≠ 0 ∧ s.Raised t t.err) ∨
    (¬s.Ready i ∧ ∃ r, t = { s with uninit := some r })

/-- R128: which commands end with which code, for the commands a legal word stands for. -/
def Obligations.ErrorCodesByCommand : Prop :=
  ∀ (i : Instr) (s t : State), i.WellFormed → s.Ready i → exec i s = .next t →
    (t.err = 1 → i.op = .pdec ∨ i.op = .fld ∨ i.op = .fltp) ∧
    (t.err = 2 → i.op = .pdec) ∧ (t.err = 3 → i.op = .pdec) ∧ (t.err = 4 → i.op = .nld) ∧
    (t.err = 5 → i.op = .pencx) ∧ t.err.toNat ≤ 5

/-- R14, R132, R133: a command that reads a register or C unwritten since reset does not complete, whatever
its own checks would find: nothing is written, BUSY, DONE and ERR stay, and the read is recorded, unless one
is recorded already. That the register recorded is the first unwritten one in the order RA, RB, RC, C, and
that the machine stays in this state instead of stopping, is the model's choice (log entry 1). -/
def Obligations.UninitReadIsRecorded : Prop :=
  ∀ (i : Instr) (s : State), i.WellFormed → ¬s.Ready i →
    ∃ r, (sources i).find? (fun r => !s.isWritten r) = some r ∧
      exec i s = .next { s with uninit := s.uninit.or (some r) }

/-- R132: the ReadUninit record is never cleared, by any step of the machine, a reset included. That the
machine goes on after it, once reset, is the model's choice (log entry 1). -/
def Obligations.UninitRecordIsNeverCleared : Prop :=
  ∀ (s t : State) (r : RegName), step s = .next t → s.uninit = some r → t.uninit = some r

/-! ### Prime-field commands -/

/-- R73, R74: FADD and FSUB. The sum of two residues takes one subtraction. -/
def Obligations.FieldAddAndSubtract : Prop :=
  ∀ (s : State) (rd ra rb : Reg),
    HasRow (.fadd rd ra rb) 0x10 .r3 ∧ HasRow (.fsub rd ra rb) 0x11 .r3 ∧
    (s.Ready (.fadd rd ra rb) →
      ∃ t, exec (.fadd rd ra rb) s = .next t ∧ s.Succeeded t (some (.f rd)) false 0 ∧
      t.fReg rd = (s.fReg ra + s.fReg rb) % primeP ∧
      (s.fReg ra < primeP → s.fReg rb < primeP →
        t.fReg rd = addOneSubtraction (s.fReg ra) (s.fReg rb))) ∧
    (s.Ready (.fsub rd ra rb) →
      ∃ t, exec (.fsub rd ra rb) s = .next t ∧ s.Succeeded t (some (.f rd)) false 0 ∧
      t.fReg rd < primeP ∧ (t.fReg rd + s.fReg rb) % primeP = s.fReg ra % primeP)

/-- R75: FMUL writes the residue below p whose product with R = 2^256 is the product of the sources. -/
def Obligations.FieldMontgomeryProduct : Prop :=
  ∀ (s : State) (rd ra rb : Reg),
    HasRow (.fmul rd ra rb) 0x12 .r3 ∧
    (s.Ready (.fmul rd ra rb) →
      ∃ t, exec (.fmul rd ra rb) s = .next t ∧ s.Succeeded t (some (.f rd)) false 0 ∧
      t.fReg rd < primeP ∧ t.fReg rd * radixR % primeP = s.fReg ra * s.fReg rb % primeP)

/-- R76: FSQR #k writes the Montgomery form of x^(2^k), x the true value of the source; the word
with k = 0 is IllegalCommand at decode. -/
def Obligations.FieldRepeatedSquaring : Prop :=
  ∀ (s : State) (rd ra : Reg) (k : BitVec 8),
    HasRow (.fsqr rd ra k) 0x13 .r2i ∧
    (k.toNat ≠ 0 → s.Ready (.fsqr rd ra k) →
      ∃ t, exec (.fsqr rd ra k) s = .next t ∧ s.Succeeded t (some (.f rd)) false 0 ∧
      ∀ x, x * radixR % primeP = s.fReg ra % primeP →
        t.fReg rd = x ^ (2 ^ k.toNat) * radixR % primeP) ∧
    (k.toNat = 0 → s.busy = true → s.cmdl = encode (.fsqr rd ra k) → s.inbox = [] →
      ∃ t, step s = .next t ∧ s.Raised t 6)

/-- R77, R130: FINV writes the Montgomery form of x^(p−2), x the true value of the source; that is
R² · inv_p(F[RA]) mod p in raw terms, and 0 for 0. -/
def Obligations.FieldInversion : Prop :=
  ∀ (s : State) (rd ra : Reg),
    HasRow (.finv rd ra) 0x14 .r2 ∧
    (s.Ready (.finv rd ra) → ∃ t, exec (.finv rd ra) s = .next t ∧ s.Succeeded t (some (.f rd)) false 0 ∧
      (∀ x, x * radixR % primeP = s.fReg ra % primeP →
        t.fReg rd = x ^ (primeP - 2) * radixR % primeP) ∧
      (s.fReg ra % primeP = 0 → t.fReg rd = 0) ∧
      (s.fReg ra % primeP ≠ 0 → t.fReg rd < primeP ∧
        t.fReg rd * s.fReg ra % primeP = radixR * radixR % primeP))

/-- R78: FSQRT writes the Montgomery form of the candidate r = x^((p+1)/4) in either case; C tells whether
x has a square root; r² ≡ −x when it has none; and r is itself a square. -/
def Obligations.FieldSquareRoot : Prop :=
  ∀ (s : State) (rd ra : Reg),
    HasRow (.fsqrt rd ra) 0x15 .r2 ∧
    (s.Ready (.fsqrt rd ra) →
      ∃ t, exec (.fsqrt rd ra) s = .next t ∧ s.Succeeded t (some (.f rd)) true 0 ∧
      ∀ x, x * radixR % primeP = s.fReg ra % primeP →
        t.fReg rd = x ^ ((primeP + 1) / 4) * radixR % primeP ∧
        (t.cFlag = true ↔ x ^ ((primeP + 1) / 4) * x ^ ((primeP + 1) / 4) % primeP = x % primeP) ∧
        (t.cFlag = true ↔ ∃ y, y * y % primeP = x % primeP) ∧
        (t.cFlag = false → (x ^ ((primeP + 1) / 4) * x ^ ((primeP + 1) / 4) + x) % primeP = 0) ∧
        ∃ z, z * z % primeP = x ^ ((primeP + 1) / 4) % primeP)

/-- R79, R80, R81: FNEGC negates iff C and sends 0 to 0, FSEL selects by C, FEQ compares. -/
def Obligations.FieldConditionals : Prop :=
  ∀ (s : State) (rd ra rb : Reg),
    HasRow (.fnegc rd ra) 0x16 .r2 ∧ HasRow (.fsel rd ra rb) 0x17 .r3 ∧ HasRow (.feq ra rb) 0x18 .ss ∧
    (s.Ready (.fnegc rd ra) →
      ∃ t, exec (.fnegc rd ra) s = .next t ∧ s.Succeeded t (some (.f rd)) false 0 ∧
      (s.cFlag = true → t.fReg rd < primeP ∧ (t.fReg rd + s.fReg ra) % primeP = 0) ∧
      (s.cFlag = false → t.fReg rd = s.fReg ra)) ∧
    (s.Ready (.fsel rd ra rb) →
      ∃ t, exec (.fsel rd ra rb) s = .next t ∧ s.Succeeded t (some (.f rd)) false 0 ∧
      t.fReg rd = if s.cFlag then s.fReg ra else s.fReg rb) ∧
    (s.Ready (.feq ra rb) → ∃ t, exec (.feq ra rb) s = .next t ∧ s.Succeeded t none true 0 ∧
      (t.cFlag = true ↔ s.fReg ra = s.fReg rb))

/-- R82, R83: FTOM multiplies by R, FFROMM divides by it, and FFROMM of FTOM gives every residue back. -/
def Obligations.FieldDomainConversions : Prop :=
  ∀ (s : State) (rd ra : Reg),
    HasRow (.ftom rd ra) 0x19 .r2 ∧ HasRow (.ffromm rd ra) 0x1A .r2 ∧
    (s.Ready (.ftom rd ra) →
      ∃ t, exec (.ftom rd ra) s = .next t ∧ s.Succeeded t (some (.f rd)) false 0 ∧
      t.fReg rd = s.fReg ra * radixR % primeP ∧
      ∀ rd', ∃ u, exec (.ffromm rd' rd) t = .next u ∧ (s.fReg ra < primeP → u.fReg rd' = s.fReg ra)) ∧
    (s.Ready (.ffromm rd ra) →
      ∃ t, exec (.ffromm rd ra) s = .next t ∧ s.Succeeded t (some (.f rd)) false 0 ∧
      t.fReg rd < primeP ∧ t.fReg rd * radixR % primeP = s.fReg ra % primeP)

/-- R84, R85: FMOV copies; FLDC #k loads the constant that R85 names for k, by what it is: the Montgomery
forms of 1, b, p − 3, Gx and Gy, R² mod p, and the raw 0 and 1; the word with k ≥ 8 is IllegalCommand at
decode. -/
def Obligations.FieldMovesAndConstants : Prop :=
  ∀ (s : State) (rd ra : Reg) (k : BitVec 8),
    HasRow (.fmov rd ra) 0x1B .r2 ∧ HasRow (.fldc rd k) 0x1C .di ∧
    (s.Ready (.fmov rd ra) →
      ∃ t, exec (.fmov rd ra) s = .next t ∧ s.Succeeded t (some (.f rd)) false 0 ∧
      t.fReg rd = s.fReg ra) ∧
    (k.toNat ≤ 7 → ∃ t, exec (.fldc rd k) s = .next t ∧ s.Succeeded t (some (.f rd)) false 0 ∧
      [0, radixR % primeP, radixR * radixR % primeP, curveB * radixR % primeP, (primeP - 3) * radixR % primeP,
        genX * radixR % primeP, genY * radixR % primeP, 1][k.toNat]? = some (t.fReg rd)) ∧
    (8 ≤ k.toNat → s.busy = true → s.cmdl = encode (.fldc rd k) → s.inbox = [] →
      ∃ t, step s = .next t ∧ s.Raised t 6)

/-- R86, R88: FLD loads the buffer's number as it is when BUFLEN = 32 and it is below p, else DecodeError;
FLTP needs BUFLEN = 32 and tests the same number. -/
def Obligations.FieldLoadAndTest : Prop :=
  ∀ (s : State) (rd : Reg),
    HasRow (.fld rd) 0x1D .d ∧ HasRow .fltp 0x1F .n ∧
    (s.bufLen = 32 → s.bigEndian 0 < primeP →
      ∃ t, exec (.fld rd) s = .next t ∧ s.Succeeded t (some (.f rd)) false 0 ∧
        t.fReg rd = s.bigEndian 0) ∧
    (s.bufLen ≠ 32 ∨ primeP ≤ s.bigEndian 0 → ∃ t, exec (.fld rd) s = .next t ∧ s.Raised t 1) ∧
    (s.bufLen = 32 → ∃ t, exec .fltp s = .next t ∧ s.Succeeded t none true 0 ∧
      (t.cFlag = true ↔ s.bigEndian 0 < primeP)) ∧
    (s.bufLen ≠ 32 → ∃ t, exec .fltp s = .next t ∧ s.Raised t 1)

/-- R87: FST writes the register's 32 bytes, the most significant first, and BUFLEN = 32; BUF[32] to
BUF[64] are unchanged. -/
def Obligations.FieldStore : Prop :=
  ∀ (s : State) (ra : Reg),
    HasRow (.fst ra) 0x1E .s ∧
    (s.BufferOk → s.Ready (.fst ra) →
      ∃ t, exec (.fst ra) s = .next t ∧ s.Succeeded t none false 32 ∧ t.bufLen = 32 ∧
      ∀ i < 32, t.bufByte i = BitVec.ofNat 8 (s.fReg ra / 256 ^ (31 - i)))

/-! ### Order-field commands -/

/-- R90, R91: NADD and NSUB. -/
def Obligations.OrderAddAndSubtract : Prop :=
  ∀ (s : State) (rd ra rb : Reg),
    HasRow (.nadd rd ra rb) 0x20 .r3 ∧ HasRow (.nsub rd ra rb) 0x21 .r3 ∧
    (s.Ready (.nadd rd ra rb) →
      ∃ t, exec (.nadd rd ra rb) s = .next t ∧ s.Succeeded t (some (.n rd)) false 0 ∧
      t.nReg rd = (s.nReg ra + s.nReg rb) % orderN) ∧
    (s.Ready (.nsub rd ra rb) →
      ∃ t, exec (.nsub rd ra rb) s = .next t ∧ s.Succeeded t (some (.n rd)) false 0 ∧
      t.nReg rd < orderN ∧ (t.nReg rd + s.nReg rb) % orderN = s.nReg ra % orderN)

/-- R92, R99: NMUL is the Montgomery product mod n; IMPSIG adds RA to the product of RB and RC, so that in
true values the result is e·t + s. -/
def Obligations.OrderProductAndImplicitSignature : Prop :=
  ∀ (s : State) (rd ra rb rc : Reg),
    HasRow (.nmul rd ra rb) 0x22 .r3 ∧ HasRow (.impsig rd ra rb rc) 0x29 .r4 ∧
    (s.Ready (.nmul rd ra rb) →
      ∃ t, exec (.nmul rd ra rb) s = .next t ∧ s.Succeeded t (some (.n rd)) false 0 ∧
      t.nReg rd < orderN ∧ t.nReg rd * radixR % orderN = s.nReg ra * s.nReg rb % orderN) ∧
    (s.Ready (.impsig rd ra rb rc) →
      ∃ t, exec (.impsig rd ra rb rc) s = .next t ∧ s.Succeeded t (some (.n rd)) false 0 ∧
      t.nReg rd < orderN ∧
      t.nReg rd * radixR % orderN = (s.nReg rb * s.nReg rc + s.nReg ra * radixR) % orderN ∧
      ∀ x y z, x * radixR % orderN = s.nReg ra % orderN → y * radixR % orderN = s.nReg rb % orderN →
        z * radixR % orderN = s.nReg rc % orderN → t.nReg rd = (y * z + x) * radixR % orderN)

/-- R93: NSQR #k writes the Montgomery form of x^(2^k); the word with k = 0 is IllegalCommand at decode. -/
def Obligations.OrderRepeatedSquaring : Prop :=
  ∀ (s : State) (rd ra : Reg) (k : BitVec 8),
    HasRow (.nsqr rd ra k) 0x23 .r2i ∧
    (k.toNat ≠ 0 → s.Ready (.nsqr rd ra k) →
      ∃ t, exec (.nsqr rd ra k) s = .next t ∧ s.Succeeded t (some (.n rd)) false 0 ∧
      ∀ x, x * radixR % orderN = s.nReg ra % orderN →
        t.nReg rd = x ^ (2 ^ k.toNat) * radixR % orderN) ∧
    (k.toNat = 0 → s.busy = true → s.cmdl = encode (.nsqr rd ra k) → s.inbox = [] →
      ∃ t, step s = .next t ∧ s.Raised t 6)

/-- R94, R130: NINV writes the Montgomery form of x^(n−2); the true value u of the result has u·x ≡ 1 for
x ≢ 0, and 0 gives 0. -/
def Obligations.OrderInversion : Prop :=
  ∀ (s : State) (rd ra : Reg),
    HasRow (.ninv rd ra) 0x24 .r2 ∧
    (s.Ready (.ninv rd ra) → ∃ t, exec (.ninv rd ra) s = .next t ∧ s.Succeeded t (some (.n rd)) false 0 ∧
      (∀ x, x * radixR % orderN = s.nReg ra % orderN →
        t.nReg rd = x ^ (orderN - 2) * radixR % orderN ∧
        (x % orderN = 0 → t.nReg rd = 0) ∧
        ∀ u, u * radixR % orderN = t.nReg rd % orderN → x % orderN ≠ 0 → u * x % orderN = 1))

/-- R95, R96: NMOV copies; NLDC #k loads 0, R mod n, R² mod n or 1; the word with k ≥ 4 is IllegalCommand
at decode. -/
def Obligations.OrderMovesAndConstants : Prop :=
  ∀ (s : State) (rd ra : Reg) (k : BitVec 8),
    HasRow (.nmov rd ra) 0x25 .r2 ∧ HasRow (.nldc rd k) 0x26 .di ∧
    (s.Ready (.nmov rd ra) →
      ∃ t, exec (.nmov rd ra) s = .next t ∧ s.Succeeded t (some (.n rd)) false 0 ∧
      t.nReg rd = s.nReg ra) ∧
    (k.toNat ≤ 3 → ∃ t, exec (.nldc rd k) s = .next t ∧ s.Succeeded t (some (.n rd)) false 0 ∧
      [0, radixR % orderN, radixR * radixR % orderN, 1][k.toNat]? = some (t.nReg rd)) ∧
    (4 ≤ k.toNat → s.busy = true → s.cmdl = encode (.nldc rd k) → s.inbox = [] →
      ∃ t, step s = .next t ∧ s.Raised t 6)

/-- R97: NLD reduces the buffer's number mod n and writes its Montgomery form; BUFLEN ≠ 32 is
InvalidScalarLengthError. -/
def Obligations.ScalarLoad : Prop :=
  ∀ (s : State) (rd : Reg),
    HasRow (.nld rd) 0x27 .d ∧
    (s.bufLen = 32 → ∃ t, exec (.nld rd) s = .next t ∧ s.Succeeded t (some (.n rd)) false 0 ∧
      t.nReg rd = s.bigEndian 0 % orderN * radixR % orderN) ∧
    (s.bufLen ≠ 32 → ∃ t, exec (.nld rd) s = .next t ∧ s.Raised t 4)

/-- R98: NST writes the 32 bytes of the register's true value, the most significant first, and
BUFLEN = 32; BUF[32] to BUF[64] are unchanged. -/
def Obligations.ScalarStore : Prop :=
  ∀ (s : State) (ra : Reg),
    HasRow (.nst ra) 0x28 .s ∧
    (s.BufferOk → s.Ready (.nst ra) →
      ∃ t, exec (.nst ra) s = .next t ∧ s.Succeeded t none false 32 ∧ t.bufLen = 32 ∧
      ∀ u < orderN, u * radixR % orderN = s.nReg ra % orderN →
        ∀ i < 32, t.bufByte i = BitVec.ofNat 8 (u / 256 ^ (31 - i)))

/-! ### Point commands -/

/-- R104, R105, R106: PINF, PGEN and PMOV. -/
def Obligations.PointConstructorsAndMove : Prop :=
  ∀ (s : State) (rd ra : Reg),
    HasRow (.pinf rd) 0x30 .d ∧ HasRow (.pgen rd) 0x31 .d ∧ HasRow (.pmov rd ra) 0x32 .r2 ∧
    (∃ t, exec (.pinf rd) s = .next t ∧ s.Succeeded t (some (.p rd)) false 0 ∧
      t.pReg rd = .infinity) ∧
    (∃ t, exec (.pgen rd) s = .next t ∧ s.Succeeded t (some (.p rd)) false 0 ∧
      t.pReg rd = .affine (BitVec.ofNat 256 genX) (BitVec.ofNat 256 genY)) ∧
    (s.Ready (.pmov rd ra) →
      ∃ t, exec (.pmov rd ra) s = .next t ∧ s.Succeeded t (some (.p rd)) false 0 ∧
      t.pReg rd = s.pReg ra)

/-- R17: the group law of the model is the chord-and-tangent law, in equations with no division. -/
def Obligations.ChordAndTangentLaw : Prop :=
  (∀ q : Point, Point.add .infinity q = q ∧ Point.add q .infinity = q) ∧
  ∀ x1 y1 x2 y2 : Elem, (Point.affine x1 y1).onCurve = true → (Point.affine x2 y2).onCurve = true →
    (x1 = x2 → (y1.toNat + y2.toNat) % primeP = 0 →
      Point.add (.affine x1 y1) (.affine x2 y2) = .infinity) ∧
    (x1 ≠ x2 ∨ (y1.toNat + y2.toNat) % primeP ≠ 0 →
      ∃ (l : Nat) (x3 y3 : Elem), Point.add (.affine x1 y1) (.affine x2 y2) = .affine x3 y3 ∧
        x3.toNat < primeP ∧ y3.toNat < primeP ∧
        (x3.toNat + x1.toNat + x2.toNat) % primeP = l * l % primeP ∧
        (y3.toNat + y1.toNat + l * x3.toNat) % primeP = l * x1.toNat % primeP ∧
        (if x1 = x2 then
          (l * (2 * y1.toNat) + 3) % primeP = 3 * x1.toNat * x1.toNat % primeP
        else (l * x2.toNat + y1.toNat) % primeP = (l * x1.toNat + y2.toNat) % primeP))

/-- R9, R17: E with the model's addition is a commutative group: closed, with identity ∞, inverses and
associativity; and no finite point of E has y = 0. -/
def Obligations.CurvePointsFormAGroup : Prop :=
  (∀ a b : Point, a.onCurve = true → b.onCurve = true → (a.add b).onCurve = true ∧ a.add b = b.add a) ∧
  (∀ a : Point, Point.add .infinity a = a ∧ a.add .infinity = a) ∧
  (∀ a : Point, a.onCurve = true → a.neg.onCurve = true ∧ a.add a.neg = .infinity) ∧
  (∀ a b c : Point, a.onCurve = true → b.onCurve = true → c.onCurve = true →
    (a.add b).add c = a.add (b.add c)) ∧
  (∀ x y : Elem, (Point.affine x y).onCurve = true → y ≠ 0)

/-- R107: PDBL writes A + A; ∞ gives ∞ and no finite point of E does; C is unchanged; PADD of the register
with itself writes the same point. -/
def Obligations.PointDoubling : Prop :=
  ∀ (s : State) (rd ra : Reg),
    HasRow (.pdbl rd ra) 0x33 .r2 ∧
    (s.Ready (.pdbl rd ra) → ∃ t u, exec (.pdbl rd ra) s = .next t ∧ exec (.padd rd ra ra) s = .next u ∧
      s.Succeeded t (some (.p rd)) false 0 ∧ t.pReg rd = Point.add (s.pReg ra) (s.pReg ra) ∧
      t.pReg rd = u.pReg rd ∧
      ((s.pReg ra).onCurve = true → (t.pReg rd = .infinity ↔ s.pReg ra = .infinity)))

/-- R108: PADD writes A + B and sets C exactly when both are finite and equal; opposite points give ∞ with
C = 0, and ∞ is the identity with C = 0. -/
def Obligations.PointAddition : Prop :=
  ∀ (s : State) (rd ra rb : Reg),
    HasRow (.padd rd ra rb) 0x34 .r3 ∧
    (s.Ready (.padd rd ra rb) →
      ∃ t, exec (.padd rd ra rb) s = .next t ∧ s.Succeeded t (some (.p rd)) true 0 ∧
      t.pReg rd = Point.add (s.pReg ra) (s.pReg rb) ∧
      (t.cFlag = true ↔ s.pReg ra ≠ .infinity ∧ s.pReg rb ≠ .infinity ∧ s.pReg ra = s.pReg rb) ∧
      (s.pReg ra = .infinity → t.pReg rd = s.pReg rb ∧ t.cFlag = false) ∧
      (s.pReg rb = .infinity → t.pReg rd = s.pReg ra ∧ t.cFlag = false) ∧
      ((s.pReg ra).onCurve = true → s.pReg rb = (s.pReg ra).neg →
        t.pReg rd = .infinity ∧ t.cFlag = false))

/-- R109, R110, R111: PNEGC negates y iff C and leaves ∞, PSEL selects by C, PISINF tests for ∞. -/
def Obligations.PointConditionals : Prop :=
  ∀ (s : State) (rd ra rb : Reg),
    HasRow (.pnegc rd ra) 0x35 .r2 ∧ HasRow (.psel rd ra rb) 0x36 .r3 ∧
    HasRow (.pisinf ra) 0x37 .s ∧
    (s.Ready (.pnegc rd ra) →
      ∃ t, exec (.pnegc rd ra) s = .next t ∧ s.Succeeded t (some (.p rd)) false 0 ∧
      (s.cFlag = false ∨ s.pReg ra = .infinity → t.pReg rd = s.pReg ra) ∧
      (s.cFlag = true → ∀ x y, s.pReg ra = .affine x y →
        ∃ y' : Elem, t.pReg rd = .affine x y' ∧ y'.toNat < primeP ∧
          (y'.toNat + y.toNat) % primeP = 0)) ∧
    (s.Ready (.psel rd ra rb) →
      ∃ t, exec (.psel rd ra rb) s = .next t ∧ s.Succeeded t (some (.p rd)) false 0 ∧
      t.pReg rd = if s.cFlag then s.pReg ra else s.pReg rb) ∧
    (s.Ready (.pisinf ra) → ∃ t, exec (.pisinf ra) s = .next t ∧ s.Succeeded t none true 0 ∧
      (t.cFlag = true ↔ s.pReg ra = .infinity))

/-! ### The scalar-multiplication datapath and commands -/

/-- A triple of residues that represents a point of E. -/
abbrev Sys2Proof.Machine.Jac.Valid (t : Jac) : Prop :=
  t.x < primeP ∧ t.y < primeP ∧ t.z < primeP ∧ t.toPoint.onCurve = true

/-- R101: the doubler gives a triple of 2·P from every triple of every P of E, ∞ included. -/
def Obligations.DoublerDoublesThePoint : Prop :=
  ∀ t : Jac, t.Valid → (Jac.double t).Valid ∧ (Jac.double t).toPoint = Point.add t.toPoint t.toPoint

/-- R102, R103: the complete adder gives a triple of P + Q from all triples of all P, Q of E; its flag, for
finite inputs, tells whether the points are equal; and so does the adder with an affine second operand. -/
def Obligations.CompleteAdderAddsThePoints : Prop :=
  (∀ a b : Jac, a.Valid → b.Valid →
    (Jac.completeAdd a b).1.Valid ∧ (Jac.completeAdd a b).1.toPoint = Point.add a.toPoint b.toPoint ∧
    (a.toPoint ≠ .infinity → b.toPoint ≠ .infinity →
      ((Jac.completeAdd a b).2 = true ↔ a.toPoint = b.toPoint))) ∧
  (∀ (a : Jac) (q : Point), a.Valid → q.onCurve = true →
    (Jac.completeMixedAdd a q).Valid ∧ (Jac.completeMixedAdd a q).toPoint = Point.add a.toPoint q)

/-- R112, R113: the Booth recoder's magnitude and sign for each 7-bit input, whose digit is
−64·v[6] + v[6:1] + v[0] and lies in [−32, 32]; window j is the seven bits 6j − 1 to 6j + 5; the digits of
the 43 windows reconstruct every 256-bit scalar, and the top digit lies in [0, 16]. -/
def Obligations.BoothDigitsReconstructTheScalar : Prop :=
  (∀ v < 128, boothW6 v = (if 64 ≤ v then ((128 - v) / 2, true) else ((v + 1) / 2, false)) ∧
    boothDigit v = (v / 2 % 64 : Nat) + (v % 2 : Nat) - 64 * (v / 64 : Nat) ∧
    -32 ≤ boothDigit v ∧ boothDigit v ≤ 32) ∧
  (∀ k < 2 ^ 256, ∀ j, windowOf k j = 2 * k / 2 ^ (6 * j) % 128) ∧
  ∀ k < 2 ^ 256,
    (∑ j ∈ Finset.range 43, boothDigit (windowOf k j) * 2 ^ (6 * j)) = (k : Int) ∧
    0 ≤ boothDigit (windowOf k 42) ∧ boothDigit (windowOf k 42) ≤ 16

/-- R114, R115: the variable-base table of a point of E holds its multiples 1 to 32, and lookup-and-negate
of a window value gives the multiple of its digit. -/
def Obligations.LookupGivesTheDigitMultiple : Prop :=
  ∀ q : Point, q.onCurve = true →
    (varTable (Jac.ofPoint q)).length = 32 ∧
    (∀ i < 32, ∃ t, (varTable (Jac.ofPoint q))[i]? = some t ∧ t.toPoint = Point.smul (i + 1) q) ∧
    ∀ v < 128,
      (lookupSigned (varTable (Jac.ofPoint q)) v).toPoint =
        if boothDigit v < 0 then (Point.smul (boothDigit v).natAbs q).neg
        else Point.smul (boothDigit v).natAbs q

/-- R116: the generator ROM holds [(i+1)·2^(6j)]G at entry i of sub-table j, and none is ∞. -/
def Obligations.GeneratorTableHoldsTheMultiples : Prop :=
  ∀ j < 43, (gtTable j).length = 32 ∧
    ∀ i < 32, (gtTable j)[i]? = some (Point.smul ((i + 1) * 2 ^ (6 * j)) Point.generator) ∧
      Point.smul ((i + 1) * 2 ^ (6 * j)) Point.generator ≠ .infinity

/-- R117, R119: PMUL writes [k]B, the k-fold sum of the base point, k the true value of the scalar
register. -/
def Obligations.VariableBaseMultiplication : Prop :=
  ∀ (s : State) (rd ra rb : Reg),
    HasRow (.pmul rd ra rb) 0x38 .r3 ∧
    (s.Ready (.pmul rd ra rb) →
      ∃ t, exec (.pmul rd ra rb) s = .next t ∧ s.Succeeded t (some (.p rd)) false 0 ∧
      ((s.pReg ra).onCurve = true → ∀ k < orderN, k * radixR % orderN = s.nReg rb % orderN →
        t.pReg rd = Point.smul k (s.pReg ra)))

/-- R118, R120: PBMUL writes [k]G, the k-fold sum of the generator, k the true value of the scalar
register; PMUL with a register holding G writes the same point; [1]G = G, and [n − k]G + [k]G = ∞. -/
def Obligations.FixedBaseMultiplication : Prop :=
  ∀ (s : State) (rd ra : Reg),
    HasRow (.pbmul rd ra) 0x39 .r2 ∧
    (s.Ready (.pbmul rd ra) →
      ∃ t, exec (.pbmul rd ra) s = .next t ∧ s.Succeeded t (some (.p rd)) false 0 ∧
        (∀ k < orderN, k * radixR % orderN = s.nReg ra % orderN →
          t.pReg rd = Point.smul k Point.generator) ∧
        ∀ rb, s.Ready (.pmul rd rb ra) → s.pReg rb = Point.generator →
          ∃ u, exec (.pmul rd rb ra) s = .next u ∧ u.pReg rd = t.pReg rd) ∧
    Point.smul 1 Point.generator = .affine (BitVec.ofNat 256 genX) (BitVec.ofNat 256 genY) ∧
    ∀ k ≤ orderN, Point.add (Point.smul (orderN - k) Point.generator)
      (Point.smul k Point.generator) = .infinity

/-! ### Point encoding and decoding -/

/-- R122, R133: PDEC by length and tag, then the range of the coordinates, then the curve equation or the
square root; the compressed form gives the one y of the tag's parity. -/
def Obligations.PointDecoding : Prop :=
  ∀ (s : State) (rd : Reg),
    HasRow (.pdec rd) 0x40 .d ∧
    (s.bufLen = 1 ∧ s.bufByte 0 = 0x00 →
      ∃ t, exec (.pdec rd) s = .next t ∧ s.Succeeded t (some (.p rd)) false 0 ∧
        t.pReg rd = .infinity) ∧
    (s.bufLen = 65 ∧ s.bufByte 0 = 0x04 →
      (primeP ≤ s.bigEndian 1 ∨ primeP ≤ s.bigEndian 33 →
        ∃ t, exec (.pdec rd) s = .next t ∧ s.Raised t 1) ∧
      (s.bigEndian 1 < primeP → s.bigEndian 33 < primeP →
        SatisfiesCurve (s.bigEndian 1) (s.bigEndian 33) →
        ∃ t, exec (.pdec rd) s = .next t ∧ s.Succeeded t (some (.p rd)) false 0 ∧
          t.pReg rd = .affine (BitVec.ofNat 256 (s.bigEndian 1)) (BitVec.ofNat 256 (s.bigEndian 33))) ∧
      (s.bigEndian 1 < primeP → s.bigEndian 33 < primeP →
        ¬SatisfiesCurve (s.bigEndian 1) (s.bigEndian 33) →
        ∃ t, exec (.pdec rd) s = .next t ∧ s.Raised t 2)) ∧
    (s.bufLen = 33 ∧ (s.bufByte 0 = 0x02 ∨ s.bufByte 0 = 0x03) →
      (primeP ≤ s.bigEndian 1 → ∃ t, exec (.pdec rd) s = .next t ∧ s.Raised t 1) ∧
      (s.bigEndian 1 < primeP → (∃ y, SatisfiesCurve (s.bigEndian 1) y) →
        ∃ (t : State) (y : Nat), exec (.pdec rd) s = .next t ∧
          s.Succeeded t (some (.p rd)) false 0 ∧ y < primeP ∧ SatisfiesCurve (s.bigEndian 1) y ∧
          y % 2 = (s.bufByte 0).toNat % 2 ∧
          t.pReg rd = .affine (BitVec.ofNat 256 (s.bigEndian 1)) (BitVec.ofNat 256 y)) ∧
      (s.bigEndian 1 < primeP → (¬∃ y, SatisfiesCurve (s.bigEndian 1) y) →
        ∃ t, exec (.pdec rd) s = .next t ∧ s.Raised t 3)) ∧
    (¬(s.bufLen = 1 ∧ s.bufByte 0 = 0x00) → ¬(s.bufLen = 65 ∧ s.bufByte 0 = 0x04) →
      ¬(s.bufLen = 33 ∧ (s.bufByte 0 = 0x02 ∨ s.bufByte 0 = 0x03)) →
      ∃ t, exec (.pdec rd) s = .next t ∧ s.Raised t 1)

/-- R121, R123, R124: PENC and PENCC write the uncompressed and the compressed form, byte by byte, and the
single byte 00 for ∞; the bytes beyond are unchanged. -/
def Obligations.PointEncoding : Prop :=
  ∀ (s : State) (ra : Reg), s.BufferOk →
    HasRow (.penc ra) 0x41 .s ∧ HasRow (.pencc ra) 0x42 .s ∧
    (s.pReg ra = .infinity → ∀ i ∈ [Instr.penc ra, Instr.pencc ra], s.Ready i →
      ∃ t, exec i s = .next t ∧
      s.Succeeded t none false 1 ∧ t.bufLen = 1 ∧ t.bufByte 0 = 0x00) ∧
    (s.Ready (.penc ra) → ∀ x y, s.pReg ra = .affine x y → ∃ t, exec (.penc ra) s = .next t ∧
      s.Succeeded t none false 65 ∧ t.bufLen = 65 ∧ t.bufByte 0 = 0x04 ∧
      ∀ i < 32, t.bufByte (1 + i) = BitVec.ofNat 8 (x.toNat / 256 ^ (31 - i)) ∧
        t.bufByte (33 + i) = BitVec.ofNat 8 (y.toNat / 256 ^ (31 - i))) ∧
    (s.Ready (.pencc ra) → ∀ x y, s.pReg ra = .affine x y → ∃ t, exec (.pencc ra) s = .next t ∧
      s.Succeeded t none false 33 ∧ t.bufLen = 33 ∧
      t.bufByte 0 = (if y.toNat % 2 = 0 then 0x02 else 0x03) ∧
      ∀ i < 32, t.bufByte (1 + i) = BitVec.ofNat 8 (x.toNat / 256 ^ (31 - i)))

/-- R125: PENCX writes the 32 bytes of the x-coordinate with no tag, and raises InfinityOperandError for
∞. -/
def Obligations.PointXEncoding : Prop :=
  ∀ (s : State) (ra : Reg),
    HasRow (.pencx ra) 0x43 .s ∧
    (s.Ready (.pencx ra) → s.pReg ra = .infinity → ∃ t, exec (.pencx ra) s = .next t ∧ s.Raised t 5) ∧
    (s.BufferOk → s.Ready (.pencx ra) → ∀ x y, s.pReg ra = .affine x y →
      ∃ t, exec (.pencx ra) s = .next t ∧
      s.Succeeded t none false 32 ∧ t.bufLen = 32 ∧
      ∀ i < 32, t.bufByte i = BitVec.ofNat 8 (x.toNat / 256 ^ (31 - i)))

/-- R122, R123, R124: decoding an encoding gives the point back, for both forms and every point of E. -/
def Obligations.DecodingAnEncodingRestoresThePoint : Prop :=
  ∀ (s : State) (rd ra : Reg), s.BufferOk → (s.pReg ra).onCurve = true →
    ∀ i ∈ [Instr.penc ra, Instr.pencc ra], s.Ready i →
      ∃ t u, exec i s = .next t ∧ exec (.pdec rd) t = .next u ∧
      u.err = 0 ∧ u.pReg rd = s.pReg ra

/-! ### Control commands -/

/-- R126, R127: NOP changes no data, and its only word is 0; CSET #0, #1, #2 clear, set and invert C, and
the word with k ≥ 3 is IllegalCommand at decode. -/
def Obligations.ControlCommands : Prop :=
  (∀ s : State, ∃ t, exec .nop s = .next t ∧ s.Succeeded t none false 0) ∧
  HasRow .nop 0x00 .n ∧ (∀ w : Word, decode w = .ok .nop ↔ w = 0) ∧
  ∀ (s : State) (k : BitVec 8),
    HasRow (.cset k) 0x01 .i ∧
    (k.toNat ≤ 2 → s.Ready (.cset k) → ∃ t, exec (.cset k) s = .next t ∧ s.Succeeded t none true 0 ∧
      t.cFlag = (if k.toNat = 2 then !s.cFlag else decide (k.toNat = 1))) ∧
    (3 ≤ k.toNat → s.busy = true → s.cmdl = encode (.cset k) → s.inbox = [] →
      ∃ t, step s = .next t ∧ s.Raised t 6)

/-! ### The host window -/

/-- R41, R42: a CMD write is accepted while BUSY = 0 and dropped, with OVR set, while BUSY = 1; a read of
CMD returns 0. -/
def Obligations.CommandWriteAcceptedOrDropped : Prop :=
  ∀ (s : State) (rest : List HostEvent), s.inReset = false →
    (∀ w, s.inbox = .write 4 0x04 w :: rest → s.busy = false →
      step s = .next { s with inbox := rest, cmdl := w, busy := true, done := false, err := 0 }) ∧
    (∀ w, s.inbox = .write 4 0x04 w :: rest → s.busy = true →
      step s = .next { s with inbox := rest, ovr := true }) ∧
    (s.inbox = .read 4 0x04 :: rest →
      step s = .next { s with inbox := rest, replies := 0 :: s.replies })

/-- R44: the bits a read of STATUS returns, bit 2 being C when BUSY = 0 and C has been written and free
otherwise; and what a write of STATUS clears, in any state. -/
def Obligations.StatusWord : Prop :=
  ∀ (s : State) (rest : List HostEvent), s.inReset = false →
    (s.inbox = .read 4 0x08 :: rest → ∃ (w : Word) (c : Bool) (d : Nat),
      step s = .next { s with inbox := rest, replies := w :: s.replies, draws := d } ∧
      w.getLsbD 0 = s.busy ∧ w.getLsbD 1 = s.done ∧ w.getLsbD 2 = c ∧ w.getLsbD 3 = s.ovr ∧
      w.extractLsb' 4 4 = s.err ∧ w.extractLsb' 8 24 = 0 ∧
      (s.busy = false → s.c.written = true → c = s.c.val)) ∧
    (∀ w, s.inbox = .write 4 0x08 w :: rest →
      step s = .next { s with
        inbox := rest
        done := if w.getLsbD 1 then false else s.done
        err := if w.getLsbD 1 then 0 else s.err
        ovr := if w.getLsbD 3 then false else s.ovr })

/-- R45, R48: BUFLEN reads back and takes a value of at most 65 while BUSY = 0; a larger value is ignored;
while BUSY = 1 a write is dropped with OVR set, and a read returns a free word and changes nothing. -/
def Obligations.BufLenAccess : Prop :=
  ∀ (s : State) (rest : List HostEvent), s.inReset = false →
    (∀ w, s.inbox = .write 4 0x0C w :: rest →
      step s = .next (if s.busy then { s with inbox := rest, ovr := true }
        else if w.toNat ≤ 65 then { s with inbox := rest, bufLen := w.toNat }
        else { s with inbox := rest })) ∧
    (s.inbox = .read 4 0x0C :: rest → ∃ (w : Word) (d : Nat),
      step s = .next { s with inbox := rest, replies := w :: s.replies, draws := d } ∧
      (s.busy = false → s.bufLen ≤ 65 → w.toNat = s.bufLen))

/-- R46, R47, R48: BUFWi holds BUF[4i] to BUF[4i+3], BUF[4i] in the low byte; positions beyond BUF[64] read 0
and ignore writes; a write leaves every other byte and BUFLEN; while BUSY = 1 a write is dropped with OVR
set. -/
def Obligations.BufferWordAccess : Prop :=
  ∀ (s : State) (rest : List HostEvent) (i : Nat), s.inReset = false → s.BufferOk → i ≤ 16 →
    (∀ w, s.inbox = .write 4 (0x40 + 4 * i) w :: rest → s.busy = false →
      ∃ m : Memory, step s = .next { s with inbox := rest, buf := m } ∧ m.wf = true ∧
        ∀ j, State.bufByte { s with buf := m } j =
          if 4 * i ≤ j ∧ j ≤ 4 * i + 3 ∧ j ≤ 64 then w.extractLsb' (8 * (j - 4 * i)) 8
          else s.bufByte j) ∧
    (∀ w, s.inbox = .write 4 (0x40 + 4 * i) w :: rest → s.busy = true →
      step s = .next { s with inbox := rest, ovr := true }) ∧
    (s.inbox = .read 4 (0x40 + 4 * i) :: rest → ∃ (w : Word) (d : Nat),
      step s = .next { s with inbox := rest, replies := w :: s.replies, draws := d } ∧
      (s.busy = false → ∀ k < 4, w.extractLsb' (8 * k) 8 =
        if 4 * i + k ≤ 64 then s.bufByte (4 * i + k) else 0))

/-- R39, R40, R52: a read of any offset changes nothing of the engine; ID reads ID_VALUE in every state;
reserved offsets read 0; writes to ID and reserved offsets change nothing. -/
def Obligations.ReadsHaveNoSideEffect : Prop :=
  ∀ (s : State) (rest : List HostEvent) (off : Nat), s.inReset = false → off % 4 = 0 → off ≤ 0xFC →
    (s.inbox = .read 4 off :: rest → ∃ (w : Word) (d : Nat),
      step s = .next { s with inbox := rest, replies := w :: s.replies, draws := d } ∧
      (off = 0 → w = 0x534D3201) ∧
      ((0x10 ≤ off ∧ off ≤ 0x3C) ∨ 0x84 ≤ off → w = 0)) ∧
    (∀ w, s.inbox = .write 4 off w :: rest →
      off = 0 ∨ (0x10 ≤ off ∧ off ≤ 0x3C) ∨ 0x84 ≤ off →
      step s = .next { s with inbox := rest })

/-- R38, R145: an access that is not 32 bits wide, not aligned, outside the window, or made while reset is
asserted is refused; every other access is carried. -/
def Obligations.PortRefusesOtherAccesses : Prop :=
  ∀ (s : State) (rest : List HostEvent) (width off : Nat) (data : Word),
    ∀ ev ∈ [HostEvent.read width off, HostEvent.write width off data], s.inbox = ev :: rest →
      ((∃ r, step s = .refused r) ↔ s.inReset = true ∨ width ≠ 4 ∨ off % 4 ≠ 0 ∨ 0xFC < off) ∧
      ((∃ t, step s = .next t) ↔ s.inReset = false ∧ width = 4 ∧ off % 4 = 0 ∧ off ≤ 0xFC)

/-! ### Reset, invariants and runs -/

/-- R34, R35, R144, R145, R146: asserting reset, in any state, gives the control and status state and BUF
their reset values, makes every register and C unwritten and signals no completion; so is the state after
reset; and releasing it changes nothing else, so that an idle engine accepts the next CMD write. That reset
is two events, with the field `inReset` between them, is the model's choice (log entry 10); the clauses on
the release rest on it, and hold of a release with no assertion before it, which the model lets pass. -/
def Obligations.ResetClearsTheState : Prop :=
  (∀ (s : State) (rest : List HostEvent), s.inbox = .assertReset :: rest →
    ∃ t, step s = .next t ∧ t.inReset = true ∧ t.inbox = rest ∧
      ∀ u ∈ [t, State.reset], u.busy = false ∧ u.done = false ∧ u.err = 0 ∧ u.ovr = false ∧
        u.cmdl = 0 ∧ u.bufLen = 0 ∧ (∀ k, u.bufByte k = 0) ∧ ∀ r, u.isWritten r = false) ∧
  (∀ (s : State) (rest : List HostEvent), s.inbox = .releaseReset :: rest →
    step s = .next { s with inbox := rest, inReset := false }) ∧
  ∀ (s : State) (w : Word) (rest : List HostEvent), s.busy = false →
    s.inbox = .releaseReset :: .write 4 0x04 w :: rest →
    Host.Core.run Sys2Proof.core 2 s = .next { s with
      inbox := rest, inReset := false, cmdl := w, busy := true, done := false, err := 0 }

/-- R21, R22, R28, R29: from every state in which F values are below p, N values below n, BUF is canonical,
BUFLEN at most 65 and the status bits legal, every step leads to such a state. F and N values are those of
all registers, written or not: that an assertion of reset leads to such a state rests on the reset values
the model names (log entry 1), since R35 leaves them open; and that the control state has its reset values
while reset is asserted rests on log entry 10. -/
def Obligations.StepKeepsRegisterAndStatusRanges : Prop :=
  ∀ s t : State, s.FBelow → s.NBelow → s.BufferOk → s.StatusOk → step s = .next t →
    t.FBelow ∧ t.NBelow ∧ t.BufferOk ∧ t.StatusOk

/-- R23: from every state in which each P register, written or not, holds a point of E, every step leads to
such a state. That an assertion of reset does rests on the reset value ∞ that the model names (log entry
1), since R35 leaves it open whether an unwritten P register holds a point of E. -/
def Obligations.StepKeepsPointsOnTheCurve : Prop :=
  ∀ s t : State, s.POnCurve → step s = .next t → t.POnCurve

/-- The state after reset meets both invariants; that it does for F, N and P rests on the reset values the
model names (log entry 1), which the spec leaves open. -/
def Obligations.ResetStateMeetsTheInvariants : Prop :=
  State.reset.FBelow ∧ State.reset.NBelow ∧ State.reset.POnCurve ∧ State.reset.BufferOk ∧
    State.reset.StatusOk ∧ State.reset.NoUninitRead ∧ State.reset.Over

/-- R54, R132, R152: when the host presents only accesses the port carries, one step for each and one more
ends with no access to come and the engine idle: every accepted command has completed, but for one that
reads a register or C unwritten since reset, which does not complete. -/
def Obligations.EveryAcceptedCommandFinishes : Prop :=
  ∀ s : State, s.inReset = false → (∀ ev ∈ s.inbox, ev.carried = true) →
    ∃ t : State, Host.Core.run Sys2Proof.core (s.inbox.length + 1) s = .next t ∧ t.inbox = [] ∧
      (t.busy = true → ∃ i, decode t.cmdl = .ok i ∧ ¬t.Ready i)

/-- R72: the word-serial Montgomery multiplier (64-bit words, p' = 1, one conditional subtraction) gives the
Montgomery product, for all residues. -/
def Obligations.WordSerialMultiplierIsTheProduct : Prop :=
  ∀ a b, a < primeP → b < primeP → montMulWordSerial a b = montMulP a b ∧
    montMulWordSerial a b < primeP

/-- R153: the engine cycles a command takes to its completion are at least 1, and the same for any two
commands of one OP and IMM, legal or not, whatever the registers, C, BUF and the other fields are and
whether or not they raise an error. The count of cycles, from the list of completed commands, is the
model's own, and LAT is an opaque function (log entry 7). -/
def Obligations.LatencyDependsOnOpAndImmOnly : Prop :=
  ∀ s t s' t' : State, s.busy = true → t.busy = true → s.inbox = [] → t.inbox = [] →
    s.cmdl.extractLsb' 0 8 = t.cmdl.extractLsb' 0 8 →
    s.cmdl.extractLsb' 24 8 = t.cmdl.extractLsb' 24 8 →
    step s = .next s' → step t = .next t' → s'.busy = false → t'.busy = false →
    s.elapsed < s'.elapsed ∧ s'.elapsed + t.elapsed = t'.elapsed + s.elapsed

/-- R59, R70: the host's sequence "fill BUF with k; NLD" on an idle engine loads the Montgomery form of the
scalar k mod n, without error, whatever the bytes are. -/
def Obligations.HostSequenceLoadsAScalar : Prop :=
  ∀ (s : State) (rd : Reg) (k : List Byte), s.inReset = false → s.busy = false → s.inbox = [] →
    s.BufferOk → k.length = 32 →
    ∃ t : State, Host.Core.run Sys2Proof.core (loadScalar rd k).length (s.present (loadScalar rd k))
        = .next t ∧ t.Over ∧ t.err = 0 ∧
      t.nReg rd = beNat k % orderN * radixR % orderN

/-- R38, R53: for every ENGINE_BASE, which may be any multiple of 0x100, an access at ENGINE_BASE + off is
the access at window offset off, wherever the window lies; an access outside the window, or at an address
that is not a multiple of 4, is refused (log entry 9). -/
def Obligations.WindowLiesAtEngineBase : Prop :=
  (∀ a : Nat, (∃ base : EngineBase, base.address = a) ↔ a % 0x100 = 0) ∧
  ∀ (base : EngineBase) (s : State) (width addr : Nat) (data : Word), s.inbox = [] →
    (∀ off < 0x100, addr = base.address + off →
      step (s.presentAt base [.read width addr]) = step (s.present [.read width off]) ∧
      step (s.presentAt base [.write width addr data]) = step (s.present [.write width off data])) ∧
    (addr < base.address ∨ base.address + 0x100 ≤ addr ∨ addr % 4 ≠ 0 →
      ∀ ev ∈ [BusEvent.read width addr, BusEvent.write width addr data],
        ∃ r, step (s.presentAt base [ev]) = .refused r)
end

