-- ==== Sys2Proof/Laws/Arith.lean ====
section
/-! SUPPORT. What the modular operations compute: exponentiation, the bounds of results, and their
values in `ZMod`. -/

namespace Sys2Proof.Machine

theorem powModRounds_modEq (m : Nat) :
    ∀ k b e acc, e < 2 ^ k → powModRounds m k b e acc ≡ acc * b ^ e [MOD m]
  | 0, b, e, acc, h => by
    have he : e = 0 := by simpa using h
    simp [powModRounds, he, Nat.ModEq.refl]
  | k + 1, b, e, acc, h => by
    have hk : e / 2 < 2 ^ k := by rw [pow_succ] at h; omega
    refine (powModRounds_modEq m k _ _ _ hk).trans ?_
    have hb : (b * b % m) ^ (e / 2) ≡ b ^ (2 * (e / 2)) [MOD m] := by
      rw [pow_mul, pow_two]; exact (Nat.mod_modEq _ _).pow _
    split
    · next ho =>
      have he : e = 1 + 2 * (e / 2) := by omega
      conv_rhs => rw [he, pow_add, pow_one, ← mul_assoc]
      exact (Nat.mod_modEq _ _).mul hb
    · next ho =>
      have he : e = 2 * (e / 2) := by omega
      conv_rhs => rw [he]
      exact (Nat.ModEq.refl _).mul hb

theorem powModRounds_lt {m : Nat} (hm : 0 < m) :
    ∀ k b e acc, acc < m → powModRounds m k b e acc < m
  | 0, _, _, _, h => h
  | k + 1, b, e, acc, h => by
    refine powModRounds_lt hm k _ _ _ ?_
    split
    · exact Nat.mod_lt _ hm
    · exact h

/-- `powMod` is the power's residue, for every exponent the machine uses. -/
theorem powMod_eq {m : Nat} (hm : 0 < m) (x : Nat) {e : Nat} (he : e < 2 ^ 256) :
    powMod m x e = x ^ e % m := by
  have h := powModRounds_modEq m 256 (x % m) e (1 % m) he
  have h' : 1 % m * (x % m) ^ e ≡ x ^ e [MOD m] := by
    simpa using (Nat.mod_modEq 1 m).mul ((Nat.mod_modEq x m).pow e)
  have hlt := powModRounds_lt hm 256 (x % m) e (1 % m) (Nat.mod_lt _ hm)
  have := (h.trans h')
  unfold powMod
  rw [← Nat.mod_eq_of_lt hlt]
  exact this

end Sys2Proof.Machine
end

