-- ==== Sys2Proof/Laws/State.lean ====
section
/-! SUPPORT. What each state update does to each field, one lemma a field and update; what reading a
register after writing one gives; and what reading the sources of a command does. -/

namespace Sys2Proof.Machine

variable (s : State)

@[simp] theorem setF_f (i : Reg) (v : Nat) : (s.setF i v).f = s.f.set i.val ⟨BitVec.ofNat 256 v, true⟩ i.isLt := rfl
@[simp] theorem setF_n (i : Reg) (v : Nat) : (s.setF i v).n = s.n := rfl
@[simp] theorem setF_p (i : Reg) (v : Nat) : (s.setF i v).p = s.p := rfl
@[simp] theorem setF_c (i : Reg) (v : Nat) : (s.setF i v).c = s.c := rfl
@[simp] theorem setF_buf (i : Reg) (v : Nat) : (s.setF i v).buf = s.buf := rfl
@[simp] theorem setF_bufLen (i : Reg) (v : Nat) : (s.setF i v).bufLen = s.bufLen := rfl
@[simp] theorem setF_busy (i : Reg) (v : Nat) : (s.setF i v).busy = s.busy := rfl
@[simp] theorem setF_done (i : Reg) (v : Nat) : (s.setF i v).done = s.done := rfl
@[simp] theorem setF_err (i : Reg) (v : Nat) : (s.setF i v).err = s.err := rfl
@[simp] theorem setF_ovr (i : Reg) (v : Nat) : (s.setF i v).ovr = s.ovr := rfl
@[simp] theorem setF_cmdl (i : Reg) (v : Nat) : (s.setF i v).cmdl = s.cmdl := rfl
@[simp] theorem setF_inReset (i : Reg) (v : Nat) : (s.setF i v).inReset = s.inReset := rfl
@[simp] theorem setF_inbox (i : Reg) (v : Nat) : (s.setF i v).inbox = s.inbox := rfl
@[simp] theorem setF_replies (i : Reg) (v : Nat) : (s.setF i v).replies = s.replies := rfl
@[simp] theorem setF_draws (i : Reg) (v : Nat) : (s.setF i v).draws = s.draws := rfl
@[simp] theorem setF_uninit (i : Reg) (v : Nat) : (s.setF i v).uninit = s.uninit := rfl
@[simp] theorem setF_completed (i : Reg) (v : Nat) : (s.setF i v).completed = s.completed := rfl

@[simp] theorem setN_f (i : Reg) (v : Nat) : (s.setN i v).f = s.f := rfl
@[simp] theorem setN_n (i : Reg) (v : Nat) : (s.setN i v).n = s.n.set i.val ⟨BitVec.ofNat 256 v, true⟩ i.isLt := rfl
@[simp] theorem setN_p (i : Reg) (v : Nat) : (s.setN i v).p = s.p := rfl
@[simp] theorem setN_c (i : Reg) (v : Nat) : (s.setN i v).c = s.c := rfl
@[simp] theorem setN_buf (i : Reg) (v : Nat) : (s.setN i v).buf = s.buf := rfl
@[simp] theorem setN_bufLen (i : Reg) (v : Nat) : (s.setN i v).bufLen = s.bufLen := rfl
@[simp] theorem setN_busy (i : Reg) (v : Nat) : (s.setN i v).busy = s.busy := rfl
@[simp] theorem setN_done (i : Reg) (v : Nat) : (s.setN i v).done = s.done := rfl
@[simp] theorem setN_err (i : Reg) (v : Nat) : (s.setN i v).err = s.err := rfl
@[simp] theorem setN_ovr (i : Reg) (v : Nat) : (s.setN i v).ovr = s.ovr := rfl
@[simp] theorem setN_cmdl (i : Reg) (v : Nat) : (s.setN i v).cmdl = s.cmdl := rfl
@[simp] theorem setN_inReset (i : Reg) (v : Nat) : (s.setN i v).inReset = s.inReset := rfl
@[simp] theorem setN_inbox (i : Reg) (v : Nat) : (s.setN i v).inbox = s.inbox := rfl
@[simp] theorem setN_replies (i : Reg) (v : Nat) : (s.setN i v).replies = s.replies := rfl
@[simp] theorem setN_draws (i : Reg) (v : Nat) : (s.setN i v).draws = s.draws := rfl
@[simp] theorem setN_uninit (i : Reg) (v : Nat) : (s.setN i v).uninit = s.uninit := rfl
@[simp] theorem setN_completed (i : Reg) (v : Nat) : (s.setN i v).completed = s.completed := rfl

@[simp] theorem setP_f (i : Reg) (q : Point) : (s.setP i q).f = s.f := rfl
@[simp] theorem setP_n (i : Reg) (q : Point) : (s.setP i q).n = s.n := rfl
@[simp] theorem setP_p (i : Reg) (q : Point) : (s.setP i q).p = s.p.set i.val ⟨q, true⟩ i.isLt := rfl
@[simp] theorem setP_c (i : Reg) (q : Point) : (s.setP i q).c = s.c := rfl
@[simp] theorem setP_buf (i : Reg) (q : Point) : (s.setP i q).buf = s.buf := rfl
@[simp] theorem setP_bufLen (i : Reg) (q : Point) : (s.setP i q).bufLen = s.bufLen := rfl
@[simp] theorem setP_busy (i : Reg) (q : Point) : (s.setP i q).busy = s.busy := rfl
@[simp] theorem setP_done (i : Reg) (q : Point) : (s.setP i q).done = s.done := rfl
@[simp] theorem setP_err (i : Reg) (q : Point) : (s.setP i q).err = s.err := rfl
@[simp] theorem setP_ovr (i : Reg) (q : Point) : (s.setP i q).ovr = s.ovr := rfl
@[simp] theorem setP_cmdl (i : Reg) (q : Point) : (s.setP i q).cmdl = s.cmdl := rfl
@[simp] theorem setP_inReset (i : Reg) (q : Point) : (s.setP i q).inReset = s.inReset := rfl
@[simp] theorem setP_inbox (i : Reg) (q : Point) : (s.setP i q).inbox = s.inbox := rfl
@[simp] theorem setP_replies (i : Reg) (q : Point) : (s.setP i q).replies = s.replies := rfl
@[simp] theorem setP_draws (i : Reg) (q : Point) : (s.setP i q).draws = s.draws := rfl
@[simp] theorem setP_uninit (i : Reg) (q : Point) : (s.setP i q).uninit = s.uninit := rfl
@[simp] theorem setP_completed (i : Reg) (q : Point) : (s.setP i q).completed = s.completed := rfl

@[simp] theorem setC_f (b : Bool) : (s.setC b).f = s.f := rfl
@[simp] theorem setC_n (b : Bool) : (s.setC b).n = s.n := rfl
@[simp] theorem setC_p (b : Bool) : (s.setC b).p = s.p := rfl
@[simp] theorem setC_c (b : Bool) : (s.setC b).c = ⟨b, true⟩ := rfl
@[simp] theorem setC_buf (b : Bool) : (s.setC b).buf = s.buf := rfl
@[simp] theorem setC_bufLen (b : Bool) : (s.setC b).bufLen = s.bufLen := rfl
@[simp] theorem setC_busy (b : Bool) : (s.setC b).busy = s.busy := rfl
@[simp] theorem setC_done (b : Bool) : (s.setC b).done = s.done := rfl
@[simp] theorem setC_err (b : Bool) : (s.setC b).err = s.err := rfl
@[simp] theorem setC_ovr (b : Bool) : (s.setC b).ovr = s.ovr := rfl
@[simp] theorem setC_cmdl (b : Bool) : (s.setC b).cmdl = s.cmdl := rfl
@[simp] theorem setC_inReset (b : Bool) : (s.setC b).inReset = s.inReset := rfl
@[simp] theorem setC_inbox (b : Bool) : (s.setC b).inbox = s.inbox := rfl
@[simp] theorem setC_replies (b : Bool) : (s.setC b).replies = s.replies := rfl
@[simp] theorem setC_draws (b : Bool) : (s.setC b).draws = s.draws := rfl
@[simp] theorem setC_uninit (b : Bool) : (s.setC b).uninit = s.uninit := rfl
@[simp] theorem setC_completed (b : Bool) : (s.setC b).completed = s.completed := rfl

@[simp] theorem memWrite_f (off : Nat) (bs : List Byte) : (s.memWrite off bs).f = s.f := rfl
@[simp] theorem memWrite_n (off : Nat) (bs : List Byte) : (s.memWrite off bs).n = s.n := rfl
@[simp] theorem memWrite_p (off : Nat) (bs : List Byte) : (s.memWrite off bs).p = s.p := rfl
@[simp] theorem memWrite_c (off : Nat) (bs : List Byte) : (s.memWrite off bs).c = s.c := rfl
@[simp] theorem memWrite_buf (off : Nat) (bs : List Byte) : (s.memWrite off bs).buf = Memory.putBytes s.buf off bs := rfl
@[simp] theorem memWrite_bufLen (off : Nat) (bs : List Byte) : (s.memWrite off bs).bufLen = s.bufLen := rfl
@[simp] theorem memWrite_busy (off : Nat) (bs : List Byte) : (s.memWrite off bs).busy = s.busy := rfl
@[simp] theorem memWrite_done (off : Nat) (bs : List Byte) : (s.memWrite off bs).done = s.done := rfl
@[simp] theorem memWrite_err (off : Nat) (bs : List Byte) : (s.memWrite off bs).err = s.err := rfl
@[simp] theorem memWrite_ovr (off : Nat) (bs : List Byte) : (s.memWrite off bs).ovr = s.ovr := rfl
@[simp] theorem memWrite_cmdl (off : Nat) (bs : List Byte) : (s.memWrite off bs).cmdl = s.cmdl := rfl
@[simp] theorem memWrite_inReset (off : Nat) (bs : List Byte) : (s.memWrite off bs).inReset = s.inReset := rfl
@[simp] theorem memWrite_inbox (off : Nat) (bs : List Byte) : (s.memWrite off bs).inbox = s.inbox := rfl
@[simp] theorem memWrite_replies (off : Nat) (bs : List Byte) : (s.memWrite off bs).replies = s.replies := rfl
@[simp] theorem memWrite_draws (off : Nat) (bs : List Byte) : (s.memWrite off bs).draws = s.draws := rfl
@[simp] theorem memWrite_uninit (off : Nat) (bs : List Byte) : (s.memWrite off bs).uninit = s.uninit := rfl
@[simp] theorem memWrite_completed (off : Nat) (bs : List Byte) : (s.memWrite off bs).completed = s.completed := rfl

@[simp] theorem setBufLen_f (k : Nat) : (s.setBufLen k).f = s.f := rfl
@[simp] theorem setBufLen_n (k : Nat) : (s.setBufLen k).n = s.n := rfl
@[simp] theorem setBufLen_p (k : Nat) : (s.setBufLen k).p = s.p := rfl
@[simp] theorem setBufLen_c (k : Nat) : (s.setBufLen k).c = s.c := rfl
@[simp] theorem setBufLen_buf (k : Nat) : (s.setBufLen k).buf = s.buf := rfl
@[simp] theorem setBufLen_bufLen (k : Nat) : (s.setBufLen k).bufLen = k := rfl
@[simp] theorem setBufLen_busy (k : Nat) : (s.setBufLen k).busy = s.busy := rfl
@[simp] theorem setBufLen_done (k : Nat) : (s.setBufLen k).done = s.done := rfl
@[simp] theorem setBufLen_err (k : Nat) : (s.setBufLen k).err = s.err := rfl
@[simp] theorem setBufLen_ovr (k : Nat) : (s.setBufLen k).ovr = s.ovr := rfl
@[simp] theorem setBufLen_cmdl (k : Nat) : (s.setBufLen k).cmdl = s.cmdl := rfl
@[simp] theorem setBufLen_inReset (k : Nat) : (s.setBufLen k).inReset = s.inReset := rfl
@[simp] theorem setBufLen_inbox (k : Nat) : (s.setBufLen k).inbox = s.inbox := rfl
@[simp] theorem setBufLen_replies (k : Nat) : (s.setBufLen k).replies = s.replies := rfl
@[simp] theorem setBufLen_draws (k : Nat) : (s.setBufLen k).draws = s.draws := rfl
@[simp] theorem setBufLen_uninit (k : Nat) : (s.setBufLen k).uninit = s.uninit := rfl
@[simp] theorem setBufLen_completed (k : Nat) : (s.setBufLen k).completed = s.completed := rfl

@[simp] theorem output_f (bs : List Byte) : (s.output bs).f = s.f := rfl
@[simp] theorem output_n (bs : List Byte) : (s.output bs).n = s.n := rfl
@[simp] theorem output_p (bs : List Byte) : (s.output bs).p = s.p := rfl
@[simp] theorem output_c (bs : List Byte) : (s.output bs).c = s.c := rfl
@[simp] theorem output_buf (bs : List Byte) : (s.output bs).buf = Memory.putBytes s.buf 0 bs := rfl
@[simp] theorem output_bufLen (bs : List Byte) : (s.output bs).bufLen = bs.length := rfl
@[simp] theorem output_busy (bs : List Byte) : (s.output bs).busy = s.busy := rfl
@[simp] theorem output_done (bs : List Byte) : (s.output bs).done = s.done := rfl
@[simp] theorem output_err (bs : List Byte) : (s.output bs).err = s.err := rfl
@[simp] theorem output_ovr (bs : List Byte) : (s.output bs).ovr = s.ovr := rfl
@[simp] theorem output_cmdl (bs : List Byte) : (s.output bs).cmdl = s.cmdl := rfl
@[simp] theorem output_inReset (bs : List Byte) : (s.output bs).inReset = s.inReset := rfl
@[simp] theorem output_inbox (bs : List Byte) : (s.output bs).inbox = s.inbox := rfl
@[simp] theorem output_replies (bs : List Byte) : (s.output bs).replies = s.replies := rfl
@[simp] theorem output_draws (bs : List Byte) : (s.output bs).draws = s.draws := rfl
@[simp] theorem output_uninit (bs : List Byte) : (s.output bs).uninit = s.uninit := rfl
@[simp] theorem output_completed (bs : List Byte) : (s.output bs).completed = s.completed := rfl

@[simp] theorem complete_f (e : BitVec 4) : (s.complete e).f = s.f := rfl
@[simp] theorem complete_n (e : BitVec 4) : (s.complete e).n = s.n := rfl
@[simp] theorem complete_p (e : BitVec 4) : (s.complete e).p = s.p := rfl
@[simp] theorem complete_c (e : BitVec 4) : (s.complete e).c = s.c := rfl
@[simp] theorem complete_buf (e : BitVec 4) : (s.complete e).buf = s.buf := rfl
@[simp] theorem complete_bufLen (e : BitVec 4) : (s.complete e).bufLen = s.bufLen := rfl
@[simp] theorem complete_busy (e : BitVec 4) : (s.complete e).busy = false := rfl
@[simp] theorem complete_done (e : BitVec 4) : (s.complete e).done = true := rfl
@[simp] theorem complete_err (e : BitVec 4) : (s.complete e).err = e := rfl
@[simp] theorem complete_ovr (e : BitVec 4) : (s.complete e).ovr = s.ovr := rfl
@[simp] theorem complete_cmdl (e : BitVec 4) : (s.complete e).cmdl = s.cmdl := rfl
@[simp] theorem complete_inReset (e : BitVec 4) : (s.complete e).inReset = s.inReset := rfl
@[simp] theorem complete_inbox (e : BitVec 4) : (s.complete e).inbox = s.inbox := rfl
@[simp] theorem complete_replies (e : BitVec 4) : (s.complete e).replies = s.replies := rfl
@[simp] theorem complete_draws (e : BitVec 4) : (s.complete e).draws = s.draws := rfl
@[simp] theorem complete_uninit (e : BitVec 4) : (s.complete e).uninit = s.uninit := rfl
@[simp] theorem complete_completed (e : BitVec 4) : (s.complete e).completed = s.timing :: s.completed := rfl

@[simp] theorem acknowledge_f : (s.acknowledge).f = s.f := rfl
@[simp] theorem acknowledge_n : (s.acknowledge).n = s.n := rfl
@[simp] theorem acknowledge_p : (s.acknowledge).p = s.p := rfl
@[simp] theorem acknowledge_c : (s.acknowledge).c = s.c := rfl
@[simp] theorem acknowledge_buf : (s.acknowledge).buf = s.buf := rfl
@[simp] theorem acknowledge_bufLen : (s.acknowledge).bufLen = s.bufLen := rfl
@[simp] theorem acknowledge_busy : (s.acknowledge).busy = s.busy := rfl
@[simp] theorem acknowledge_done : (s.acknowledge).done = false := rfl
@[simp] theorem acknowledge_err : (s.acknowledge).err = 0 := rfl
@[simp] theorem acknowledge_ovr : (s.acknowledge).ovr = s.ovr := rfl
@[simp] theorem acknowledge_cmdl : (s.acknowledge).cmdl = s.cmdl := rfl
@[simp] theorem acknowledge_inReset : (s.acknowledge).inReset = s.inReset := rfl
@[simp] theorem acknowledge_inbox : (s.acknowledge).inbox = s.inbox := rfl
@[simp] theorem acknowledge_replies : (s.acknowledge).replies = s.replies := rfl
@[simp] theorem acknowledge_draws : (s.acknowledge).draws = s.draws := rfl
@[simp] theorem acknowledge_uninit : (s.acknowledge).uninit = s.uninit := rfl
@[simp] theorem acknowledge_completed : (s.acknowledge).completed = s.completed := rfl

@[simp] theorem accept_f (w : Word) : (s.accept w).f = s.f := rfl
@[simp] theorem accept_n (w : Word) : (s.accept w).n = s.n := rfl
@[simp] theorem accept_p (w : Word) : (s.accept w).p = s.p := rfl
@[simp] theorem accept_c (w : Word) : (s.accept w).c = s.c := rfl
@[simp] theorem accept_buf (w : Word) : (s.accept w).buf = s.buf := rfl
@[simp] theorem accept_bufLen (w : Word) : (s.accept w).bufLen = s.bufLen := rfl
@[simp] theorem accept_busy (w : Word) : (s.accept w).busy = true := rfl
@[simp] theorem accept_done (w : Word) : (s.accept w).done = false := rfl
@[simp] theorem accept_err (w : Word) : (s.accept w).err = 0 := rfl
@[simp] theorem accept_ovr (w : Word) : (s.accept w).ovr = s.ovr := rfl
@[simp] theorem accept_cmdl (w : Word) : (s.accept w).cmdl = w := rfl
@[simp] theorem accept_inReset (w : Word) : (s.accept w).inReset = s.inReset := rfl
@[simp] theorem accept_inbox (w : Word) : (s.accept w).inbox = s.inbox := rfl
@[simp] theorem accept_replies (w : Word) : (s.accept w).replies = s.replies := rfl
@[simp] theorem accept_draws (w : Word) : (s.accept w).draws = s.draws := rfl
@[simp] theorem accept_uninit (w : Word) : (s.accept w).uninit = s.uninit := rfl
@[simp] theorem accept_completed (w : Word) : (s.accept w).completed = s.completed := rfl

@[simp] theorem overrun_f : (s.overrun).f = s.f := rfl
@[simp] theorem overrun_n : (s.overrun).n = s.n := rfl
@[simp] theorem overrun_p : (s.overrun).p = s.p := rfl
@[simp] theorem overrun_c : (s.overrun).c = s.c := rfl
@[simp] theorem overrun_buf : (s.overrun).buf = s.buf := rfl
@[simp] theorem overrun_bufLen : (s.overrun).bufLen = s.bufLen := rfl
@[simp] theorem overrun_busy : (s.overrun).busy = s.busy := rfl
@[simp] theorem overrun_done : (s.overrun).done = s.done := rfl
@[simp] theorem overrun_err : (s.overrun).err = s.err := rfl
@[simp] theorem overrun_ovr : (s.overrun).ovr = true := rfl
@[simp] theorem overrun_cmdl : (s.overrun).cmdl = s.cmdl := rfl
@[simp] theorem overrun_inReset : (s.overrun).inReset = s.inReset := rfl
@[simp] theorem overrun_inbox : (s.overrun).inbox = s.inbox := rfl
@[simp] theorem overrun_replies : (s.overrun).replies = s.replies := rfl
@[simp] theorem overrun_draws : (s.overrun).draws = s.draws := rfl
@[simp] theorem overrun_uninit : (s.overrun).uninit = s.uninit := rfl
@[simp] theorem overrun_completed : (s.overrun).completed = s.completed := rfl

@[simp] theorem clearOvr_f : (s.clearOvr).f = s.f := rfl
@[simp] theorem clearOvr_n : (s.clearOvr).n = s.n := rfl
@[simp] theorem clearOvr_p : (s.clearOvr).p = s.p := rfl
@[simp] theorem clearOvr_c : (s.clearOvr).c = s.c := rfl
@[simp] theorem clearOvr_buf : (s.clearOvr).buf = s.buf := rfl
@[simp] theorem clearOvr_bufLen : (s.clearOvr).bufLen = s.bufLen := rfl
@[simp] theorem clearOvr_busy : (s.clearOvr).busy = s.busy := rfl
@[simp] theorem clearOvr_done : (s.clearOvr).done = s.done := rfl
@[simp] theorem clearOvr_err : (s.clearOvr).err = s.err := rfl
@[simp] theorem clearOvr_ovr : (s.clearOvr).ovr = false := rfl
@[simp] theorem clearOvr_cmdl : (s.clearOvr).cmdl = s.cmdl := rfl
@[simp] theorem clearOvr_inReset : (s.clearOvr).inReset = s.inReset := rfl
@[simp] theorem clearOvr_inbox : (s.clearOvr).inbox = s.inbox := rfl
@[simp] theorem clearOvr_replies : (s.clearOvr).replies = s.replies := rfl
@[simp] theorem clearOvr_draws : (s.clearOvr).draws = s.draws := rfl
@[simp] theorem clearOvr_uninit : (s.clearOvr).uninit = s.uninit := rfl
@[simp] theorem clearOvr_completed : (s.clearOvr).completed = s.completed := rfl

@[simp] theorem drawn_f : (s.drawn).f = s.f := rfl
@[simp] theorem drawn_n : (s.drawn).n = s.n := rfl
@[simp] theorem drawn_p : (s.drawn).p = s.p := rfl
@[simp] theorem drawn_c : (s.drawn).c = s.c := rfl
@[simp] theorem drawn_buf : (s.drawn).buf = s.buf := rfl
@[simp] theorem drawn_bufLen : (s.drawn).bufLen = s.bufLen := rfl
@[simp] theorem drawn_busy : (s.drawn).busy = s.busy := rfl
@[simp] theorem drawn_done : (s.drawn).done = s.done := rfl
@[simp] theorem drawn_err : (s.drawn).err = s.err := rfl
@[simp] theorem drawn_ovr : (s.drawn).ovr = s.ovr := rfl
@[simp] theorem drawn_cmdl : (s.drawn).cmdl = s.cmdl := rfl
@[simp] theorem drawn_inReset : (s.drawn).inReset = s.inReset := rfl
@[simp] theorem drawn_inbox : (s.drawn).inbox = s.inbox := rfl
@[simp] theorem drawn_replies : (s.drawn).replies = s.replies := rfl
@[simp] theorem drawn_draws : (s.drawn).draws = s.draws + 1 := rfl
@[simp] theorem drawn_uninit : (s.drawn).uninit = s.uninit := rfl
@[simp] theorem drawn_completed : (s.drawn).completed = s.completed := rfl

@[simp] theorem reply_f (w : Word) : (s.reply w).f = s.f := rfl
@[simp] theorem reply_n (w : Word) : (s.reply w).n = s.n := rfl
@[simp] theorem reply_p (w : Word) : (s.reply w).p = s.p := rfl
@[simp] theorem reply_c (w : Word) : (s.reply w).c = s.c := rfl
@[simp] theorem reply_buf (w : Word) : (s.reply w).buf = s.buf := rfl
@[simp] theorem reply_bufLen (w : Word) : (s.reply w).bufLen = s.bufLen := rfl
@[simp] theorem reply_busy (w : Word) : (s.reply w).busy = s.busy := rfl
@[simp] theorem reply_done (w : Word) : (s.reply w).done = s.done := rfl
@[simp] theorem reply_err (w : Word) : (s.reply w).err = s.err := rfl
@[simp] theorem reply_ovr (w : Word) : (s.reply w).ovr = s.ovr := rfl
@[simp] theorem reply_cmdl (w : Word) : (s.reply w).cmdl = s.cmdl := rfl
@[simp] theorem reply_inReset (w : Word) : (s.reply w).inReset = s.inReset := rfl
@[simp] theorem reply_inbox (w : Word) : (s.reply w).inbox = s.inbox := rfl
@[simp] theorem reply_replies (w : Word) : (s.reply w).replies = w :: s.replies := rfl
@[simp] theorem reply_draws (w : Word) : (s.reply w).draws = s.draws := rfl
@[simp] theorem reply_uninit (w : Word) : (s.reply w).uninit = s.uninit := rfl
@[simp] theorem reply_completed (w : Word) : (s.reply w).completed = s.completed := rfl

@[simp] theorem releaseReset_f : (s.releaseReset).f = s.f := rfl
@[simp] theorem releaseReset_n : (s.releaseReset).n = s.n := rfl
@[simp] theorem releaseReset_p : (s.releaseReset).p = s.p := rfl
@[simp] theorem releaseReset_c : (s.releaseReset).c = s.c := rfl
@[simp] theorem releaseReset_buf : (s.releaseReset).buf = s.buf := rfl
@[simp] theorem releaseReset_bufLen : (s.releaseReset).bufLen = s.bufLen := rfl
@[simp] theorem releaseReset_busy : (s.releaseReset).busy = s.busy := rfl
@[simp] theorem releaseReset_done : (s.releaseReset).done = s.done := rfl
@[simp] theorem releaseReset_err : (s.releaseReset).err = s.err := rfl
@[simp] theorem releaseReset_ovr : (s.releaseReset).ovr = s.ovr := rfl
@[simp] theorem releaseReset_cmdl : (s.releaseReset).cmdl = s.cmdl := rfl
@[simp] theorem releaseReset_inReset : (s.releaseReset).inReset = false := rfl
@[simp] theorem releaseReset_inbox : (s.releaseReset).inbox = s.inbox := rfl
@[simp] theorem releaseReset_replies : (s.releaseReset).replies = s.replies := rfl
@[simp] theorem releaseReset_draws : (s.releaseReset).draws = s.draws := rfl
@[simp] theorem releaseReset_uninit : (s.releaseReset).uninit = s.uninit := rfl
@[simp] theorem releaseReset_completed : (s.releaseReset).completed = s.completed := rfl

@[simp] theorem assertReset_f : s.assertReset.f = State.reset.f := rfl
@[simp] theorem assertReset_n : s.assertReset.n = State.reset.n := rfl
@[simp] theorem assertReset_p : s.assertReset.p = State.reset.p := rfl
@[simp] theorem assertReset_c : s.assertReset.c = State.reset.c := rfl
@[simp] theorem assertReset_buf : s.assertReset.buf = State.reset.buf := rfl
@[simp] theorem assertReset_bufLen : s.assertReset.bufLen = State.reset.bufLen := rfl
@[simp] theorem assertReset_busy : s.assertReset.busy = State.reset.busy := rfl
@[simp] theorem assertReset_done : s.assertReset.done = State.reset.done := rfl
@[simp] theorem assertReset_err : s.assertReset.err = State.reset.err := rfl
@[simp] theorem assertReset_ovr : s.assertReset.ovr = State.reset.ovr := rfl
@[simp] theorem assertReset_cmdl : s.assertReset.cmdl = State.reset.cmdl := rfl
@[simp] theorem assertReset_inReset : s.assertReset.inReset = true := rfl
@[simp] theorem assertReset_inbox : s.assertReset.inbox = s.inbox := rfl
@[simp] theorem assertReset_replies : s.assertReset.replies = s.replies := rfl
@[simp] theorem assertReset_draws : s.assertReset.draws = s.draws := rfl
@[simp] theorem assertReset_uninit : s.assertReset.uninit = s.uninit := rfl
@[simp] theorem assertReset_completed : s.assertReset.completed = s.completed := rfl

@[simp] theorem recordUninit_f (r : RegName) : (s.recordUninit r).f = s.f := rfl
@[simp] theorem recordUninit_n (r : RegName) : (s.recordUninit r).n = s.n := rfl
@[simp] theorem recordUninit_p (r : RegName) : (s.recordUninit r).p = s.p := rfl
@[simp] theorem recordUninit_c (r : RegName) : (s.recordUninit r).c = s.c := rfl
@[simp] theorem recordUninit_buf (r : RegName) : (s.recordUninit r).buf = s.buf := rfl
@[simp] theorem recordUninit_bufLen (r : RegName) : (s.recordUninit r).bufLen = s.bufLen := rfl
@[simp] theorem recordUninit_busy (r : RegName) : (s.recordUninit r).busy = s.busy := rfl
@[simp] theorem recordUninit_done (r : RegName) : (s.recordUninit r).done = s.done := rfl
@[simp] theorem recordUninit_err (r : RegName) : (s.recordUninit r).err = s.err := rfl
@[simp] theorem recordUninit_ovr (r : RegName) : (s.recordUninit r).ovr = s.ovr := rfl
@[simp] theorem recordUninit_cmdl (r : RegName) : (s.recordUninit r).cmdl = s.cmdl := rfl
@[simp] theorem recordUninit_inReset (r : RegName) : (s.recordUninit r).inReset = s.inReset := rfl
@[simp] theorem recordUninit_inbox (r : RegName) : (s.recordUninit r).inbox = s.inbox := rfl
@[simp] theorem recordUninit_replies (r : RegName) : (s.recordUninit r).replies = s.replies := rfl
@[simp] theorem recordUninit_draws (r : RegName) : (s.recordUninit r).draws = s.draws := rfl
@[simp] theorem recordUninit_completed (r : RegName) : (s.recordUninit r).completed = s.completed := rfl
@[simp] theorem recordUninit_uninit (r : RegName) : (s.recordUninit r).uninit = s.uninit.or (some r) := rfl

/-- Everything reading the sources `rs` does: they are all written and the command goes on, or one is not,
and the first such is recorded. -/
theorem reading_cases (rs : List RegName) (rest : Host.Outcome State Fault Refusal) :
    ((∀ r ∈ rs, s.isWritten r = true) ∧ s.reading rs rest = rest) ∨
    ∃ r ∈ rs, s.isWritten r = false ∧ s.firstUnwritten rs = some r ∧
      s.reading rs rest = .next (s.recordUninit r) := by
  unfold State.reading
  cases h : s.firstUnwritten rs with
  | none =>
    refine .inl ⟨fun r hr => ?_, rfl⟩
    simpa using List.find?_eq_none.1 h r hr
  | some r =>
    exact .inr ⟨r, List.mem_of_find?_eq_some h, by simpa using List.find?_some h, rfl, rfl⟩

/-- A command all of whose sources are written goes on. -/
theorem reading_written {rs : List RegName} (h : ∀ r ∈ rs, s.isWritten r = true)
    (rest : Host.Outcome State Fault Refusal) : s.reading rs rest = rest := by
  rcases reading_cases s rs rest with ⟨-, h'⟩ | ⟨r, hr, hw, -⟩
  · exact h'
  · rw [h r hr] at hw; cases hw

/-- A command that reads no register or flag goes on. -/
@[simp] theorem reading_nil (rest : Host.Outcome State Fault Refusal) : s.reading [] rest = rest := rfl

/-- A completion takes the latency of the latched command, and nothing else a command does takes time. -/
theorem complete_elapsed (e : BitVec 4) : (s.complete e).elapsed = s.latency + s.elapsed := by
  simp [State.elapsed, State.latency]

theorem elapsed_congr {s t : State} (h : t.completed = s.completed) : t.elapsed = s.elapsed := by
  unfold State.elapsed; rw [h]

/-- The register written reads the value, as 256 bits; every other register is as before. -/
theorem fReg_setF (i j : Reg) (v : Nat) :
    (s.setF i v).fReg j = if i = j then v % 2 ^ 256 else s.fReg j := by
  unfold State.fReg
  rw [setF_f, Vector.get_eq_getElem, Vector.getElem_set]
  split
  · next h => rw [if_pos (Fin.ext h)]; exact BitVec.toNat_ofNat _ _
  · next h => rw [if_neg (fun e => h (congrArg Fin.val e))]; rfl

theorem nReg_setN (i j : Reg) (v : Nat) :
    (s.setN i v).nReg j = if i = j then v % 2 ^ 256 else s.nReg j := by
  unfold State.nReg
  rw [setN_n, Vector.get_eq_getElem, Vector.getElem_set]
  split
  · next h => rw [if_pos (Fin.ext h)]; exact BitVec.toNat_ofNat _ _
  · next h => rw [if_neg (fun e => h (congrArg Fin.val e))]; rfl

theorem pReg_setP (i j : Reg) (q : Point) :
    (s.setP i q).pReg j = if i = j then q else s.pReg j := by
  unfold State.pReg
  rw [setP_p, Vector.get_eq_getElem, Vector.getElem_set]
  split
  · next h => rw [if_pos (Fin.ext h)]
  · next h => rw [if_neg (fun e => h (congrArg Fin.val e))]; rfl

/-- Setting one slot of a register file leaves every other slot, mark included. -/
theorem vector_get_set_ne {α : Type} (v : Vector α 16) {i j : Reg} (h : j ≠ i) (x : α) :
    (v.set i.val x i.isLt).get j = v.get j := by
  rw [Vector.get_eq_getElem, Vector.getElem_set_ne]
  · rfl
  · exact fun e => h (Fin.ext e.symm)

theorem vector_get_set_self {α : Type} (v : Vector α 16) (i : Reg) (x : α) :
    (v.set i.val x i.isLt).get i = x := by
  rw [Vector.get_eq_getElem]; exact Vector.getElem_set_self i.isLt

@[simp] theorem setC_cFlag (b : Bool) : (s.setC b).cFlag = b := rfl

/-- A view of a register that looks at one file is unchanged by an update of another field. -/
theorem fReg_congr {s t : State} (h : t.f = s.f) (i : Reg) : t.fReg i = s.fReg i := by
  unfold State.fReg; rw [h]

theorem nReg_congr {s t : State} (h : t.n = s.n) (i : Reg) : t.nReg i = s.nReg i := by
  unfold State.nReg; rw [h]

theorem pReg_congr {s t : State} (h : t.p = s.p) (i : Reg) : t.pReg i = s.pReg i := by
  unfold State.pReg; rw [h]

theorem bufByte_congr {s t : State} (h : t.buf = s.buf) (k : Nat) : t.bufByte k = s.bufByte k := by
  unfold State.bufByte; rw [h]

/-- The event in front of the inbox is taken before it has its effect; nothing else of the state changes. -/
theorem move_eq (s : State) :
    s.move = match s.inbox with
      | [] => s.engineStep
      | ev :: rest => State.hostEvent { s with inbox := rest } ev := rfl

end Sys2Proof.Machine
end

