-- ==== Sys2Proof/Laws/Buffer.lean ====
section
/-! SUPPORT. The laws of BUF: a read after a write, the canonical form and that every memory operation
keeps it, and big-endian strings. -/

namespace Sys2Proof.Machine

/-- A read after a write gives the byte written there, and every other index is as before. -/
theorem memory_read_write {lo : Nat} : ∀ {m : Memory}, Memory.wfFrom lo m = true → ∀ (k : Nat) (v : Byte)
    (j : Nat), Memory.read (Memory.write m k v) j = if j = k then v else Memory.read m j
  | [], _, k, v, j => by
    by_cases hj : j = k
    · by_cases hv : v = Memory.blankByte <;> simp [Memory.write, Memory.read, hv, hj]
    · by_cases hv : v = Memory.blankByte <;> simp [Memory.write, Memory.read, hv, hj, Ne.symm hj]
  | (a, x) :: m, h, k, v, j => by
    simp only [Memory.wfFrom, Bool.and_eq_true, decide_eq_true_eq] at h
    obtain ⟨⟨⟨hlo, ha⟩, hx⟩, hm⟩ := h
    have below : ∀ {lo : Nat} {m : Memory}, Memory.wfFrom lo m = true → ∀ i, i < lo →
        Memory.read m i = Memory.blankByte := by
      intro lo m
      induction m generalizing lo with
      | nil => intro _ _ _; rfl
      | cons c m ih =>
        intro h i hi
        obtain ⟨b, y⟩ := c
        simp only [Memory.wfFrom, Bool.and_eq_true, decide_eq_true_eq] at h
        rw [Memory.read, if_neg (by omega)]
        exact ih h.2 i (by omega)
    have ih := memory_read_write hm k v j
    unfold Memory.write
    split
    · next hka =>
      split
      · next hv =>
        by_cases hj : j = k
        · subst hj
          rw [if_pos rfl, hv, Memory.read, if_neg (by omega)]
          exact below hm _ (by omega)
        · rw [if_neg hj]
      · rw [Memory.read]
        by_cases hj : j = k
        · rw [if_pos hj.symm, if_pos hj]
        · rw [if_neg (Ne.symm hj), if_neg hj]
    · next hka =>
      split
      · next hk =>
        subst hk
        split
        · next hv =>
          by_cases hj : j = k
          · subst hj; rw [if_pos rfl, hv]; exact below hm _ (by omega)
          · rw [if_neg hj, Memory.read, if_neg (Ne.symm hj)]
        · by_cases hj : j = k
          · simp [Memory.read, hj]
          · simp [Memory.read, hj, Ne.symm hj]
      · next hk =>
        simp only [Memory.read]
        by_cases hj : a = j
        · rw [if_pos hj, if_neg (by omega), if_pos hj]
        · rw [if_neg hj, ih, if_neg hj]

theorem memory_wfFrom_mono {lo lo' : Nat} (hle : lo' ≤ lo) :
    ∀ {m : Memory}, Memory.wfFrom lo m = true → Memory.wfFrom lo' m = true
  | [], _ => rfl
  | (a, x) :: m, h => by
    simp only [Memory.wfFrom, Bool.and_eq_true, decide_eq_true_eq] at h ⊢
    exact ⟨⟨⟨by omega, h.1.1.2⟩, h.1.2⟩, h.2⟩

theorem memory_wfFrom_write {lo k : Nat} (hlo : lo ≤ k) (hk : k < 65) (v : Byte) :
    ∀ {m : Memory}, Memory.wfFrom lo m = true → Memory.wfFrom lo (Memory.write m k v) = true
  | [], _ => by
    unfold Memory.write
    split
    · rfl
    · next hv => simp [Memory.wfFrom, hlo, hk, hv]
  | (a, x) :: m, h => by
    have h' := h
    simp only [Memory.wfFrom, Bool.and_eq_true, decide_eq_true_eq] at h
    obtain ⟨⟨⟨h1, h2⟩, h3⟩, h4⟩ := h
    unfold Memory.write
    split
    · next hka =>
      split
      · exact h'
      · next hv =>
        simp only [Memory.wfFrom, Bool.and_eq_true, decide_eq_true_eq]
        exact ⟨⟨⟨hlo, hk⟩, hv⟩, ⟨⟨by omega, h2⟩, h3⟩, h4⟩
    · next hka =>
      split
      · next hk' =>
        subst hk'
        split
        · exact memory_wfFrom_mono (by omega) h4
        · next hv =>
          simp only [Memory.wfFrom, Bool.and_eq_true, decide_eq_true_eq]
          exact ⟨⟨⟨hlo, hk⟩, hv⟩, h4⟩
      · next hk' =>
        simp only [Memory.wfFrom, Bool.and_eq_true, decide_eq_true_eq]
        exact ⟨⟨⟨h1, h2⟩, h3⟩, memory_wfFrom_write (by omega) hk v h4⟩

theorem memory_put_wf {m : Memory} (h : m.wf = true) (k : Nat) (v : Byte) :
    (Memory.put m k v).wf = true := by
  unfold Memory.put
  split
  · next hk => exact memory_wfFrom_write (Nat.zero_le _) hk v h
  · exact h

theorem memory_putBytes_wf : ∀ (bs : List Byte) {m : Memory} (off : Nat), m.wf = true →
    (Memory.putBytes m off bs).wf = true
  | [], _, _, h => h
  | b :: bs, _, off, h => memory_putBytes_wf bs (off + 1) (memory_put_wf h off b)

/-- One byte put: the byte where it is written, inside BUF. -/
theorem memory_read_put {m : Memory} (h : m.wf = true) (k : Nat) (v : Byte) (j : Nat) :
    Memory.read (Memory.put m k v) j = if j = k ∧ k < 65 then v else Memory.read m j := by
  unfold Memory.put
  split
  · next hk => rw [memory_read_write h]; simp [hk]
  · next hk => rw [if_neg (fun e => hk e.2)]

/-- A string put: inside BUF, the byte of the string where it lies and the old byte elsewhere. -/
theorem memory_read_putBytes : ∀ (bs : List Byte) {m : Memory}, m.wf = true → ∀ (off j : Nat), j < 65 →
    Memory.read (Memory.putBytes m off bs) j =
      if off ≤ j ∧ j < off + bs.length then bs.getD (j - off) 0 else Memory.read m j
  | [], _, _, off, j, _ => by simp [Memory.putBytes, show ¬(off ≤ j ∧ j < off) by omega]
  | b :: bs, m, h, off, j, hj => by
    rw [Memory.putBytes, memory_read_putBytes bs (memory_put_wf h off b) (off + 1) j hj,
      memory_read_put h]
    simp only [List.length_cons]
    by_cases h1 : j = off
    · subst h1
      rw [if_neg (by omega), if_pos ⟨rfl, hj⟩, if_pos (by omega)]
      simp
    · by_cases h2 : off + 1 ≤ j ∧ j < off + 1 + bs.length
      · rw [if_pos h2, if_pos (by omega), show j - off = (j - (off + 1)) + 1 by omega,
          List.getD_cons_succ]
      · rw [if_neg h2, if_neg (by omega), if_neg (by omega)]

/-- A blank byte is the zero byte. -/
theorem blankByte_eq : Memory.blankByte = 0 := rfl

/-- An empty buffer is the canonical form of all zeros. -/
theorem memory_wf_nil : Memory.wf [] = true := rfl

/-- What BUF[j] is after a string is written from `off` on. -/
theorem bufByte_memWrite {s : State} (h : s.buf.wf = true) (off : Nat) (bs : List Byte) (j : Nat) :
    (s.memWrite off bs).bufByte j =
      if off ≤ j ∧ j < off + bs.length ∧ j < 65 then bs.getD (j - off) 0 else s.bufByte j := by
  unfold State.bufByte
  rw [memWrite_buf]
  by_cases hj : j < 65
  · rw [if_pos hj, if_pos hj, memory_read_putBytes bs h off j hj]
    simp [hj]
  · rw [if_neg hj, if_neg hj, if_neg (by omega)]

/-- Indices that a string does not cover keep their byte, in every state. -/
theorem memory_read_write_ne (k : Nat) (v : Byte) {j : Nat} (hj : j ≠ k) :
    ∀ m : Memory, Memory.read (Memory.write m k v) j = Memory.read m j
  | [] => by
    unfold Memory.write
    split <;> simp [Memory.read, Ne.symm hj]
  | (a, x) :: m => by
    unfold Memory.write
    have ih := memory_read_write_ne k v hj m
    split
    · split
      · rfl
      · rw [Memory.read, if_neg (Ne.symm hj)]
    · split
      · next hk =>
        subst hk
        split
        · rw [Memory.read, if_neg (Ne.symm hj)]
        · rw [Memory.read, if_neg (Ne.symm hj), Memory.read, if_neg (Ne.symm hj)]
      · rw [Memory.read, Memory.read, ih]

theorem memory_read_put_ne (k : Nat) (v : Byte) {j : Nat} (hj : j ≠ k) (m : Memory) :
    Memory.read (Memory.put m k v) j = Memory.read m j := by
  unfold Memory.put
  split
  · exact memory_read_write_ne k v hj m
  · rfl

theorem memory_read_putBytes_out : ∀ (bs : List Byte) (m : Memory) (off j : Nat),
    ¬(off ≤ j ∧ j < off + bs.length) → Memory.read (Memory.putBytes m off bs) j = Memory.read m j
  | [], _, _, _, _ => rfl
  | b :: bs, m, off, j, h => by
    simp only [List.length_cons] at h
    rw [Memory.putBytes, memory_read_putBytes_out bs _ (off + 1) j (by omega),
      memory_read_put_ne off b (by omega)]

/-- Bytes outside a string written keep their value, in every state. -/
theorem bufByte_memWrite_out (s : State) (off : Nat) (bs : List Byte) {j : Nat}
    (h : ¬(off ≤ j ∧ j < off + bs.length)) : (s.memWrite off bs).bufByte j = s.bufByte j := by
  unfold State.bufByte
  rw [memWrite_buf, memory_read_putBytes_out bs _ off j h]

@[simp] theorem beBytes_length : ∀ k v, (beBytes k v).length = k
  | 0, _ => rfl
  | k + 1, v => by simp [beBytes, beBytes_length k v]

@[simp] theorem be32_length (v : Nat) : (be32 v).length = 32 := beBytes_length 32 v

theorem beNat_append_one (bs : List Byte) (b : Byte) : beNat (bs ++ [b]) = beNat bs * 256 + b.toNat := by
  simp [beNat, List.foldl_append]

theorem beNat_foldl (bs : List Byte) : ∀ acc,
    bs.foldl (fun acc b => acc * 256 + b.toNat) acc = acc * 256 ^ bs.length + beNat bs := by
  unfold beNat
  induction bs with
  | nil => intro acc; simp
  | cons b bs ih =>
    intro acc
    simp only [List.foldl_cons, List.length_cons]
    rw [ih, ih (0 * 256 + b.toNat)]
    ring

/-- The number of a big-endian string, from its first byte on. -/
theorem beNat_cons (b : Byte) (bs : List Byte) :
    beNat (b :: bs) = b.toNat * 256 ^ bs.length + beNat bs := by
  have h := beNat_foldl bs (0 * 256 + b.toNat)
  unfold beNat at h ⊢
  rw [List.foldl_cons, h]
  ring

theorem beNat_lt : ∀ bs : List Byte, beNat bs < 256 ^ bs.length
  | [] => by simp [beNat]
  | b :: bs => by
    have := beNat_lt bs
    have hb := b.isLt
    rw [beNat_cons, List.length_cons, pow_succ]
    nlinarith [Nat.zero_le (256 ^ bs.length)]

/-- A big-endian string's number is the value it was made of, up to its width. -/
theorem beNat_beBytes : ∀ k v, beNat (beBytes k v) = v % 256 ^ k
  | 0, v => by simp [beBytes, beNat, Nat.mod_one]
  | k + 1, v => by
    have h : v % (256 ^ k * 256) = v % 256 ^ k + 256 ^ k * (v / 256 ^ k % 256) := Nat.mod_mul
    rw [beBytes, beNat_cons, beNat_beBytes k v, beBytes_length, BitVec.toNat_ofNat,
      pow_succ 256 k, h, show (2 : Nat) ^ 8 = 256 from rfl]
    ring

theorem beNat_be32 (v : Nat) : beNat (be32 v) = v % 2 ^ 256 := by
  have h : (256 : Nat) ^ 32 = 2 ^ 256 := by norm_num
  exact (beNat_beBytes 32 v).trans (congrArg (v % ·) h)

/-- A number read from BUF as the sum of its bytes by weight. -/
theorem beNat_ofFn_sum (g : Nat → Byte) : ∀ k, beNat ((List.range k).map g) =
    ∑ i ∈ Finset.range k, (g i).toNat * 256 ^ (k - 1 - i)
  | 0 => rfl
  | k + 1 => by
    rw [List.range_succ, List.map_append, List.map_singleton, beNat_append_one, beNat_ofFn_sum g k,
      Finset.sum_range_succ, Finset.sum_mul]
    congr 1
    · refine Finset.sum_congr rfl fun i hi => ?_
      have hi := Finset.mem_range.1 hi
      rw [mul_assoc, ← pow_succ]
      congr 2; omega
    · simp

theorem bufNat_eq_sum (s : State) (off : Nat) :
    s.bufNat off = ∑ i ∈ Finset.range 32, (s.bufByte (off + i)).toNat * 256 ^ (31 - i) :=
  beNat_ofFn_sum (fun j => s.bufByte (off + j)) 32

theorem bufNat_lt (s : State) (off : Nat) : s.bufNat off < 2 ^ 256 := by
  have h := beNat_lt (s.memRead off 32)
  have e : (256 : Nat) ^ 32 = 2 ^ 256 := by norm_num
  simpa [State.bufNat, State.memRead, e] using h

end Sys2Proof.Machine
end

