-- ==== Sys2Proof/Laws/Exec.lean ====
section
/-! SUPPORT. For each way a command ends, everything the ending does: the shared shapes of the meanings
are completed frames of `Safety`, so that a statement about one command cites one lemma here. -/

namespace Sys2Proof.Machine

variable (s : State)

/-- A command that writes one F register. -/
theorem succeeded_setF (rd : Reg) (v : Nat) :
    s.Succeeded ((s.setF rd v).complete 0) (some (.f rd)) false 0 where
  f i h := by
    have hne : i ≠ rd := fun e => h (by rw [e])
    simp only [complete_f, setF_f]
    exact vector_get_set_ne _ hne _
  n _ _ := by simp
  p _ _ := by simp
  c _ := by simp
  buf k _ := bufByte_congr (by simp) k
  bufLen _ := by simp
  ovr := by simp
  cmdl := by simp
  inReset := by simp
  inbox := by simp
  replies := by simp
  draws := by simp
  uninit := by simp
  busy := rfl
  done := rfl
  err := rfl
  wroteDest r h := by
    cases h
    simp only [State.isWritten, complete_f, setF_f, vector_get_set_self]
  wroteFlag h := by cases h

/-- A command that writes one N register. -/
theorem succeeded_setN (rd : Reg) (v : Nat) :
    s.Succeeded ((s.setN rd v).complete 0) (some (.n rd)) false 0 where
  f _ _ := by simp
  n i h := by
    have hne : i ≠ rd := fun e => h (by rw [e])
    simp only [complete_n, setN_n]
    exact vector_get_set_ne _ hne _
  p _ _ := by simp
  c _ := by simp
  buf k _ := bufByte_congr (by simp) k
  bufLen _ := by simp
  ovr := by simp
  cmdl := by simp
  inReset := by simp
  inbox := by simp
  replies := by simp
  draws := by simp
  uninit := by simp
  busy := rfl
  done := rfl
  err := rfl
  wroteDest r h := by
    cases h
    simp only [State.isWritten, complete_n, setN_n, vector_get_set_self]
  wroteFlag h := by cases h

/-- A command that writes one P register. -/
theorem succeeded_setP (rd : Reg) (q : Point) :
    s.Succeeded ((s.setP rd q).complete 0) (some (.p rd)) false 0 where
  f _ _ := by simp
  n _ _ := by simp
  p i h := by
    have hne : i ≠ rd := fun e => h (by rw [e])
    simp only [complete_p, setP_p]
    exact vector_get_set_ne _ hne _
  c _ := by simp
  buf k _ := bufByte_congr (by simp) k
  bufLen _ := by simp
  ovr := by simp
  cmdl := by simp
  inReset := by simp
  inbox := by simp
  replies := by simp
  draws := by simp
  uninit := by simp
  busy := rfl
  done := rfl
  err := rfl
  wroteDest r h := by
    cases h
    simp only [State.isWritten, complete_p, setP_p, vector_get_set_self]
  wroteFlag h := by cases h

/-- A command that writes C only. -/
theorem succeeded_setC (b : Bool) :
    s.Succeeded ((s.setC b).complete 0) none true 0 where
  f _ _ := by simp
  n _ _ := by simp
  p _ _ := by simp
  c h := by cases h
  buf k _ := bufByte_congr (by simp) k
  bufLen _ := by simp
  ovr := by simp
  cmdl := by simp
  inReset := by simp
  inbox := by simp
  replies := by simp
  draws := by simp
  uninit := by simp
  busy := rfl
  done := rfl
  err := rfl
  wroteDest r h := by cases h
  wroteFlag _ := rfl

/-- A success that writes C as well: the frame of the rest is kept. -/
theorem Succeeded_setC {s u : State} {dest : Option RegName} (h : s.Succeeded (u.complete 0) dest false 0)
    (hc : dest ≠ some .c) (b : Bool) : s.Succeeded ((u.setC b).complete 0) dest true 0 where
  f := h.f
  n := h.n
  p := h.p
  c e := by cases e
  buf := h.buf
  bufLen := h.bufLen
  ovr := h.ovr
  cmdl := h.cmdl
  inReset := h.inReset
  inbox := h.inbox
  replies := h.replies
  draws := h.draws
  uninit := h.uninit
  busy := rfl
  done := rfl
  err := rfl
  wroteDest r e := by
    have := h.wroteDest r e
    cases r with
    | c => exact absurd e hc
    | _ => exact this
  wroteFlag _ := rfl

/-- A command that writes nothing at all. -/
theorem succeeded_complete : s.Succeeded (s.complete 0) none false 0 where
  f _ _ := rfl
  n _ _ := rfl
  p _ _ := rfl
  c _ := rfl
  buf _ _ := rfl
  bufLen _ := rfl
  ovr := rfl
  cmdl := rfl
  inReset := rfl
  inbox := rfl
  replies := rfl
  draws := rfl
  uninit := rfl
  busy := rfl
  done := rfl
  err := rfl
  wroteDest r h := by cases h
  wroteFlag h := by cases h

/-- A command that stores `bytes` to BUF: the bytes from their number on are unchanged. -/
theorem succeeded_output (bytes : List Byte) (hne : bytes ≠ []) :
    s.Succeeded ((s.output bytes).complete 0) none false bytes.length where
  f _ _ := by simp [State.output]
  n _ _ := by simp [State.output]
  p _ _ := by simp [State.output]
  c _ := by simp [State.output]
  buf k h := by
    have h1 : ((s.output bytes).complete 0).bufByte k
        = (s.memWrite 0 bytes).bufByte k := bufByte_congr (by simp [State.output]) k
    rw [h1, bufByte_memWrite_out _ _ _ (by omega)]
  bufLen h := absurd (List.length_eq_zero_iff.mp h) hne
  ovr := by simp [State.output]
  cmdl := by simp [State.output]
  inReset := by simp [State.output]
  inbox := by simp [State.output]
  replies := by simp [State.output]
  draws := by simp [State.output]
  uninit := by simp [State.output]
  busy := rfl
  done := rfl
  err := rfl
  wroteDest r h := by cases h
  wroteFlag h := by cases h

/-- What BUF holds after a command stored `bytes`. -/
theorem bufByte_output (bytes : List Byte) (h : s.buf.wf = true) (k : Nat) :
    ((s.output bytes).complete 0).bufByte k =
      if k < bytes.length ∧ k < 65 then bytes.getD k 0 else s.bufByte k := by
  have h1 : ((s.output bytes).complete 0).bufByte k
      = (s.memWrite 0 bytes).bufByte k := bufByte_congr (by simp [State.output]) k
  rw [h1, bufByte_memWrite (by simpa using h)]
  simp only [Nat.zero_le, true_and, Nat.zero_add, Nat.sub_zero]

/-- A command that raises an error writes nothing (R129). -/
theorem raised_complete (code : BitVec 4) : s.Raised (s.complete code) code where
  f _ _ := by simp
  n _ _ := by simp
  p _ _ := by simp
  c _ := by simp
  buf k _ := bufByte_congr (by simp) k
  bufLen _ := by simp
  ovr := by simp
  cmdl := by simp
  inReset := by simp
  inbox := by simp
  replies := by simp
  draws := by simp
  uninit := by simp
  busy := rfl
  done := rfl
  err := rfl

/-- The register a completed command wrote reads the value, when it fits in 256 bits. -/
theorem fReg_written (rd : Reg) (v : Nat) (h : v < 2 ^ 256) :
    ((s.setF rd v).complete 0).fReg rd = v := by
  rw [fReg_congr (complete_f ..), fReg_setF, if_pos rfl, Nat.mod_eq_of_lt h]

theorem nReg_written (rd : Reg) (v : Nat) (h : v < 2 ^ 256) :
    ((s.setN rd v).complete 0).nReg rd = v := by
  rw [nReg_congr (complete_n ..), nReg_setN, if_pos rfl, Nat.mod_eq_of_lt h]

theorem pReg_written (rd : Reg) (q : Point) :
    ((s.setP rd q).complete 0).pReg rd = q := by
  rw [pReg_congr (complete_p ..), pReg_setP, if_pos rfl]

/-- C after a completed command that wrote it. -/
theorem cFlag_written (b : Bool) : ((s.setC b).complete 0).cFlag = b := rfl

/-- Writing C leaves the registers. -/
theorem fReg_setC (b : Bool) (i : Reg) :
    ((s.setC b).complete 0).fReg i = (s.complete 0).fReg i := rfl

theorem pReg_setC (b : Bool) (i : Reg) :
    ((s.setC b).complete 0).pReg i = (s.complete 0).pReg i := rfl

end Sys2Proof.Machine
end

