-- ==== Sys2Proof/Laws/Command.lean ====
section
/-! SUPPORT. What every command can do: an illegal one raises IllegalCommand; any other reads its sources
and then completes with a code below 6, and until its completion changes registers, C, BUF and BUFLEN
alone. -/

namespace Sys2Proof.Machine

/-- The fields that no command writes but by reading its sources or by completing. -/
structure State.SameControl (s u : State) : Prop where
  ovr : u.ovr = s.ovr
  cmdl : u.cmdl = s.cmdl
  inReset : u.inReset = s.inReset
  inbox : u.inbox = s.inbox
  replies : u.replies = s.replies
  draws : u.draws = s.draws
  uninit : u.uninit = s.uninit
  completed : u.completed = s.completed

/-- An outcome that completes with the code of success or of an error other than IllegalCommand, and before
that writes data alone. -/
def State.Finishes (s : State) (o : Host.Outcome State Fault Refusal) : Prop :=
  ∃ (u : State) (code : BitVec 4), s.SameControl u ∧ code.toNat ≤ 5 ∧ o = .next (u.complete code)

variable (s : State)

theorem sameControl_refl : s.SameControl s := ⟨rfl, rfl, rfl, rfl, rfl, rfl, rfl, rfl⟩

theorem sameControl_setF (i : Reg) (v : Nat) : s.SameControl (s.setF i v) :=
  ⟨rfl, rfl, rfl, rfl, rfl, rfl, rfl, rfl⟩

theorem sameControl_setN (i : Reg) (v : Nat) : s.SameControl (s.setN i v) :=
  ⟨rfl, rfl, rfl, rfl, rfl, rfl, rfl, rfl⟩

theorem sameControl_setP (i : Reg) (q : Point) : s.SameControl (s.setP i q) :=
  ⟨rfl, rfl, rfl, rfl, rfl, rfl, rfl, rfl⟩

theorem sameControl_setC (b : Bool) : s.SameControl (s.setC b) := ⟨rfl, rfl, rfl, rfl, rfl, rfl, rfl, rfl⟩

theorem sameControl_output (bytes : List Byte) : s.SameControl (s.output bytes) :=
  ⟨rfl, rfl, rfl, rfl, rfl, rfl, rfl, rfl⟩

variable {s}

theorem sameControl_then_setC {u : State} (h : s.SameControl u) (b : Bool) : s.SameControl (u.setC b) :=
  ⟨h.ovr, h.cmdl, h.inReset, h.inbox, h.replies, h.draws, h.uninit, h.completed⟩

theorem finishes_succeed {u : State} (h : s.SameControl u) : s.Finishes u.succeed :=
  ⟨u, 0, h, by decide, rfl⟩

theorem finishes_raise {e : ErrKind} (h : e ≠ .illegalCommand) : s.Finishes (s.raise e) :=
  ⟨s, e.code, sameControl_refl s, by cases e <;> first | exact absurd rfl h | decide, rfl⟩

theorem decodePoint_error {e : ErrKind} (h : s.decodePoint = .error e) : e ≠ .illegalCommand := by
  rintro rfl
  unfold State.decodePoint at h
  dsimp only at h
  split at h
  · cases h
  · split at h
    · split at h
      · cases h
      · split at h <;> cases h
    · split at h
      · split at h
        · cases h
        · split at h <;> cases h
      · cases h

theorem execFld_finishes (rd : Reg) : s.Finishes (execFld rd s) := by
  unfold execFld
  split
  · exact finishes_raise (by simp)
  · split
    · exact finishes_succeed (sameControl_setF ..)
    · exact finishes_raise (by simp)

theorem execFltp_finishes : s.Finishes (execFltp s) := by
  unfold execFltp
  split
  · exact finishes_raise (by simp)
  · exact finishes_succeed (sameControl_setC ..)

theorem execNld_finishes (rd : Reg) : s.Finishes (execNld rd s) := by
  unfold execNld
  split
  · exact finishes_raise (by simp)
  · exact finishes_succeed (sameControl_setN ..)

theorem execPdec_finishes (rd : Reg) : s.Finishes (execPdec rd s) := by
  unfold execPdec
  split
  · exact finishes_succeed (sameControl_setP ..)
  next e h => exact finishes_raise (decodePoint_error h)

/-- Everything a command can do. -/
def State.Runs (s : State) (i : Instr) (o : Host.Outcome State Fault Refusal) : Prop :=
  (¬i.WellFormed ∧ o = s.raise .illegalCommand) ∨
  (i.WellFormed ∧ ∃ rest, s.Finishes rest ∧ o = s.reading (sources i) rest)

theorem runs_reading {i : Instr} {rest : Host.Outcome State Fault Refusal} (hw : i.WellFormed)
    (hr : s.Finishes rest) : s.Runs i (s.reading (sources i) rest) := .inr ⟨hw, rest, hr, rfl⟩

theorem execCset_runs (k : BitVec 8) : s.Runs (.cset k) (execCset k s) := by
  by_cases h : k.toNat ≤ 2
  · obtain ⟨c, hc⟩ : ∃ c, flagCset k.toNat s.cFlag = some c := by
      have : k.toNat = 0 ∨ k.toNat = 1 ∨ k.toNat = 2 := by omega
      rcases this with h | h | h <;> rw [h] <;> exact ⟨_, rfl⟩
    unfold execCset
    rw [hc]
    exact runs_reading (i := .cset k) (by simpa [Instr.WellFormed, Instr.wellFormed] using h)
      (finishes_succeed (sameControl_setC ..))
  · have hc : flagCset k.toNat s.cFlag = none := by
      unfold flagCset
      split <;> first | omega | rfl
    unfold execCset
    rw [hc]
    exact .inl ⟨by simp [Instr.WellFormed, Instr.wellFormed]; omega, rfl⟩

theorem execFsqr_runs (rd ra : Reg) (k : BitVec 8) : s.Runs (.fsqr rd ra k) (execFsqr rd ra k s) := by
  unfold execFsqr
  split
  next h => exact .inl ⟨by simp [Instr.WellFormed, Instr.wellFormed, h], rfl⟩
  next h =>
    exact runs_reading (i := .fsqr rd ra k) (by simp [Instr.WellFormed, Instr.wellFormed]; omega)
      (finishes_succeed (sameControl_setF ..))

theorem execNsqr_runs (rd ra : Reg) (k : BitVec 8) : s.Runs (.nsqr rd ra k) (execNsqr rd ra k s) := by
  unfold execNsqr
  split
  next h => exact .inl ⟨by simp [Instr.WellFormed, Instr.wellFormed, h], rfl⟩
  next h =>
    exact runs_reading (i := .nsqr rd ra k) (by simp [Instr.WellFormed, Instr.wellFormed]; omega)
      (finishes_succeed (sameControl_setN ..))

theorem execFldc_runs (rd : Reg) (k : BitVec 8) : s.Runs (.fldc rd k) (execFldc rd k s) := by
  unfold execFldc
  split
  next h =>
    exact .inr ⟨by simpa [Instr.WellFormed, Instr.wellFormed] using h, _,
      finishes_succeed (sameControl_setF ..), rfl⟩
  next h => exact .inl ⟨by simp [Instr.WellFormed, Instr.wellFormed]; omega, rfl⟩

theorem execNldc_runs (rd : Reg) (k : BitVec 8) : s.Runs (.nldc rd k) (execNldc rd k s) := by
  unfold execNldc
  split
  next h =>
    exact .inr ⟨by simpa [Instr.WellFormed, Instr.wellFormed] using h, _,
      finishes_succeed (sameControl_setN ..), rfl⟩
  next h => exact .inl ⟨by simp [Instr.WellFormed, Instr.wellFormed]; omega, rfl⟩

theorem execPencx_runs (ra : Reg) : s.Runs (.pencx ra) (execPencx ra s) := by
  refine runs_reading (i := .pencx ra) rfl ?_
  split
  · exact finishes_raise (by simp)
  · exact finishes_succeed (sameControl_output ..)

/-- Everything a command can do, of every command. -/
theorem exec_runs (i : Instr) : s.Runs i (exec i s) := by
  cases i with
  | cset k => exact execCset_runs k
  | fsqr rd ra k => exact execFsqr_runs rd ra k
  | nsqr rd ra k => exact execNsqr_runs rd ra k
  | fldc rd k => exact execFldc_runs rd k
  | nldc rd k => exact execNldc_runs rd k
  | pencx ra => exact execPencx_runs ra
  | fld rd => exact .inr ⟨rfl, _, execFld_finishes rd, rfl⟩
  | fltp => exact .inr ⟨rfl, _, execFltp_finishes, rfl⟩
  | nld rd => exact .inr ⟨rfl, _, execNld_finishes rd, rfl⟩
  | pdec rd => exact .inr ⟨rfl, _, execPdec_finishes rd, rfl⟩
  | nop => exact .inr ⟨rfl, _, finishes_succeed (sameControl_refl s), rfl⟩
  | pinf rd => exact .inr ⟨rfl, _, finishes_succeed (sameControl_setP ..), rfl⟩
  | pgen rd => exact .inr ⟨rfl, _, finishes_succeed (sameControl_setP ..), rfl⟩
  | fsqrt rd ra => exact .inr ⟨rfl, _, finishes_succeed (sameControl_then_setC (sameControl_setF ..) _), rfl⟩
  | padd rd ra rb => exact .inr ⟨rfl, _, finishes_succeed (sameControl_then_setC (sameControl_setP ..) _), rfl⟩
  | fadd | fsub | fmul | finv | fnegc | fsel | ftom | ffromm | fmov =>
    exact .inr ⟨rfl, _, finishes_succeed (sameControl_setF ..), rfl⟩
  | nadd | nsub | nmul | ninv | nmov | impsig =>
    exact .inr ⟨rfl, _, finishes_succeed (sameControl_setN ..), rfl⟩
  | pmov | pdbl | pnegc | psel | pmul | pbmul =>
    exact .inr ⟨rfl, _, finishes_succeed (sameControl_setP ..), rfl⟩
  | feq | pisinf => exact .inr ⟨rfl, _, finishes_succeed (sameControl_setC ..), rfl⟩
  | fst | nst | penc | pencc => exact .inr ⟨rfl, _, finishes_succeed (sameControl_output ..), rfl⟩

/-- Everything a legal or illegal command answers with: IllegalCommand, the completion of its sources'
readiness, or the record of an unwritten source. -/
theorem exec_cases (i : Instr) :
    (¬i.WellFormed ∧ exec i s = .next (s.complete 6)) ∨
    (i.WellFormed ∧ s.Ready i ∧ s.Finishes (exec i s)) ∨
    (i.WellFormed ∧ ¬s.Ready i ∧ ∃ r, s.firstUnwritten (sources i) = some r ∧
      exec i s = .next (s.recordUninit r)) := by
  rcases exec_runs (s := s) i with ⟨hw, h⟩ | ⟨hw, rest, hf, h⟩
  · exact .inl ⟨hw, h⟩
  · rcases reading_cases s (sources i) rest with ⟨hr, hc⟩ | ⟨r, hr, hn, hu, hc⟩
    · exact .inr (.inl ⟨hw, hr, by rw [h, hc]; exact hf⟩)
    · exact .inr (.inr ⟨hw, fun hall => Bool.noConfusion ((hall r hr).symm.trans hn), r, hu, by rw [h, hc]⟩)

end Sys2Proof.Machine
end

