-- ==== Sys2Proof/Laws/Primes.lean ====
section
/-! SUPPORT. p and n are prime (spec/00_scope.md R9), by Lucas certificates: a base of order q − 1 for
each prime q, down to primes small enough to be tried. -/

namespace Sys2Proof.Machine

/-- A Lucas certificate: a base whose power q − 1 is one and whose powers (q − 1)/f are not, for the
prime factors f of q − 1. -/
def lucasCheck (q a : Nat) (fs : List Nat) : Bool :=
  decide (1 < q) && decide (q ≤ 2 ^ 256) && (fs.prod == q - 1) && (powMod q a (q - 1) == 1)
    && fs.all fun f => powMod q a ((q - 1) / f) != 1

theorem prime_of_lucas {q : Nat} (a : Nat) (fs : List Nat) (hf : ∀ f ∈ fs, f.Prime)
    (h : lucasCheck q a fs = true) : q.Prime := by
  simp only [lucasCheck, Bool.and_eq_true, decide_eq_true_eq, beq_iff_eq, List.all_eq_true,
    bne_iff_ne] at h
  obtain ⟨⟨⟨⟨h1, hle⟩, hprod⟩, hone⟩, hne⟩ := h
  have hcast : ∀ e, e < 2 ^ 256 → (powMod q a e = 1 ↔ (a : ZMod q) ^ e = 1) := fun e he => by
    have h := ZMod.natCast_eq_natCast_iff' (a ^ e) 1 q
    rw [Nat.mod_eq_of_lt h1, Nat.cast_pow, Nat.cast_one] at h
    rw [powMod_eq (by omega) a he, h]
  refine lucas_primality q (a : ZMod q) ((hcast _ (by omega)).1 hone) fun r hr hd => ?_
  rw [← hprod] at hd
  obtain ⟨f, hmem, hrf⟩ := (Prime.dvd_prod_iff hr.prime).1 hd
  obtain rfl : r = f := (Nat.prime_dvd_prime_iff_eq hr (hf f hmem)).1 hrf
  intro hcon
  exact hne r hmem ((hcast _ (lt_of_le_of_lt (Nat.div_le_self _ _) (by omega))).2 hcon)

theorem prime_179429 : Nat.Prime 179429 := by
  refine prime_of_lucas 2 [2, 2, 31, 1447] ?_ (by decide +kernel)
  intro f hf
  simp only [List.mem_cons, List.not_mem_nil, or_false] at hf
  rcases hf with rfl | rfl | rfl | rfl
  · norm_num
  · norm_num
  · norm_num
  · norm_num

theorem prime_348253387243 : Nat.Prime 348253387243 := by
  refine prime_of_lucas 3 [2, 3, 61, 5303, 179429] ?_ (by decide +kernel)
  intro f hf
  simp only [List.mem_cons, List.not_mem_nil, or_false] at hf
  rcases hf with rfl | rfl | rfl | rfl | rfl
  · norm_num
  · norm_num
  · norm_num
  · norm_num
  · exact prime_179429

theorem prime_3017783777 : Nat.Prime 3017783777 := by
  refine prime_of_lucas 3 [2, 2, 2, 2, 2, 7, 7, 337, 5711] ?_ (by decide +kernel)
  intro f hf
  simp only [List.mem_cons, List.not_mem_nil, or_false] at hf
  rcases hf with rfl | rfl | rfl | rfl | rfl | rfl | rfl | rfl | rfl
  · norm_num
  · norm_num
  · norm_num
  · norm_num
  · norm_num
  · norm_num
  · norm_num
  · norm_num
  · norm_num

theorem prime_4641351449027 : Nat.Prime 4641351449027 := by
  refine prime_of_lucas 2 [2, 769, 3017783777] ?_ (by decide +kernel)
  intro f hf
  simp only [List.mem_cons, List.not_mem_nil, or_false] at hf
  rcases hf with rfl | rfl | rfl
  · norm_num
  · norm_num
  · exact prime_3017783777

theorem prime_8214737 : Nat.Prime 8214737 := by
  refine prime_of_lucas 3 [2, 2, 2, 2, 67, 79, 97] ?_ (by decide +kernel)
  intro f hf
  simp only [List.mem_cons, List.not_mem_nil, or_false] at hf
  rcases hf with rfl | rfl | rfl | rfl | rfl | rfl | rfl
  · norm_num
  · norm_num
  · norm_num
  · norm_num
  · norm_num
  · norm_num
  · norm_num

theorem prime_417514796639753 : Nat.Prime 417514796639753 := by
  refine prime_of_lucas 3 [2, 2, 2, 7, 367, 2473, 8214737] ?_ (by decide +kernel)
  intro f hf
  simp only [List.mem_cons, List.not_mem_nil, or_false] at hf
  rcases hf with rfl | rfl | rfl | rfl | rfl | rfl | rfl
  · norm_num
  · norm_num
  · norm_num
  · norm_num
  · norm_num
  · norm_num
  · exact prime_8214737

theorem prime_3079049 : Nat.Prime 3079049 := by
  refine prime_of_lucas 3 [2, 2, 2, 7, 54983] ?_ (by decide +kernel)
  intro f hf
  simp only [List.mem_cons, List.not_mem_nil, or_false] at hf
  rcases hf with rfl | rfl | rfl | rfl | rfl
  · norm_num
  · norm_num
  · norm_num
  · norm_num
  · norm_num

theorem prime_6158099 : Nat.Prime 6158099 := by
  refine prime_of_lucas 2 [2, 3079049] ?_ (by decide +kernel)
  intro f hf
  simp only [List.mem_cons, List.not_mem_nil, or_false] at hf
  rcases hf with rfl | rfl
  · norm_num
  · exact prime_3079049

theorem prime_363761 : Nat.Prime 363761 := by
  refine prime_of_lucas 3 [2, 2, 2, 2, 5, 4547] ?_ (by decide +kernel)
  intro f hf
  simp only [List.mem_cons, List.not_mem_nil, or_false] at hf
  rcases hf with rfl | rfl | rfl | rfl | rfl | rfl
  · norm_num
  · norm_num
  · norm_num
  · norm_num
  · norm_num
  · norm_num

theorem prime_4773264379806847 : Nat.Prime 4773264379806847 := by
  refine prime_of_lucas 3 [2, 3, 7, 11, 823, 34511, 363761] ?_ (by decide +kernel)
  intro f hf
  simp only [List.mem_cons, List.not_mem_nil, or_false] at hf
  rcases hf with rfl | rfl | rfl | rfl | rfl | rfl | rfl
  · norm_num
  · norm_num
  · norm_num
  · norm_num
  · norm_num
  · norm_num
  · exact prime_363761

theorem prime_66013261729388519804782124120027 : Nat.Prime 66013261729388519804782124120027 := by
  refine prime_of_lucas 2 [2, 13, 1213, 71209, 6158099, 4773264379806847] ?_ (by decide +kernel)
  intro f hf
  simp only [List.mem_cons, List.not_mem_nil, or_false] at hf
  rcases hf with rfl | rfl | rfl | rfl | rfl | rfl
  · norm_num
  · norm_num
  · norm_num
  · norm_num
  · exact prime_6158099
  · exact prime_4773264379806847

theorem primeP_prime : Nat.Prime primeP := by
  refine prime_of_lucas 13 [2, 43, 30223, 348253387243, 4641351449027, 417514796639753, 66013261729388519804782124120027] ?_ (by decide +kernel)
  intro f hf
  simp only [List.mem_cons, List.not_mem_nil, or_false] at hf
  rcases hf with rfl | rfl | rfl | rfl | rfl | rfl | rfl
  · norm_num
  · norm_num
  · norm_num
  · exact prime_348253387243
  · exact prime_4641351449027
  · exact prime_417514796639753
  · exact prime_66013261729388519804782124120027

theorem prime_110899 : Nat.Prime 110899 := by
  refine prime_of_lucas 3 [2, 3, 3, 61, 101] ?_ (by decide +kernel)
  intro f hf
  simp only [List.mem_cons, List.not_mem_nil, or_false] at hf
  rcases hf with rfl | rfl | rfl | rfl | rfl
  · norm_num
  · norm_num
  · norm_num
  · norm_num
  · norm_num

theorem prime_117774739 : Nat.Prime 117774739 := by
  refine prime_of_lucas 2 [2, 3, 3, 59, 110899] ?_ (by decide +kernel)
  intro f hf
  simp only [List.mem_cons, List.not_mem_nil, or_false] at hf
  rcases hf with rfl | rfl | rfl | rfl | rfl
  · norm_num
  · norm_num
  · norm_num
  · norm_num
  · exact prime_110899

theorem prime_1413296869 : Nat.Prime 1413296869 := by
  refine prime_of_lucas 6 [2, 2, 3, 117774739] ?_ (by decide +kernel)
  intro f hf
  simp only [List.mem_cons, List.not_mem_nil, or_false] at hf
  rcases hf with rfl | rfl | rfl | rfl
  · norm_num
  · norm_num
  · norm_num
  · exact prime_117774739

theorem prime_10042883 : Nat.Prime 10042883 := by
  refine prime_of_lucas 2 [2, 1013, 4957] ?_ (by decide +kernel)
  intro f hf
  simp only [List.mem_cons, List.not_mem_nil, or_false] at hf
  rcases hf with rfl | rfl | rfl
  · norm_num
  · norm_num
  · norm_num

theorem prime_2368433183657 : Nat.Prime 2368433183657 := by
  refine prime_of_lucas 3 [2, 2, 2, 41, 719, 10042883] ?_ (by decide +kernel)
  intro f hf
  simp only [List.mem_cons, List.not_mem_nil, or_false] at hf
  rcases hf with rfl | rfl | rfl | rfl | rfl | rfl
  · norm_num
  · norm_num
  · norm_num
  · norm_num
  · norm_num
  · exact prime_10042883

theorem prime_3258964060712033 : Nat.Prime 3258964060712033 := by
  refine prime_of_lucas 3 [2, 2, 2, 2, 2, 43, 2368433183657] ?_ (by decide +kernel)
  intro f hf
  simp only [List.mem_cons, List.not_mem_nil, or_false] at hf
  rcases hf with rfl | rfl | rfl | rfl | rfl | rfl | rfl
  · norm_num
  · norm_num
  · norm_num
  · norm_num
  · norm_num
  · norm_num
  · exact prime_2368433183657

theorem prime_17965699 : Nat.Prime 17965699 := by
  refine prime_of_lucas 2 [2, 3, 71, 181, 233] ?_ (by decide +kernel)
  intro f hf
  simp only [List.mem_cons, List.not_mem_nil, or_false] at hf
  rcases hf with rfl | rfl | rfl | rfl | rfl
  · norm_num
  · norm_num
  · norm_num
  · norm_num
  · norm_num

theorem prime_107615843 : Nat.Prime 107615843 := by
  refine prime_of_lucas 2 [2, 43, 103, 12149] ?_ (by decide +kernel)
  intro f hf
  simp only [List.mem_cons, List.not_mem_nil, or_false] at hf
  rcases hf with rfl | rfl | rfl | rfl
  · norm_num
  · norm_num
  · norm_num
  · norm_num

theorem prime_2566129871 : Nat.Prime 2566129871 := by
  refine prime_of_lucas 7 [2, 5, 3049, 84163] ?_ (by decide +kernel)
  intro f hf
  simp only [List.mem_cons, List.not_mem_nil, or_false] at hf
  rcases hf with rfl | rfl | rfl | rfl
  · norm_num
  · norm_num
  · norm_num
  · norm_num

theorem prime_9061163 : Nat.Prime 9061163 := by
  refine prime_of_lucas 2 [2, 11, 71, 5801] ?_ (by decide +kernel)
  intro f hf
  simp only [List.mem_cons, List.not_mem_nil, or_false] at hf
  rcases hf with rfl | rfl | rfl | rfl
  · norm_num
  · norm_num
  · norm_num
  · norm_num

theorem prime_5636460199499 : Nat.Prime 5636460199499 := by
  refine prime_of_lucas 2 [2, 31, 79, 127, 9061163] ?_ (by decide +kernel)
  intro f hf
  simp only [List.mem_cons, List.not_mem_nil, or_false] at hf
  rcases hf with rfl | rfl | rfl | rfl | rfl
  · norm_num
  · norm_num
  · norm_num
  · norm_num
  · exact prime_9061163

theorem prime_101456283590983 : Nat.Prime 101456283590983 := by
  refine prime_of_lucas 3 [2, 3, 3, 5636460199499] ?_ (by decide +kernel)
  intro f hf
  simp only [List.mem_cons, List.not_mem_nil, or_false] at hf
  rcases hf with rfl | rfl | rfl | rfl
  · norm_num
  · norm_num
  · norm_num
  · exact prime_5636460199499

theorem prime_18120927127286907576013935251791662753637 : Nat.Prime 18120927127286907576013935251791662753637 := by
  refine prime_of_lucas 6 [2, 2, 3, 3, 17965699, 107615843, 2566129871, 101456283590983] ?_ (by decide +kernel)
  intro f hf
  simp only [List.mem_cons, List.not_mem_nil, or_false] at hf
  rcases hf with rfl | rfl | rfl | rfl | rfl | rfl | rfl | rfl
  · norm_num
  · norm_num
  · norm_num
  · norm_num
  · exact prime_17965699
  · exact prime_107615843
  · exact prime_2566129871
  · exact prime_101456283590983

theorem prime_125197554539772723432468576818475380947471091418362477724521 : Nat.Prime 125197554539772723432468576818475380947471091418362477724521 := by
  refine prime_of_lucas 3 [2, 2, 2, 5, 53, 3258964060712033, 18120927127286907576013935251791662753637] ?_ (by decide +kernel)
  intro f hf
  simp only [List.mem_cons, List.not_mem_nil, or_false] at hf
  rcases hf with rfl | rfl | rfl | rfl | rfl | rfl | rfl
  · norm_num
  · norm_num
  · norm_num
  · norm_num
  · norm_num
  · exact prime_3258964060712033
  · exact prime_18120927127286907576013935251791662753637

theorem orderN_prime : Nat.Prime orderN := by
  refine prime_of_lucas 3 [2, 3, 7759, 14057, 1413296869, 125197554539772723432468576818475380947471091418362477724521] ?_ (by decide +kernel)
  intro f hf
  simp only [List.mem_cons, List.not_mem_nil, or_false] at hf
  rcases hf with rfl | rfl | rfl | rfl | rfl | rfl
  · norm_num
  · norm_num
  · norm_num
  · norm_num
  · exact prime_1413296869
  · exact prime_125197554539772723432468576818475380947471091418362477724521

end Sys2Proof.Machine
end

