-- ==== Sys2Proof/Laws/Field.lean ====
section
/-! SUPPORT. The modular operations as operations of the fields `ZMod p` and `ZMod n`: results are
residues, and casting them commutes with the field's operations. -/

namespace Sys2Proof.Machine

theorem primeP_fact : Fact (Nat.Prime primeP) := ⟨primeP_prime⟩

theorem orderN_fact : Fact (Nat.Prime orderN) := ⟨orderN_prime⟩

theorem primeP_pos : 0 < primeP := by decide

theorem orderN_pos : 0 < orderN := by decide

theorem primeP_lt_radix : primeP < 2 ^ 256 := by decide

theorem orderN_lt_radix : orderN < 2 ^ 256 := by decide

theorem radixR_eq : radixR = 2 ^ 256 := by decide

section Residues

variable {m : Nat}

theorem addMod_lt (hm : 0 < m) (a b : Nat) : addMod m a b < m := Nat.mod_lt _ hm

theorem mulMod_lt (hm : 0 < m) (a b : Nat) : mulMod m a b < m := Nat.mod_lt _ hm

theorem subMod_lt (hm : 0 < m) (a b : Nat) : subMod m a b < m := by
  have h0 := Int.emod_nonneg ((a : Int) - b) (b := (m : Int)) (by omega)
  have h1 := Int.emod_lt_of_pos ((a : Int) - b) (b := (m : Int)) (by omega)
  unfold subMod; omega

theorem negMod_lt (hm : 0 < m) (a : Nat) : negMod m a < m := subMod_lt hm 0 a

theorem powMod_lt (hm : 0 < m) (x e : Nat) : powMod m x e < m :=
  powModRounds_lt hm _ _ _ _ (Nat.mod_lt _ hm)

theorem invMod_lt (hm : 0 < m) (x : Nat) : invMod m x < m := powMod_lt hm _ _

@[simp] theorem cast_addMod (a b : Nat) : ((addMod m a b : Nat) : ZMod m) = a + b := by
  simp [addMod]

@[simp] theorem cast_mulMod (a b : Nat) : ((mulMod m a b : Nat) : ZMod m) = a * b := by
  simp [mulMod]

theorem cast_subMod (hm : 0 < m) (a b : Nat) : ((subMod m a b : Nat) : ZMod m) = a - b := by
  have h0 := Int.emod_nonneg ((a : Int) - b) (b := (m : Int)) (by omega)
  have h : (((subMod m a b : Nat) : Int) : ZMod m) = (((a : Int) - b : Int) : ZMod m) := by
    rw [ZMod.intCast_eq_intCast_iff]
    unfold subMod
    rw [Int.toNat_of_nonneg h0]
    exact Int.mod_modEq _ _
  simpa using h

theorem cast_negMod (hm : 0 < m) (a : Nat) : ((negMod m a : Nat) : ZMod m) = -a := by
  simp [negMod, cast_subMod hm]

theorem cast_powMod (hm : 0 < m) (x : Nat) {e : Nat} (he : e < 2 ^ 256) :
    ((powMod m x e : Nat) : ZMod m) = (x : ZMod m) ^ e := by
  rw [powMod_eq hm x he]; simp

/-- Two residues are equal when their casts are. -/
theorem eq_of_cast_eq {a b : Nat} (ha : a < m) (hb : b < m) (h : (a : ZMod m) = b) : a = b := by
  rw [ZMod.natCast_eq_natCast_iff'] at h
  rwa [Nat.mod_eq_of_lt ha, Nat.mod_eq_of_lt hb] at h

theorem cast_eq_zero_iff {a : Nat} (ha : a < m) : (a : ZMod m) = 0 ↔ a = 0 := by
  constructor
  · intro h
    exact eq_of_cast_eq ha (by omega) (by simpa using h)
  · rintro rfl; simp

end Residues

/-- Fermat: x^(q−2) is the inverse in a prime field, and 0 for 0. -/
theorem pow_prime_sub_two {q : Nat} (hq : q.Prime) (h2 : 2 < q) (x : ZMod q) :
    haveI := Fact.mk hq
    x ^ (q - 2) = x⁻¹ := by
  have := Fact.mk hq
  by_cases hx : x = 0
  · subst hx
    rw [zero_pow (by omega), inv_zero]
  · have h := ZMod.pow_card_sub_one_eq_one hx
    have : x ^ (q - 1) = x * x ^ (q - 2) := by rw [← pow_succ']; congr 1; omega
    exact eq_inv_of_mul_eq_one_right (by rw [← this]; exact h)

section PrimeField

variable [Fact (Nat.Prime primeP)]

theorem cast_subP (a b : Nat) : ((subMod primeP a b : Nat) : ZMod primeP) = a - b :=
  cast_subMod primeP_pos a b

theorem cast_negP (a : Nat) : ((negMod primeP a : Nat) : ZMod primeP) = -a :=
  cast_negMod primeP_pos a

theorem cast_invP (a : Nat) : ((invMod primeP a : Nat) : ZMod primeP) = (a : ZMod primeP)⁻¹ := by
  rw [invMod, cast_powMod primeP_pos a (by decide)]
  exact pow_prime_sub_two primeP_prime (by decide) _

end PrimeField

theorem cast_invN [Fact (Nat.Prime orderN)] (a : Nat) :
    ((invMod orderN a : Nat) : ZMod orderN) = (a : ZMod orderN)⁻¹ := by
  rw [invMod, cast_powMod orderN_pos a (by decide)]
  exact pow_prime_sub_two orderN_prime (by decide) _

theorem montMulP_lt (a b : Nat) : montMulP a b < primeP := Nat.mod_lt _ primeP_pos

theorem montMulN_lt (a b : Nat) : montMulN a b < orderN := Nat.mod_lt _ orderN_pos

theorem montP_lt (x : Nat) : montP x < primeP := Nat.mod_lt _ primeP_pos

theorem montN_lt (x : Nat) : montN x < orderN := Nat.mod_lt _ orderN_pos

theorem unmontP_lt (w : Nat) : unmontP w < primeP := Nat.mod_lt _ primeP_pos

theorem unmontN_lt (w : Nat) : unmontN w < orderN := Nat.mod_lt _ orderN_pos

theorem cast_montMulP (a b : Nat) : ((montMulP a b : Nat) : ZMod primeP) = a * b * rInvModP := by
  simp [montMulP]

theorem cast_montMulN (a b : Nat) : ((montMulN a b : Nat) : ZMod orderN) = a * b * rInvModN := by
  simp [montMulN]

theorem cast_montP (x : Nat) : ((montP x : Nat) : ZMod primeP) = x * radixR := by simp [montP]

theorem cast_montN (x : Nat) : ((montN x : Nat) : ZMod orderN) = x * radixR := by simp [montN]

theorem cast_unmontP (w : Nat) : ((unmontP w : Nat) : ZMod primeP) = w * rInvModP := by
  simp [unmontP]

theorem cast_unmontN (w : Nat) : ((unmontN w : Nat) : ZMod orderN) = w * rInvModN := by
  simp [unmontN]

theorem montSqrP_zero (x : Nat) : montSqrP 0 x = x := by rw [montSqrP, applyTimes]

theorem montSqrP_succ (k x : Nat) : montSqrP (k + 1) x = montSqrP k (montMulP x x) := by
  rw [montSqrP, applyTimes, montSqrP]

theorem montSqrN_zero (x : Nat) : montSqrN 0 x = x := by rw [montSqrN, applyTimes]

theorem montSqrN_succ (k x : Nat) : montSqrN (k + 1) x = montSqrN k (montMulN x x) := by
  rw [montSqrN, applyTimes, montSqrN]

/-- R · R⁻¹ ≡ 1 (mod p). -/
theorem radix_mul_rInvP : (radixR : ZMod primeP) * (rInvModP : ZMod primeP) = 1 := by
  rw [← Nat.cast_mul, ← Nat.cast_one, ZMod.natCast_eq_natCast_iff']
  decide

/-- R · R⁻¹ ≡ 1 (mod n). -/
theorem radix_mul_rInvN : (radixR : ZMod orderN) * (rInvModN : ZMod orderN) = 1 := by
  rw [← Nat.cast_mul, ← Nat.cast_one, ZMod.natCast_eq_natCast_iff']
  decide

end Sys2Proof.Machine
end

