-- ==== Sys2Proof/Laws/Curve.lean ====
section
/-! SUPPORT. The points of `Point.onCurve` and the law `Point.add` are those of the elliptic curve
y² = x³ − 3x + b over `ZMod p` as the library defines it, so that the library's group structure
applies. -/

namespace Sys2Proof.Machine

open WeierstrassCurve

/-- The curve of R7 over the field `ZMod p`. -/
def sm2Curve : WeierstrassCurve.Affine (ZMod primeP) := ⟨0, 0, 0, -3, (curveB : ZMod primeP)⟩

theorem curveRhs_lt (x : Nat) : curveRhs x < primeP := addMod_lt primeP_pos _ _

theorem toNat_ofNat_lt {v : Nat} (h : v < primeP) : (BitVec.ofNat 256 v).toNat = v := by
  rw [BitVec.toNat_ofNat, Nat.mod_eq_of_lt (h.trans primeP_lt_radix)]

theorem generator_onCurve : Point.generator.onCurve = true := by decide +kernel

variable [Fact (Nat.Prime primeP)]

theorem cast_curveRhs (x : Nat) :
    ((curveRhs x : Nat) : ZMod primeP) = (x : ZMod primeP) ^ 3 - 3 * x + curveB := by
  simp only [curveRhs, cast_addMod, cast_subP, cast_mulMod]
  push_cast; ring

theorem sm2Curve_disc_ne_zero : sm2Curve.Δ ≠ 0 := by
  have e : sm2Curve.Δ = -((432 * (curveB * curveB) - 1728 : Nat) : ZMod primeP) := by
    rw [Nat.cast_sub (by decide)]
    simp only [WeierstrassCurve.Δ, WeierstrassCurve.b₂, WeierstrassCurve.b₄, WeierstrassCurve.b₆,
      WeierstrassCurve.b₈, sm2Curve]
    push_cast; ring
  rw [e, neg_ne_zero, Ne, ZMod.natCast_eq_zero_iff]
  decide

theorem sm2Curve_nonsingular_iff (x y : ZMod primeP) :
    sm2Curve.Nonsingular x y ↔ y * y = x ^ 3 - 3 * x + curveB := by
  rw [← Affine.equation_iff_nonsingular_of_Δ_ne_zero sm2Curve_disc_ne_zero, Affine.equation_iff]
  simp only [sm2Curve]
  constructor <;> intro h <;> linear_combination h

/-- The library's point a `Point` stands for; a `Point` off the curve stands for 0. -/
noncomputable def Point.toCurve : Point → sm2Curve.Point
  | .infinity => 0
  | .affine x y =>
    open Classical in
    if h : sm2Curve.Nonsingular (x.toNat : ZMod primeP) (y.toNat : ZMod primeP) then .some _ _ h
    else 0

@[simp] theorem toCurve_infinity : Point.toCurve .infinity = 0 := rfl

theorem onCurve_affine_iff (x y : Elem) :
    (Point.affine x y).onCurve = true ↔ x.toNat < primeP ∧ y.toNat < primeP ∧
      sm2Curve.Nonsingular (x.toNat : ZMod primeP) (y.toNat : ZMod primeP) := by
  rw [sm2Curve_nonsingular_iff]
  simp only [Point.onCurve, Bool.and_eq_true, decide_eq_true_eq, and_assoc]
  refine and_congr_right fun _ => and_congr_right fun _ => ?_
  rw [← cast_mulMod, ← cast_curveRhs]
  exact ⟨fun h => by rw [h],
    fun h => eq_of_cast_eq (mulMod_lt primeP_pos _ _) (curveRhs_lt _) h⟩

theorem toCurve_affine {x y : Elem} (h : (Point.affine x y).onCurve = true) :
    (Point.affine x y).toCurve = .some _ _ ((onCurve_affine_iff x y).1 h).2.2 := by
  simp [Point.toCurve, ((onCurve_affine_iff x y).1 h).2.2]

/-- On E, the library's point determines the `Point`. -/
theorem toCurve_injOn {a b : Point} (ha : a.onCurve = true) (hb : b.onCurve = true)
    (h : a.toCurve = b.toCurve) : a = b := by
  rcases a with _ | ⟨x1, y1⟩ <;> rcases b with _ | ⟨x2, y2⟩
  · rfl
  · rw [toCurve_affine hb] at h; exact absurd h.symm (Affine.Point.some_ne_zero _)
  · rw [toCurve_affine ha] at h; exact absurd h (Affine.Point.some_ne_zero _)
  · rw [toCurve_affine ha, toCurve_affine hb, Affine.Point.some.injEq] at h
    obtain ⟨hx1, hy1, -⟩ := (onCurve_affine_iff _ _).1 ha
    obtain ⟨hx2, hy2, -⟩ := (onCurve_affine_iff _ _).1 hb
    rw [BitVec.eq_of_toNat_eq (eq_of_cast_eq hx1 hx2 h.1),
      BitVec.eq_of_toNat_eq (eq_of_cast_eq hy1 hy2 h.2)]

/-- The point of residues that satisfy the equation is on E and stands for the library's point. -/
theorem ofNat_spec {x y : Nat} (hx : x < primeP) (hy : y < primeP) {x' y' : ZMod primeP}
    (ex : (x : ZMod primeP) = x') (ey : (y : ZMod primeP) = y') (h : sm2Curve.Nonsingular x' y') :
    (Point.ofNat x y).onCurve = true ∧ (Point.ofNat x y).toCurve = .some x' y' h := by
  subst ex ey
  have hc : (Point.ofNat x y).onCurve = true := by
    rw [Point.ofNat, onCurve_affine_iff, toNat_ofNat_lt hx, toNat_ofNat_lt hy]
    exact ⟨hx, hy, h⟩
  refine ⟨hc, ?_⟩
  unfold Point.ofNat at hc ⊢
  rw [toCurve_affine hc, Affine.Point.some.injEq, toNat_ofNat_lt hx, toNat_ofNat_lt hy]
  exact ⟨rfl, rfl⟩

/-- Negation is the library's, and keeps E. -/
theorem neg_spec {a : Point} (ha : a.onCurve = true) :
    a.neg.onCurve = true ∧ a.neg.toCurve = -a.toCurve := by
  rcases a with _ | ⟨x, y⟩
  · exact ⟨rfl, rfl⟩
  · obtain ⟨hx, hy, hn⟩ := (onCurve_affine_iff _ _).1 ha
    have := ofNat_spec (x' := (x.toNat : ZMod primeP)) (y' := -(y.toNat : ZMod primeP)) hx
      (negMod_lt primeP_pos y.toNat) rfl (cast_negP _)
      (by rw [sm2Curve_nonsingular_iff] at hn ⊢; linear_combination hn)
    refine ⟨this.1, ?_⟩
    rw [Point.neg, this.2, toCurve_affine ha, Affine.Point.neg_some, Affine.Point.some.injEq]
    simp [sm2Curve, Affine.negY]

theorem two_ne_zero_P : (2 : ZMod primeP) ≠ 0 := by
  have h : ((2 : Nat) : ZMod primeP) ≠ 0 := by
    rw [Ne, cast_eq_zero_iff (by decide)]; decide
  simpa using h

/-- A slope's third point, as field elements. -/
theorem ofSlope_spec {l x1 y1 x2 : Nat} {l' : ZMod primeP} (el : (l : ZMod primeP) = l')
    (h : sm2Curve.Nonsingular (sm2Curve.addX (x1 : ZMod primeP) x2 l')
      (sm2Curve.addY (x1 : ZMod primeP) x2 y1 l')) :
    (Point.ofSlope l x1 y1 x2).onCurve = true ∧
      (Point.ofSlope l x1 y1 x2).toCurve = .some _ _ h := by
  subst el
  refine ofNat_spec (subMod_lt primeP_pos _ _) (subMod_lt primeP_pos _ _) ?_ ?_ h
  · simp only [cast_subP, cast_mulMod, Affine.addX, sm2Curve]; ring
  · simp only [cast_subP, cast_mulMod, Affine.addX, Affine.addY, Affine.negAddY, Affine.negY,
      sm2Curve]
    ring

/-- The group law of R17 is the library's, and E is closed under it. -/
theorem add_spec {a b : Point} (ha : a.onCurve = true) (hb : b.onCurve = true) :
    (a.add b).onCurve = true ∧ (a.add b).toCurve = a.toCurve + b.toCurve := by
  rcases a with _ | ⟨x1, y1⟩
  · exact ⟨hb, (zero_add _).symm⟩
  rcases b with _ | ⟨x2, y2⟩
  · exact ⟨ha, (add_zero _).symm⟩
  obtain ⟨hx1, hy1, hn1⟩ := (onCurve_affine_iff _ _).1 ha
  obtain ⟨hx2, hy2, hn2⟩ := (onCurve_affine_iff _ _).1 hb
  rw [toCurve_affine ha, toCurve_affine hb]
  have hsum : ((addMod primeP y1.toNat y2.toNat : Nat) : ZMod primeP) = 0 ↔
      (y1.toNat : ZMod primeP) = sm2Curve.negY (x2.toNat : ZMod primeP) (y2.toNat : ZMod primeP) := by
    rw [cast_addMod]
    simp only [Affine.negY, sm2Curve]
    constructor <;> intro h <;> linear_combination h
  rw [cast_eq_zero_iff (addMod_lt primeP_pos _ _)] at hsum
  simp only [Point.add]
  split
  · next hx =>
    subst hx
    split
    · next hy =>
      exact ⟨rfl, (Affine.Point.add_of_Y_eq rfl (hsum.1 hy)).symm⟩
    · next hy =>
      have hne := fun h => hy (hsum.2 h)
      rw [Affine.Point.add_of_Y_ne hne]
      refine ofSlope_spec ?_ _
      rw [Affine.slope_of_Y_ne rfl hne, tangentSlope]
      simp only [cast_mulMod, cast_subP, cast_invP, Affine.negY, sm2Curve]
      push_cast
      rw [div_eq_mul_inv]
      exact congrArg₂ (fun u v => u * v⁻¹) (by ring) (by ring)
  · next hx =>
    have hne : (x1.toNat : ZMod primeP) ≠ x2.toNat := fun h =>
      hx (BitVec.eq_of_toNat_eq (eq_of_cast_eq hx1 hx2 h))
    rw [Affine.Point.add_of_X_ne hne]
    refine ofSlope_spec ?_ _
    rw [Affine.slope_of_X_ne hne, chordSlope]
    simp only [cast_mulMod, cast_subP, cast_invP]
    rw [← neg_sub (x2.toNat : ZMod primeP), ← neg_sub (y2.toNat : ZMod primeP), neg_div_neg_eq,
      div_eq_mul_inv]

/-- `[k]P` is the library's multiple. -/
theorem smul_spec {a : Point} (ha : a.onCurve = true) :
    ∀ k, (Point.smul k a).onCurve = true ∧ (Point.smul k a).toCurve = k • a.toCurve
  | 0 => ⟨rfl, (zero_nsmul _).symm⟩
  | k + 1 => by
    have ih := smul_spec ha k
    have h := add_spec ih.1 ha
    exact ⟨h.1, by rw [Point.smul, h.2, ih.2, succ_nsmul]⟩

/-- Two points of E are equal exactly when the library's are. -/
theorem toCurve_eq_iff {a b : Point} (ha : a.onCurve = true) (hb : b.onCurve = true) :
    a.toCurve = b.toCurve ↔ a = b :=
  ⟨toCurve_injOn ha hb, fun h => by rw [h]⟩

end Sys2Proof.Machine
end

