-- ==== Sys2Proof/Laws/Encoding.lean ====
section
/-! SUPPORT. The laws of the command encoding: the fields of a packed word, the opcode map both ways,
and the mask test of R63 as "the opcode matches and the unused fields are zero". -/

namespace Sys2Proof

/-- The fields a format does not use are zero (R63). -/
def Format.unusedZero : Format → Fields → Prop
  | .n, x => x.rd = 0 ∧ x.ra = 0 ∧ x.rb = 0 ∧ x.rc = 0 ∧ x.imm = 0
  | .i, x => x.rd = 0 ∧ x.ra = 0 ∧ x.rb = 0 ∧ x.rc = 0
  | .d, x => x.ra = 0 ∧ x.rb = 0 ∧ x.rc = 0 ∧ x.imm = 0
  | .s, x => x.rd = 0 ∧ x.rb = 0 ∧ x.rc = 0 ∧ x.imm = 0
  | .di, x => x.ra = 0 ∧ x.rb = 0 ∧ x.rc = 0
  | .r2, x => x.rb = 0 ∧ x.rc = 0 ∧ x.imm = 0
  | .r2i, x => x.rb = 0 ∧ x.rc = 0
  | .ss, x => x.rd = 0 ∧ x.rc = 0 ∧ x.imm = 0
  | .r3, x => x.rc = 0 ∧ x.imm = 0
  | .r4, x => x.imm = 0

theorem packWord_toNat (op : BitVec 8) (x : Fields) :
    (packWord op x).toNat = op.toNat + x.rd.val * 0x100 + x.ra.val * 0x1000 + x.rb.val * 0x10000
      + x.rc.val * 0x100000 + x.imm.toNat * 0x1000000 := by
  have h0 := op.isLt
  have h1 := x.rd.isLt
  have h2 := x.ra.isLt
  have h3 := x.rb.isLt
  have h4 := x.rc.isLt
  have h5 := x.imm.isLt
  unfold packWord
  rw [BitVec.toNat_ofNat]
  omega

theorem wordOp_packWord (op : BitVec 8) (x : Fields) : wordOp (packWord op x) = op := by
  have h0 := op.isLt
  apply BitVec.eq_of_toNat_eq
  rw [wordOp, BitVec.toNat_ofNat, packWord_toNat]
  omega

theorem wordFields_packWord (op : BitVec 8) (x : Fields) : wordFields (packWord op x) = x := by
  have h0 := op.isLt
  have h1 := x.rd.isLt
  have h2 := x.ra.isLt
  have h3 := x.rb.isLt
  have h4 := x.rc.isLt
  have h5 := x.imm.isLt
  obtain ⟨rd, ra, rb, rc, imm⟩ := x
  simp only [wordFields, wordReg, packWord_toNat, Fields.mk.injEq]
  refine ⟨Fin.ext ?_, Fin.ext ?_, Fin.ext ?_, Fin.ext ?_, BitVec.eq_of_toNat_eq ?_⟩
  all_goals simp only [Fin.val_ofNat, BitVec.toNat_ofNat] at *
  all_goals omega

/-- A word is its opcode byte and its fields, packed. -/
theorem packWord_wordFields (w : Word) : packWord (wordOp w) (wordFields w) = w := by
  have h := w.isLt
  apply BitVec.eq_of_toNat_eq
  rw [packWord_toNat]
  simp only [wordFields, wordReg, wordOp, Fin.val_ofNat, BitVec.toNat_ofNat]
  omega

theorem opOfCode_code (op : Op) : opOfCode op.code = some op := by cases op <;> rfl

theorem code_opOfCode : ∀ (c : BitVec 8) (op : Op), opOfCode c = some op → op.code = c := by
  decide +kernel

theorem nat_and_nibble (a m : Nat) : a &&& m = ((a / 16) &&& (m / 16)) * 16 + (a % 16 &&& m % 16) := by
  have h1 : (a &&& m) / 2 ^ 4 = a / 2 ^ 4 &&& m / 2 ^ 4 := Nat.and_div_two_pow
  have h2 : (a &&& m) % 2 ^ 4 = (a % 2 ^ 4) &&& (m % 2 ^ 4) := Nat.and_mod_two_pow
  have h := Nat.div_add_mod (a &&& m) (2 ^ 4)
  rw [h1, h2] at h
  rw [← h]
  ring_nf

theorem nat_and_f (a : Nat) : a % 16 &&& 15 = a % 16 := by
  rw [show (15 : Nat) = 2 ^ 4 - 1 from rfl, Nat.and_two_pow_sub_one_eq_mod]
  omega

theorem and_mask_toNat (w : Word) (f : Format) : (w &&& f.mask).toNat =
    w.toNat % 0x100
      + (if f = .n ∨ f = .i ∨ f = .s ∨ f = .ss then w.toNat / 0x100 % 16 * 0x100 else 0)
      + (if f = .n ∨ f = .i ∨ f = .d ∨ f = .di then w.toNat / 0x1000 % 16 * 0x1000 else 0)
      + (if f = .n ∨ f = .i ∨ f = .d ∨ f = .di ∨ f = .s ∨ f = .r2 ∨ f = .r2i then
          w.toNat / 0x10000 % 16 * 0x10000 else 0)
      + (if f ≠ .r4 then w.toNat / 0x100000 % 16 * 0x100000 else 0)
      + (if f = .i ∨ f = .di ∨ f = .r2i then 0 else w.toNat / 0x1000000 % 256 * 0x1000000) := by
  have hw := w.isLt
  rw [BitVec.toNat_and]
  generalize w.toNat = a at hw ⊢
  cases f <;>
    simp only [Format.mask, BitVec.reduceToNat, reduceCtorEq, or_false, or_true,
      if_true, if_false, ne_eq, not_false_eq_true, not_true_eq_false] <;>
    (rw [nat_and_nibble a, nat_and_nibble (a / 16), nat_and_nibble (a / 16 / 16),
      nat_and_nibble (a / 16 / 16 / 16), nat_and_nibble (a / 16 / 16 / 16 / 16),
      nat_and_nibble (a / 16 / 16 / 16 / 16 / 16), nat_and_nibble (a / 16 / 16 / 16 / 16 / 16 / 16),
      nat_and_nibble (a / 16 / 16 / 16 / 16 / 16 / 16 / 16)]
     norm_num only [nat_and_f, Nat.and_zero, Nat.zero_and]
     omega)

/-- R63's selection of a row: the masked word is the match word exactly when the opcode byte is the
row's and every unused field is zero. -/
theorem mask_eq_match_iff (w : Word) (op : Op) : w &&& op.format.mask = op.matchWord ↔
    wordOp w = op.code ∧ op.format.unusedZero (wordFields w) := by
  have hw := w.isLt
  have hc := op.code.isLt
  have hm : op.matchWord.toNat = op.code.toNat := by
    rw [Op.matchWord, BitVec.toNat_setWidth, Nat.mod_eq_of_lt (by omega)]
  rw [← BitVec.toNat_inj, and_mask_toNat, hm]
  rw [← BitVec.toNat_inj (x := wordOp w), wordOp, BitVec.toNat_ofNat]
  generalize op.code.toNat = c at *
  generalize op.format = f
  cases f <;>
    simp only [Format.unusedZero, wordFields, wordReg, reduceCtorEq, or_false, or_true,
      if_true, if_false, ne_eq, not_false_eq_true, not_true_eq_false, Fin.ext_iff,
      Fin.val_ofNat, ← BitVec.toNat_inj, BitVec.toNat_ofNat, Fin.val_zero, BitVec.ofNat_eq_ofNat] <;>
    omega

/-- The fields of a command that its format does not use are zero. -/
theorem fields_unusedZero (i : Instr) : i.op.format.unusedZero i.fields := by
  cases i <;> simp [Instr.op, Op.format, Instr.fields, Format.unusedZero]

theorem buildInstr_fields (i : Instr) : buildInstr i.op i.fields = i := by cases i <;> rfl

/-- The immediate test of the decoder is the well-formedness of the command. -/
theorem immOk_iff_wellFormed (i : Instr) : i.op.immOk i.fields.imm = true ↔ i.WellFormed := by
  cases i <;> simp [Instr.WellFormed, Instr.wellFormed, Instr.op, Instr.fields, Op.immOk, Op.immRange]
  all_goals first
    | exact decide_eq_true_iff
    | exact ⟨fun h => of_decide_eq_true h.1,
        fun h => ⟨decide_eq_true h, decide_eq_true (Nat.le_of_lt_succ (BitVec.isLt (w := 8) _))⟩⟩

/-- The fields of an encoded command. -/
theorem wordOp_encode (i : Instr) : wordOp (encode i) = i.op.code := by rw [encode, wordOp_packWord]

theorem wordFields_encode (i : Instr) : wordFields (encode i) = i.fields := by
  rw [encode, wordFields_packWord]

/-- An encoded command matches its own row. -/
theorem encode_matches (i : Instr) : encode i &&& i.op.format.mask = i.op.matchWord :=
  (mask_eq_match_iff _ _).2 ⟨wordOp_encode i, by rw [wordFields_encode]; exact fields_unusedZero i⟩

/-- What the decoder gives for a word whose opcode byte is a row's. -/
theorem decode_of_row (w : Word) (op : Op) (h : opOfCode (wordOp w) = some op) :
    decode w = if w &&& op.format.mask = op.matchWord then
        if op.immOk (wordFields w).imm then .ok (buildInstr op (wordFields w)) else .error .immRange
      else .error .unusedField := by
  unfold decode; rw [h]

end Sys2Proof
end

