-- ==== Sys2Proof/Laws/GeneratorOrder.lean ====
section
/-! SUPPORT. n · G = ∞ (spec/00_scope.md R9), by double-and-add evaluated in the kernel. -/

namespace Sys2Proof.Machine

/-- Double-and-add rounds, least significant bit first. -/
def Point.doubleAddRounds : Nat → Point → Nat → Point → Point
  | 0, _, _, acc => acc
  | k + 1, q, e, acc =>
    Point.doubleAddRounds k (Point.add q q) (e / 2) (if e % 2 = 1 then Point.add acc q else acc)

theorem toCurve_doubleAddRounds [Fact (Nat.Prime primeP)] :
    ∀ k (q : Point) e acc, e < 2 ^ k → q.onCurve = true → acc.onCurve = true →
      (Point.doubleAddRounds k q e acc).onCurve = true ∧
        (Point.doubleAddRounds k q e acc).toCurve = acc.toCurve + e • q.toCurve
  | 0, q, e, acc, h, _, ha => by
    have he : e = 0 := by simpa using h
    subst he
    exact ⟨ha, by rw [zero_nsmul, add_zero]; rfl⟩
  | k + 1, q, e, acc, h, hq, ha => by
    have hk : e / 2 < 2 ^ k := by rw [pow_succ] at h; omega
    have hd := add_spec hq hq
    rw [Point.doubleAddRounds]
    split
    · next ho =>
      have hs := add_spec ha hq
      have ih := toCurve_doubleAddRounds k _ _ _ hk hd.1 hs.1
      refine ⟨ih.1, ?_⟩
      rw [ih.2, hs.2, hd.2, ← two_nsmul, ← mul_nsmul', add_assoc, ← succ_nsmul']
      congr 2; omega
    · next ho =>
      have ih := toCurve_doubleAddRounds k _ _ _ hk hd.1 ha
      refine ⟨ih.1, ?_⟩
      rw [ih.2, hd.2, ← two_nsmul, ← mul_nsmul']
      congr 2; omega

theorem doubleAdd_orderN :
    Point.doubleAddRounds 256 Point.generator orderN .infinity = .infinity := by
  decide +kernel

/-- n · G = ∞ in the curve's group. -/
theorem orderN_nsmul_generator [Fact (Nat.Prime primeP)] :
    orderN • Point.generator.toCurve = 0 := by
  have h := toCurve_doubleAddRounds 256 Point.generator orderN .infinity (by decide)
    generator_onCurve rfl
  rw [doubleAdd_orderN] at h
  have h2 := h.2
  rw [show Point.infinity.toCurve = 0 from rfl, zero_add] at h2
  exact h2.symm

end Sys2Proof.Machine
end

