-- ==== Sys2Proof/Laws/NoOrderTwo.lean ====
section
/-! SUPPORT. The polynomial x³ − 3x + b has no root in GF(p), so no point of E has y = 0
(spec/00_scope.md R9). A root r would satisfy r^p = r; the power x^p is computed modulo the polynomial,
and x^p − x is shown to be invertible there. -/

namespace Sys2Proof.Machine

/-- A residue modulo x³ − 3x + b: the coefficients of 1, x and x². -/
structure CubicRes where
  a0 : Nat
  a1 : Nat
  a2 : Nat
  deriving DecidableEq

/-- The product modulo x³ = 3x − b and x⁴ = 3x² − b·x. -/
def CubicRes.mul (u v : CubicRes) : CubicRes :=
  let c3 := u.a1 * v.a2 + u.a2 * v.a1
  let c4 := u.a2 * v.a2
  ⟨(u.a0 * v.a0 + c3 * (primeP - curveB)) % primeP,
   (u.a0 * v.a1 + u.a1 * v.a0 + 3 * c3 + c4 * (primeP - curveB)) % primeP,
   (u.a0 * v.a2 + u.a1 * v.a1 + u.a2 * v.a0 + 3 * c4) % primeP⟩

/-- Square-and-multiply rounds of the product. -/
def CubicRes.powRounds : Nat → CubicRes → Nat → CubicRes → CubicRes
  | 0, _, _, acc => acc
  | k + 1, u, e, acc =>
    CubicRes.powRounds k (u.mul u) (e / 2) (if e % 2 = 1 then acc.mul u else acc)

/-- The value of a residue at r. -/
def CubicRes.eval (r : ZMod primeP) (u : CubicRes) : ZMod primeP :=
  u.a0 + u.a1 * r + u.a2 * r ^ 2

theorem cubic_eval_mul {r : ZMod primeP} (hr : r ^ 3 - 3 * r + curveB = 0) (u v : CubicRes) :
    (u.mul v).eval r = u.eval r * v.eval r := by
  have hb : ((primeP - curveB : Nat) : ZMod primeP) = -curveB := by
    rw [Nat.cast_sub (by decide)]; simp
  simp only [CubicRes.mul, CubicRes.eval, ZMod.natCast_mod]
  push_cast
  rw [hb]
  linear_combination
    (-((u.a1 : ZMod primeP) * v.a2 + u.a2 * v.a1) - u.a2 * v.a2 * r) * hr

theorem cubic_eval_powRounds {r : ZMod primeP} (hr : r ^ 3 - 3 * r + curveB = 0) :
    ∀ k u e acc, e < 2 ^ k →
      (CubicRes.powRounds k u e acc).eval r = acc.eval r * u.eval r ^ e
  | 0, u, e, acc, h => by
    have he : e = 0 := by simpa using h
    simp [CubicRes.powRounds, he]
  | k + 1, u, e, acc, h => by
    have hk : e / 2 < 2 ^ k := by rw [pow_succ] at h; omega
    rw [CubicRes.powRounds, cubic_eval_powRounds hr k _ _ _ hk, cubic_eval_mul hr]
    split
    · next ho =>
      rw [cubic_eval_mul hr]
      conv_rhs => rw [show e = 2 * (e / 2) + 1 by omega]
      ring
    · next ho =>
      conv_rhs => rw [show e = 2 * (e / 2) by omega]
      ring

/-- x^p − x modulo the polynomial. -/
def cubicFrobenius : CubicRes :=
  let g := CubicRes.powRounds 256 ⟨0, 1, 0⟩ primeP ⟨1, 0, 0⟩
  ⟨g.a0, (g.a1 + (primeP - 1)) % primeP, g.a2⟩

theorem cubicFrobenius_unit : CubicRes.mul
    ⟨0xEB9539FB12A69FA8A00429AFC717F1319F0C8D5B6B742939772C4EA8AE886749, 0xBBEA3C6E4F9890BC31AEF1CE9ABBEAF4847D5C84BFA4437849CB29256264E8B1, 0x4EACC0D01F9E2A10D4F0056C0628EF26E06A3759CE9C5557561509C6FC21376F⟩
    cubicFrobenius = ⟨1, 0, 0⟩ := by
  decide +kernel

/-- x³ − 3x + b has no root in GF(p) (R9). -/
theorem cubic_no_root [Fact (Nat.Prime primeP)] (r : ZMod primeP) : r ^ 3 - 3 * r + curveB ≠ 0 := by
  intro hr
  have hpow := cubic_eval_powRounds hr 256 ⟨0, 1, 0⟩ primeP ⟨1, 0, 0⟩ (by decide)
  have hx : CubicRes.eval r ⟨0, 1, 0⟩ = r := by simp [CubicRes.eval]
  have h1 : CubicRes.eval r ⟨1, 0, 0⟩ = 1 := by simp [CubicRes.eval]
  rw [hx, h1, one_mul, ZMod.pow_card] at hpow
  have hf : cubicFrobenius.eval r = 0 := by
    have hc : ((primeP - 1 : Nat) : ZMod primeP) = -1 := by
      rw [Nat.cast_sub (by decide)]; simp
    simp only [CubicRes.eval] at hpow
    simp only [cubicFrobenius, CubicRes.eval, ZMod.natCast_mod, Nat.cast_add, hc]
    linear_combination hpow
  have hu := congrArg (CubicRes.eval r) cubicFrobenius_unit
  rw [cubic_eval_mul hr, hf, mul_zero, h1] at hu
  exact zero_ne_one hu

/-- No point of E has y = 0 (R9). -/
theorem onCurve_y_ne_zero {x y : Elem} (h : (Point.affine x y).onCurve = true) : y.toNat ≠ 0 := by
  have := primeP_fact
  intro hy
  have hn := ((onCurve_affine_iff x y).1 h).2.2
  rw [sm2Curve_nonsingular_iff, hy] at hn
  exact cubic_no_root _ (by simpa using hn.symm)

end Sys2Proof.Machine
end

