-- ==== Sys2Proof/Laws/Jacobian.lean ====
section
/-! SUPPORT. What the Jacobian datapath computes, as elements of `ZMod p`: the point a triple stands for,
the coordinates of the doubler and of the adders, and the sums of the group law in the same terms. -/

namespace Sys2Proof.Machine

theorem isInf_iff (t : Jac) : t.isInf = true ↔ t.z = 0 := by simp [Jac.isInf]

/-- A triple with Z = 0 is ∞. -/
theorem toPoint_of_z_zero {t : Jac} (h : t.z = 0) : t.toPoint = .infinity := by
  unfold Jac.toPoint Jac.isInf; simp [h]

/-- A residue is nonzero exactly when its cast is. -/
theorem cast_ne_zero_iff {z : Nat} (h : z < primeP) : (z : ZMod primeP) ≠ 0 ↔ z ≠ 0 :=
  (cast_eq_zero_iff h).not

/-- Membership in E of a point of residues, in the field. -/
theorem ofNat_onCurve_iff {x y : Nat} (hx : x < primeP) (hy : y < primeP) :
    (Point.ofNat x y).onCurve = true ↔ mulMod primeP y y = curveRhs x := by
  unfold Point.ofNat Point.onCurve
  dsimp only
  rw [toNat_ofNat_lt hx, toNat_ofNat_lt hy]; simp [hx, hy]

theorem double_lt (t : Jac) : (Jac.double t).x < primeP ∧ (Jac.double t).y < primeP ∧
    (Jac.double t).z < primeP :=
  ⟨subMod_lt primeP_pos _ _, subMod_lt primeP_pos _ _, subMod_lt primeP_pos _ _⟩

theorem generalAdd_lt (a b : Jac) : (Jac.generalAdd a b).1.x < primeP ∧
    (Jac.generalAdd a b).1.y < primeP ∧ (Jac.generalAdd a b).1.z < primeP :=
  ⟨subMod_lt primeP_pos _ _, subMod_lt primeP_pos _ _, mulMod_lt primeP_pos _ _⟩

theorem mixedAdd_lt (a : Jac) (x2 y2 : Nat) : (Jac.mixedAdd a x2 y2).1.x < primeP ∧
    (Jac.mixedAdd a x2 y2).1.y < primeP ∧ (Jac.mixedAdd a x2 y2).1.z < primeP :=
  ⟨subMod_lt primeP_pos _ _, subMod_lt primeP_pos _ _, subMod_lt primeP_pos _ _⟩

variable [Fact (Nat.Prime primeP)]

/-- A triple with Z ≠ 0 is the finite point (X/Z², Y/Z³). -/
theorem toPoint_of_z_ne_zero {t : Jac} (h : t.z ≠ 0) : ∃ x y, t.toPoint = Point.ofNat x y ∧
    x < primeP ∧ y < primeP ∧ (x : ZMod primeP) = t.x / (t.z : ZMod primeP) ^ 2 ∧
    (y : ZMod primeP) = t.y / (t.z : ZMod primeP) ^ 3 := by
  unfold Jac.toPoint Jac.isInf
  rw [if_neg (by simpa using h)]
  refine ⟨_, _, rfl, mulMod_lt primeP_pos _ _, mulMod_lt primeP_pos _ _, ?_, ?_⟩
  · simp only [cast_mulMod, cast_invP]; rw [div_eq_mul_inv, ← inv_pow, pow_two]
  · simp only [cast_mulMod, cast_invP]; rw [div_eq_mul_inv, ← inv_pow]; ring

/-- Points of residues are equal when the casts are. -/
theorem ofNat_congr {x y x' y' : Nat} (hx : x < primeP) (hy : y < primeP) (hx' : x' < primeP)
    (hy' : y' < primeP) (ex : (x : ZMod primeP) = x') (ey : (y : ZMod primeP) = y') :
    Point.ofNat x y = Point.ofNat x' y' := by
  rw [eq_of_cast_eq hx hx' ex, eq_of_cast_eq hy hy' ey]

/-- A finite point of E has y ≠ 0 in the field. -/
theorem cast_y_ne_zero {x y : Nat} (hy : y < primeP) (h : (Point.ofNat x y).onCurve = true) :
    (y : ZMod primeP) ≠ 0 := by
  rw [cast_ne_zero_iff hy]
  have := onCurve_y_ne_zero h
  rwa [toNat_ofNat_lt hy] at this

/-- The third point of a line, in the field. -/
theorem ofSlope_cast (l x1 y1 x2 : Nat) : ∃ x y, Point.ofSlope l x1 y1 x2 = Point.ofNat x y ∧
    x < primeP ∧ y < primeP ∧ (x : ZMod primeP) = (l : ZMod primeP) ^ 2 - x1 - x2 ∧
    (y : ZMod primeP) = l * (x1 - ((l : ZMod primeP) ^ 2 - x1 - x2)) - y1 := by
  refine ⟨_, _, rfl, subMod_lt primeP_pos _ _, subMod_lt primeP_pos _ _, ?_, ?_⟩
  · simp only [cast_subP, cast_mulMod]; ring
  · simp only [cast_subP, cast_mulMod]; ring

/-- The tangent case of the group law. -/
theorem add_tangent {x y : Nat} (hx : x < primeP) (hy : y < primeP)
    (h : (Point.ofNat x y).onCurve = true) :
    ∃ x3 y3, Point.add (Point.ofNat x y) (Point.ofNat x y) = Point.ofNat x3 y3 ∧ x3 < primeP ∧
      y3 < primeP ∧
      let l := (3 * (x : ZMod primeP) ^ 2 - 3) / (2 * y)
      (x3 : ZMod primeP) = l ^ 2 - x - x ∧ (y3 : ZMod primeP) = l * (x - (l ^ 2 - x - x)) - y := by
  have hne := cast_y_ne_zero hy h
  unfold Point.ofNat Point.add
  dsimp only
  rw [if_pos rfl, toNat_ofNat_lt hx, toNat_ofNat_lt hy, if_neg]
  · obtain ⟨x3, y3, e, h1, h2, h3, h4⟩ := ofSlope_cast (tangentSlope x y) x y x
    have hl : (tangentSlope x y : ZMod primeP) = (3 * (x : ZMod primeP) ^ 2 - 3) / (2 * y) := by
      unfold tangentSlope
      simp only [cast_mulMod, cast_subP, cast_invP]
      push_cast
      rw [div_eq_mul_inv, pow_two]
    rw [hl] at h3 h4
    exact ⟨x3, y3, e, h1, h2, h3, h4⟩
  · intro h0
    rw [← cast_eq_zero_iff (addMod_lt primeP_pos _ _), cast_addMod] at h0
    have h2 : (2 : ZMod primeP) * y = 0 := by linear_combination h0
    exact (mul_eq_zero.1 h2).elim two_ne_zero_P hne

/-- The chord case of the group law. -/
theorem add_chord {x1 y1 x2 y2 : Nat} (hx1 : x1 < primeP) (hy1 : y1 < primeP) (hx2 : x2 < primeP)
    (hy2 : y2 < primeP) (hne : (x1 : ZMod primeP) ≠ x2) :
    ∃ x3 y3, Point.add (Point.ofNat x1 y1) (Point.ofNat x2 y2) = Point.ofNat x3 y3 ∧ x3 < primeP ∧
      y3 < primeP ∧
      let l := ((y2 : ZMod primeP) - y1) / (x2 - x1)
      (x3 : ZMod primeP) = l ^ 2 - x1 - x2 ∧
        (y3 : ZMod primeP) = l * (x1 - (l ^ 2 - x1 - x2)) - y1 := by
  unfold Point.ofNat Point.add
  dsimp only
  rw [if_neg, toNat_ofNat_lt hx1, toNat_ofNat_lt hy1, toNat_ofNat_lt hx2, toNat_ofNat_lt hy2]
  · obtain ⟨x3, y3, e, h1, h2, h3, h4⟩ := ofSlope_cast (chordSlope x1 y1 x2 y2) x1 y1 x2
    have hl : (chordSlope x1 y1 x2 y2 : ZMod primeP) = ((y2 : ZMod primeP) - y1) / (x2 - x1) := by
      unfold chordSlope
      simp only [cast_mulMod, cast_subP, cast_invP]
      rw [div_eq_mul_inv]
    rw [hl] at h3 h4
    exact ⟨x3, y3, e, h1, h2, h3, h4⟩
  · intro h
    have := congrArg BitVec.toNat h
    rw [toNat_ofNat_lt hx1, toNat_ofNat_lt hx2] at this
    exact hne (by rw [this])

/-- The opposite case of the group law. -/
theorem add_opposite {x y1 y2 : Nat} (hy1 : y1 < primeP) (hy2 : y2 < primeP)
    (h : (y1 : ZMod primeP) + y2 = 0) :
    Point.add (Point.ofNat x y1) (Point.ofNat x y2) = .infinity := by
  unfold Point.ofNat Point.add
  dsimp only
  rw [if_pos rfl, toNat_ofNat_lt hy1, toNat_ofNat_lt hy2, if_pos]
  rw [← cast_eq_zero_iff (addMod_lt primeP_pos _ _), cast_addMod]; exact h

/-- The doubler's coordinates (R101), in the field. -/
theorem double_cast (t : Jac) :
    let X := (t.x : ZMod primeP)
    let Y := (t.y : ZMod primeP)
    let Z := (t.z : ZMod primeP)
    let a := 3 * (X - Z ^ 2) * (X + Z ^ 2)
    ((Jac.double t).z : ZMod primeP) = 2 * Y * Z ∧
      ((Jac.double t).x : ZMod primeP) = a ^ 2 - 8 * X * Y ^ 2 ∧
      ((Jac.double t).y : ZMod primeP) = a * (4 * X * Y ^ 2 - (a ^ 2 - 8 * X * Y ^ 2)) - 8 * Y ^ 4 := by
  unfold Jac.double
  dsimp only
  simp only [cast_subP, cast_mulMod, cast_addMod]
  push_cast
  exact ⟨by ring, by ring, by ring⟩

/-- The general adder's coordinates and flag (R102), in the field. -/
theorem generalAdd_cast (a b : Jac) :
    let X1 := (a.x : ZMod primeP)
    let Y1 := (a.y : ZMod primeP)
    let Z1 := (a.z : ZMod primeP)
    let X2 := (b.x : ZMod primeP)
    let Y2 := (b.y : ZMod primeP)
    let Z2 := (b.z : ZMod primeP)
    let H := X2 * Z1 ^ 2 - X1 * Z2 ^ 2
    let r := 2 * (Y2 * Z1 ^ 3 - Y1 * Z2 ^ 3)
    let V := 4 * X1 * Z2 ^ 2 * H ^ 2
    let J := 4 * H ^ 3
    ((Jac.generalAdd a b).1.z : ZMod primeP) = 2 * Z1 * Z2 * H ∧
      ((Jac.generalAdd a b).1.x : ZMod primeP) = r ^ 2 - J - 2 * V ∧
      ((Jac.generalAdd a b).1.y : ZMod primeP)
        = r * (V - (r ^ 2 - J - 2 * V)) - 2 * (Y1 * Z2 ^ 3 * J) ∧
      ((Jac.generalAdd a b).2 = true ↔ H = 0 ∧ r = 0) := by
  unfold Jac.generalAdd
  dsimp only
  refine ⟨?_, ?_, ?_, ?_⟩
  · simp only [cast_subP, cast_mulMod, cast_addMod]; ring
  · simp only [cast_subP, cast_mulMod]; push_cast; ring
  · simp only [cast_subP, cast_mulMod]; push_cast; ring
  · rw [Bool.and_eq_true, beq_iff_eq, beq_iff_eq, ← cast_eq_zero_iff (subMod_lt primeP_pos _ _),
      ← cast_eq_zero_iff (mulMod_lt primeP_pos _ _)]
    simp only [cast_subP, cast_mulMod]
    push_cast
    refine and_congr (Eq.congr ?_ rfl) (Eq.congr ?_ rfl) <;> ring

/-- The mixed adder is the general adder with Z2 = 1 (R102), in the field. -/
theorem mixedAdd_cast (a : Jac) (x2 y2 : Nat) :
    let g := Jac.generalAdd a ⟨x2, y2, 1⟩
    ((Jac.mixedAdd a x2 y2).1.x : ZMod primeP) = g.1.x ∧
      ((Jac.mixedAdd a x2 y2).1.y : ZMod primeP) = g.1.y ∧
      ((Jac.mixedAdd a x2 y2).1.z : ZMod primeP) = g.1.z ∧
      ((Jac.mixedAdd a x2 y2).2 = true ↔ g.2 = true) := by
  obtain ⟨gz, gx, gy, gf⟩ := generalAdd_cast a ⟨x2, y2, 1⟩
  dsimp only at gz gx gy gf ⊢
  rw [gx, gy, gz, gf]
  unfold Jac.mixedAdd
  dsimp only
  refine ⟨?_, ?_, ?_, ?_⟩
  · simp only [cast_subP, cast_mulMod]; push_cast; ring
  · simp only [cast_subP, cast_mulMod]; push_cast; ring
  · simp only [cast_subP, cast_mulMod, cast_addMod]; push_cast; ring
  · rw [Bool.and_eq_true, beq_iff_eq, beq_iff_eq, ← cast_eq_zero_iff (subMod_lt primeP_pos _ _),
      ← cast_eq_zero_iff (mulMod_lt primeP_pos _ _)]
    simp only [cast_subP, cast_mulMod]
    push_cast
    refine and_congr (Eq.congr ?_ rfl) (Eq.congr ?_ rfl) <;> ring

end Sys2Proof.Machine
end

