-- ==== Sys2Proof/Laws/PerInstr.lean ====
section
/-! SUPPORT. The per-instruction family `EncodesOwnRow`: the word of a command matches the mask and match
value of the command's own row of spec/30_encoding.md R65, and its fields are the command's operands, with
zero in each field the format does not use (R61, R63). -/

namespace Sys2Proof.Laws.EncodesOwnRow

/-- The word of `i` matches the row of `i`'s opcode and carries `i`'s fields. -/
def Statement (i : Instr) : Prop :=
  encode i &&& i.op.format.mask = i.op.matchWord ∧ wordOp (encode i) = i.op.code ∧
    wordFields (encode i) = i.fields ∧ i.op.format.unusedZero i.fields

theorem holds (i : Instr) : Statement i :=
  ⟨encode_matches i, wordOp_encode i, wordFields_encode i, fields_unusedZero i⟩

theorem nop : Statement .nop := holds _

theorem cset (k : BitVec 8) : Statement (.cset k) := holds _

theorem fadd (rd ra rb : Reg) : Statement (.fadd rd ra rb) := holds _

theorem fsub (rd ra rb : Reg) : Statement (.fsub rd ra rb) := holds _

theorem fmul (rd ra rb : Reg) : Statement (.fmul rd ra rb) := holds _

theorem fsqr (rd ra : Reg) (k : BitVec 8) : Statement (.fsqr rd ra k) := holds _

theorem finv (rd ra : Reg) : Statement (.finv rd ra) := holds _

theorem fsqrt (rd ra : Reg) : Statement (.fsqrt rd ra) := holds _

theorem fnegc (rd ra : Reg) : Statement (.fnegc rd ra) := holds _

theorem fsel (rd ra rb : Reg) : Statement (.fsel rd ra rb) := holds _

theorem feq (ra rb : Reg) : Statement (.feq ra rb) := holds _

theorem ftom (rd ra : Reg) : Statement (.ftom rd ra) := holds _

theorem ffromm (rd ra : Reg) : Statement (.ffromm rd ra) := holds _

theorem fmov (rd ra : Reg) : Statement (.fmov rd ra) := holds _

theorem fldc (rd : Reg) (k : BitVec 8) : Statement (.fldc rd k) := holds _

theorem fld (rd : Reg) : Statement (.fld rd) := holds _

theorem fst (ra : Reg) : Statement (.fst ra) := holds _

theorem fltp : Statement .fltp := holds _

theorem nadd (rd ra rb : Reg) : Statement (.nadd rd ra rb) := holds _

theorem nsub (rd ra rb : Reg) : Statement (.nsub rd ra rb) := holds _

theorem nmul (rd ra rb : Reg) : Statement (.nmul rd ra rb) := holds _

theorem nsqr (rd ra : Reg) (k : BitVec 8) : Statement (.nsqr rd ra k) := holds _

theorem ninv (rd ra : Reg) : Statement (.ninv rd ra) := holds _

theorem nmov (rd ra : Reg) : Statement (.nmov rd ra) := holds _

theorem nldc (rd : Reg) (k : BitVec 8) : Statement (.nldc rd k) := holds _

theorem nld (rd : Reg) : Statement (.nld rd) := holds _

theorem nst (ra : Reg) : Statement (.nst ra) := holds _

theorem impsig (rd ra rb rc : Reg) : Statement (.impsig rd ra rb rc) := holds _

theorem pinf (rd : Reg) : Statement (.pinf rd) := holds _

theorem pgen (rd : Reg) : Statement (.pgen rd) := holds _

theorem pmov (rd ra : Reg) : Statement (.pmov rd ra) := holds _

theorem pdbl (rd ra : Reg) : Statement (.pdbl rd ra) := holds _

theorem padd (rd ra rb : Reg) : Statement (.padd rd ra rb) := holds _

theorem pnegc (rd ra : Reg) : Statement (.pnegc rd ra) := holds _

theorem psel (rd ra rb : Reg) : Statement (.psel rd ra rb) := holds _

theorem pisinf (ra : Reg) : Statement (.pisinf ra) := holds _

theorem pmul (rd ra rb : Reg) : Statement (.pmul rd ra rb) := holds _

theorem pbmul (rd ra : Reg) : Statement (.pbmul rd ra) := holds _

theorem pdec (rd : Reg) : Statement (.pdec rd) := holds _

theorem penc (ra : Reg) : Statement (.penc ra) := holds _

theorem pencc (ra : Reg) : Statement (.pencc ra) := holds _

theorem pencx (ra : Reg) : Statement (.pencx ra) := holds _

end Sys2Proof.Laws.EncodesOwnRow
end

