-- ==== Sys2Proof/Laws/Port.lean ====
section
/-! SUPPORT. What a host access can do: when the port carries it, the step that carries it, the fields it
can change, and the parts of a window word. -/

namespace Sys2Proof.Machine

/-- The port carries an access exactly when reset is released, the access is one aligned word, and the
offset is in the window (R38, R145). -/
theorem portRefusal_eq_none_iff (s : State) (width off : Nat) : s.portRefusal width off = none ↔
    s.inReset = false ∧ width = 4 ∧ off % 4 = 0 ∧ off ≤ 0xFC := by
  unfold State.portRefusal
  repeat' split
  all_goals simp_all

/-- The step that carries a host write. -/
theorem step_write {s : State} {rest : List HostEvent} {off : Nat} {w : Word} (hr : s.inReset = false)
    (h4 : off % 4 = 0) (hl : off ≤ 0xFC) (h : s.inbox = .write 4 off w :: rest) :
    step s = .next (State.hostWrite { s with inbox := rest } off w) := by
  rw [step, move_eq, h]
  simp only [State.hostEvent, State.onPort]
  rw [(portRefusal_eq_none_iff _ _ _).2 ⟨by exact hr, rfl, h4, hl⟩]

/-- The step that carries a host read. -/
theorem step_read {s : State} {rest : List HostEvent} {off : Nat} (hr : s.inReset = false)
    (h4 : off % 4 = 0) (hl : off ≤ 0xFC) (h : s.inbox = .read 4 off :: rest) :
    step s = .next (State.reply (State.hostRead { s with inbox := rest } off).2
      (State.hostRead { s with inbox := rest } off).1) := by
  rw [step, move_eq, h]
  simp only [State.hostEvent, State.onPort]
  rw [(portRefusal_eq_none_iff _ _ _).2 ⟨by exact hr, rfl, h4, hl⟩]

/-- A host read leaves the state, or draws one free value. -/
theorem hostRead_state (s : State) (off : Nat) :
    (s.hostRead off).2 = s ∨ (s.hostRead off).2 = s.drawn := by
  unfold State.hostRead
  split
  · exact .inl rfl
  · exact .inl rfl
  · unfold State.readStatus; split <;> simp
  · unfold State.readIdle; split <;> simp
  · unfold State.readIdle; split <;> simp
  · exact .inl rfl

/-- Everything a host write can do. -/
theorem hostWrite_cases (s : State) (off : Nat) (w : Word) :
    s.hostWrite off w = s ∨ (s.busy = true ∧ s.hostWrite off w = s.overrun) ∨
      (s.busy = false ∧ s.hostWrite off w = s.accept w) ∨ s.hostWrite off w = s.writeStatus w ∨
      (s.busy = false ∧ w.toNat ≤ 65 ∧ s.hostWrite off w = s.setBufLen w.toNat) ∨
      (s.busy = false ∧ ∃ i, s.hostWrite off w = s.memWrite (4 * i) (wordBytes w)) := by
  unfold State.hostWrite
  split
  · simp
  · split
    · next h => simp [h]
    · next h => simp [h]
  · simp
  · split
    · next h => simp [h]
    · next h => split <;> simp_all
  · split
    · next h => simp [h]
    · next h => exact .inr (.inr (.inr (.inr (.inr ⟨by simpa using h, _, rfl⟩))))
  · simp

/-- Everything a write of STATUS can do. -/
theorem writeStatus_cases (s : State) (w : Word) :
    s.writeStatus w = s ∨ s.writeStatus w = s.acknowledge ∨ s.writeStatus w = s.clearOvr ∨
      s.writeStatus w = s.acknowledge.clearOvr := by
  unfold State.writeStatus
  dsimp only
  split <;> split <;> simp

theorem windowReg_bufW {i : Nat} (h : i ≤ 16) : windowReg (0x40 + 4 * i) = .bufW i := by
  unfold windowReg
  rw [if_neg (by omega), if_neg (by omega), if_neg (by omega), if_neg (by omega), if_pos (by omega)]
  congr 1; omega

theorem windowReg_reserved {off : Nat} (h : (0x10 ≤ off ∧ off ≤ 0x3C) ∨ 0x84 ≤ off) :
    windowReg off = .reserved := by
  unfold windowReg
  rw [if_neg (by omega), if_neg (by omega), if_neg (by omega), if_neg (by omega), if_neg (by omega)]

/-- A BUFW word depends on BUF alone. -/
theorem bufWord_congr {s t : State} (h : t.buf = s.buf) (i : Nat) : t.bufWord i = s.bufWord i := by
  unfold State.bufWord
  rw [bufByte_congr h, bufByte_congr h, bufByte_congr h, bufByte_congr h]

end Sys2Proof.Machine
end

