-- ==== Sys2Proof/Laws/Run.lean ====
section
/-! SUPPORT. Runs of the machine, step by step. -/

namespace Sys2Proof.Machine

/-- A run of no step. -/
theorem run_zero (s : State) : Host.Core.run Sys2Proof.core 0 s = .next s := rfl

/-- One step more, of any core. -/
theorem core_run_succ (M : Host.Core) (k : Nat) (s : M.State) : M.run (k + 1) s =
    match M.step s with
    | .next t => M.run k t
    | .fault r => .fault r
    | .refused r => .refused r := by rfl

theorem core_run_next (M : Host.Core) (k : Nat) (s t : M.State) (h : M.step s = .next t) :
    M.run (k + 1) s = M.run k t := by rw [core_run_succ, h]

theorem core_run_refused (M : Host.Core) (k : Nat) (s : M.State) (r : M.Refusal)
    (h : M.step s = .refused r) : M.run (k + 1) s = .refused r := by rw [core_run_succ, h]

/-- A run that begins with a step to a next state. -/
theorem run_next {s t : State} (h : step s = .next t) (k : Nat) :
    Host.Core.run Sys2Proof.core (k + 1) s = Host.Core.run Sys2Proof.core k t   :=
  core_run_next Sys2Proof.core k s t h

/-- A run in two parts, the first of which stops nowhere. -/
theorem run_append {s t : State} : ∀ {k : Nat}, Host.Core.run Sys2Proof.core k s = .next t →
    ∀ j, Host.Core.run Sys2Proof.core (k + j) s = Host.Core.run Sys2Proof.core j t := by
  intro k
  induction k generalizing s with
  | zero =>
    intro h j
    rw [run_zero] at h
    injection h with h
    rw [Nat.zero_add]
    subst h
    rfl
  | succ k ih =>
    intro h j
    cases hs : step s with
    | next u =>
      rw [run_next hs] at h
      rw [Nat.add_right_comm, run_next hs]
      exact ih h j
    | fault r => exact nomatch r
    | refused r =>
      rw [core_run_refused Sys2Proof.core k s r hs] at h
      cases h

end Sys2Proof.Machine
end

