-- ==== Sys2Proof/Tests/Slice0.lean ====
section
/-! SUPPORT. The model's own tests. Expected values are the vectors of spec/95_test_vectors.md (named by
their label) and words written out from spec/30_encoding.md. After them, one witness for each statement
that has hypotheses: a concrete state and operands that meet them, at the boundaries of each clause. -/

namespace Sys2Proof.Tests

-- Each theorem is checked before the next begins.
set_option Elab.async false

open Sys2Proof.Machine

/-! ### Helpers -/

/-- The state after a command, if it answers one. -/
def after (i : Instr) (s : State) : Option State :=
  match exec i s with
  | .next t => some t
  | .fault _ => none
  | .refused _ => none

/-- The state after a step, if it answers one. -/
def afterStep (s : State) : Option State :=
  match step s with
  | .next t => some t
  | .fault _ => none
  | .refused _ => none

theorem exec_of_after {i : Instr} {s t : State} (h : after i s = some t) : exec i s = .next t := by
  unfold after at h
  split at h
  · next u hu => injection h with h; rw [hu, h]
  · cases h
  · cases h

theorem step_of_after {s t : State} (h : afterStep s = some t) : step s = .next t := by
  unfold afterStep at h
  split at h
  · next u hu => injection h with h; rw [hu, h]
  · cases h
  · cases h

/-- What `after` shows of a command's next state. -/
theorem exists_of_after {α : Type} {i : Instr} {s : State} {f : State → α} {v : α}
    (h : (after i s).map f = some v) : ∃ t, exec i s = .next t ∧ f t = v := by
  cases ha : after i s with
  | none => rw [ha] at h; cases h
  | some t =>
    rw [ha] at h
    exact ⟨t, exec_of_after ha, by injection h⟩

/-- F1 and F2 written. -/
def twoF (a b : Nat) : State := (State.reset.setF 1 a).setF 2 b

/-- N1, N2 and N3 written. -/
def threeN (a b c : Nat) : State := ((State.reset.setN 1 a).setN 2 b).setN 3 c

/-- P1 and P2 written. -/
def twoP (a b : Point) : State := (State.reset.setP 1 a).setP 2 b

/-- BUF filled with a byte string. -/
def buf (bytes : List Byte) : State := State.reset.output bytes

/-- An idle engine to which the host presents `events`. -/
def hosted (events : List HostEvent) : State := State.reset.present events

/-- An engine that runs the word `w`, to which the host presents `events`. -/
def busyWith (w : Word) (events : List HostEvent) : State := (State.reset.accept w).present events

/-! ### Syntax and encoding -/

/-- An ill-formed term for each check, refused, and the nearest well-formed ones (R62). -/
theorem test_wellFormed :
    (Instr.cset 3).wellFormed = false ∧ (Instr.fsqr 1 1 0).wellFormed = false ∧
    (Instr.nsqr 1 1 0).wellFormed = false ∧ (Instr.fldc 6 8).wellFormed = false ∧
    (Instr.nldc 0 4).wellFormed = false ∧ (Instr.cset 2).wellFormed = true ∧
    (Instr.fsqr 1 1 1).wellFormed = true ∧ (Instr.nsqr 1 1 255).wellFormed = true ∧
    (Instr.fldc 6 7).wellFormed = true ∧ (Instr.nldc 0 3).wellFormed = true := by decide

/-! Every command's word, its fields written out by R61, R63 and R65: RD = A, RA = B, RB = C, RC = D and
the greatest legal immediate where the format has them. -/

theorem test_decode_control :
    decode 0x00000000 = .ok .nop ∧
    decode 0x02000001 = .ok (.cset 2) := by
  decide +kernel

theorem test_decode_prime :
    decode 0x000CBA10 = .ok (.fadd 10 11 12) ∧
    decode 0x000CBA11 = .ok (.fsub 10 11 12) ∧
    decode 0x000CBA12 = .ok (.fmul 10 11 12) ∧
    decode 0xFF00BA13 = .ok (.fsqr 10 11 255) ∧
    decode 0x0000BA14 = .ok (.finv 10 11) ∧
    decode 0x0000BA15 = .ok (.fsqrt 10 11) ∧
    decode 0x0000BA16 = .ok (.fnegc 10 11) ∧
    decode 0x000CBA17 = .ok (.fsel 10 11 12) ∧
    decode 0x000CB018 = .ok (.feq 11 12) ∧
    decode 0x0000BA19 = .ok (.ftom 10 11) ∧
    decode 0x0000BA1A = .ok (.ffromm 10 11) ∧
    decode 0x0000BA1B = .ok (.fmov 10 11) ∧
    decode 0x07000A1C = .ok (.fldc 10 7) ∧
    decode 0x00000A1D = .ok (.fld 10) ∧
    decode 0x0000B01E = .ok (.fst 11) ∧
    decode 0x0000001F = .ok .fltp := by
  decide +kernel

theorem test_decode_order :
    decode 0x000CBA20 = .ok (.nadd 10 11 12) ∧
    decode 0x000CBA21 = .ok (.nsub 10 11 12) ∧
    decode 0x000CBA22 = .ok (.nmul 10 11 12) ∧
    decode 0xFF00BA23 = .ok (.nsqr 10 11 255) ∧
    decode 0x0000BA24 = .ok (.ninv 10 11) ∧
    decode 0x0000BA25 = .ok (.nmov 10 11) ∧
    decode 0x03000A26 = .ok (.nldc 10 3) ∧
    decode 0x00000A27 = .ok (.nld 10) ∧
    decode 0x0000B028 = .ok (.nst 11) ∧
    decode 0x00DCBA29 = .ok (.impsig 10 11 12 13) := by
  decide +kernel

theorem test_decode_point :
    decode 0x00000A30 = .ok (.pinf 10) ∧
    decode 0x00000A31 = .ok (.pgen 10) ∧
    decode 0x0000BA32 = .ok (.pmov 10 11) ∧
    decode 0x0000BA33 = .ok (.pdbl 10 11) ∧
    decode 0x000CBA34 = .ok (.padd 10 11 12) ∧
    decode 0x0000BA35 = .ok (.pnegc 10 11) ∧
    decode 0x000CBA36 = .ok (.psel 10 11 12) ∧
    decode 0x0000B037 = .ok (.pisinf 11) ∧
    decode 0x000CBA38 = .ok (.pmul 10 11 12) ∧
    decode 0x0000BA39 = .ok (.pbmul 10 11) := by
  decide +kernel

theorem test_decode_codec :
    decode 0x00000A40 = .ok (.pdec 10) ∧
    decode 0x0000B041 = .ok (.penc 11) ∧
    decode 0x0000B042 = .ok (.pencc 11) ∧
    decode 0x0000B043 = .ok (.pencx 11) := by
  decide +kernel

/-- EN7 to EN13: illegal words, and why. -/
theorem test_decode_illegal :
    decode 0x0000311E = .error .unusedField ∧ decode 0x00001113 = .error .immRange ∧
    decode 0x03000001 = .error .immRange ∧ decode 0x0800061C = .error .immRange ∧
    decode 0x04000026 = .error .immRange ∧ decode 0x00000100 = .error .unusedField ∧
    decode 0x00000002 = .error .reservedOpcode ∧ decode 0x0000002A = .error .reservedOpcode ∧
    decode 0x0000003A = .error .reservedOpcode ∧ decode 0x00000044 = .error .reservedOpcode ∧
    decode 0x000000FF = .error .reservedOpcode := by decide +kernel

/-- R68: the assembler text of a command. -/
theorem test_asm : (Instr.fmul 3 1 2).asm = "FMUL F3, F1, F2" ∧
    (Instr.pmul 2 1 1).asm = "PMUL P2, P1, N1" ∧ (Instr.cset 1).asm = "CSET #1" := by decide +kernel

/-! ### Prime field -/

/-- FV1, FV2, FV4. -/
theorem test_fadd : (after (.fadd 0 1 2) (twoF (primeP - 1) 1)).map (·.fReg 0) = some 0 := by
  decide +kernel

theorem test_fadd_top : (after (.fadd 1 1 2) (twoF (primeP - 1) (primeP - 1))).map (·.fReg 1) =
    some 0xFFFFFFFEFFFFFFFFFFFFFFFFFFFFFFFFFFFFFFFF00000000FFFFFFFFFFFFFFFD := by decide +kernel

theorem test_fsub : (after (.fsub 0 1 2) (twoF 0 1)).map (·.fReg 0) =
    some 0xFFFFFFFEFFFFFFFFFFFFFFFFFFFFFFFFFFFFFFFF00000000FFFFFFFFFFFFFFFE := by decide +kernel

/-- FV6. -/
theorem test_fmul : (after (.fmul 0 1 2) (twoF 2 3)).map (·.fReg 0) =
    some 0xFFFFFFE700000023FFFFFFE800000011FFFFFFF300000024FFFFFFD60000001D := by decide +kernel


/-- FV10: M(2) squared three times is M(256). -/
theorem test_fsqr : (after (.fsqr 1 1 3) (twoF
    0x0000000200000000000000000000000000000001FFFFFFFE0000000000000002 0)).map (·.fReg 1) =
    some 0x00000100000000000000000000000000000000FFFFFFFF000000000000000100 := by
  decide +kernel

/-- FV12. -/
theorem test_finv : (after (.finv 0 1) (twoF
    0x0000000F0000000000000000000000000000000EFFFFFFF1000000000000000F 0)).map (·.fReg 0) =
    some 0x2222222211111111111111111111111111111111000000001111111111111111 := by
  decide +kernel

theorem test_finv_zero : (after (.finv 0 1) (twoF 0 0)).map (·.fReg 0) =
    some 0 := by
  decide +kernel

/-- FV17 and FV15: a square, and a non-square whose candidate is still written. -/
theorem test_fsqrt : (after (.fsqrt 0 1)
    (twoF 0x0000000200000000000000000000000000000001FFFFFFFE0000000000000002 0)).map (fun t => (t.fReg 0,
        t.cFlag)) =
    some (0x6F762F21E4DF056FE9099DE9498D7361D476CBE756F7B5EB33E8640016D739C2, true) := by
  decide +kernel

theorem test_fsqrt_none : (after (.fsqrt 0 1)
    ((twoF 0xFFFFFFFDFFFFFFFFFFFFFFFFFFFFFFFFFFFFFFFE00000001FFFFFFFFFFFFFFFE 0).setC true)).map (fun t
        => (t.fReg 0, t.cFlag)) =
    some (0x0000000100000000000000000000000000000000FFFFFFFF0000000000000001, false) := by
  decide +kernel

/-- FV19, FV20. -/
theorem test_fnegc : (after (.fnegc 0 1) ((twoF 1 0).setC true)).map (·.fReg 0) =
    some (primeP - 1) := by
  decide +kernel

theorem test_fnegc_zero : (after (.fnegc 0 2) ((twoF 1 0).setC true)).map (·.fReg 0) =
    some 0 := by
  decide +kernel

/-- FV22. -/
theorem test_fsel : (after (.fsel 0 1 2) ((twoF
    0x0000000300000000000000000000000000000002FFFFFFFD0000000000000003
    0x0000000500000000000000000000000000000004FFFFFFFB0000000000000005).setC false)).map (·.fReg 0) =
    some 0x0000000500000000000000000000000000000004FFFFFFFB0000000000000005 := by
  decide +kernel

/-- FV23. -/
theorem test_feq : (after (.feq 1 2) (twoF 1 1)).map (·.cFlag) = some true := by
  decide +kernel

theorem test_feq_ne : (after (.feq 1 2) (twoF 1 (primeP - 1))).map (·.cFlag) = some false := by
  decide +kernel

/-- FV24. -/
theorem test_ftom : (after (.ftom 0 1) (twoF 5 0)).map (·.fReg 0) =
    some 0x0000000500000000000000000000000000000004FFFFFFFB0000000000000005 := by
  decide +kernel

/-- FV25. -/
theorem test_ffromm : (after (.ffromm 0 1) (twoF
    0x0000000F0000000000000000000000000000000EFFFFFFF1000000000000000F 0)).map (·.fReg 0) =
    some 15 := by
  decide +kernel

/-- R84. -/
theorem test_fmov : (after (.fmov 0 1) (twoF
    0x0000000F0000000000000000000000000000000EFFFFFFF1000000000000000F 7)).map (·.fReg 0) =
    some 0x0000000F0000000000000000000000000000000EFFFFFFF1000000000000000F := by
  decide +kernel

/-- FV26. -/
theorem test_fldc : (after (.fldc 0 4) (State.reset)).map (·.fReg 0) =
    some 0xFFFFFFFBFFFFFFFFFFFFFFFFFFFFFFFFFFFFFFFC00000003FFFFFFFFFFFFFFFC := by
  decide +kernel

/-- PR6, step 9, from a state that a legal word cannot reach. -/
theorem test_fldc_illegal : (after (.fldc 6 8) (State.reset)).map (·.err) = some 6 := by
  decide +kernel

/-- FV27, FV28. -/
theorem test_fld : (after (.fld 0) (buf (be32 (primeP - 1)))).map (·.fReg 0) =
    some (primeP - 1) := by
  decide +kernel

theorem test_fld_range : (after (.fld 0) (buf (be32 primeP))).map (·.err) = some 1 := by
  decide +kernel

/-- FV30. -/
theorem test_fst : (after (.fst 1) (twoF 15 0)).map (fun t => (t.bufByte 30, t.bufByte 31, t.bufLen)) =
    some (0x00, 0x0F, 32) := by
  decide +kernel

/-- FV31, FV32. -/
theorem test_fltp : (after (.fltp) (buf (be32 primeP))).map (·.cFlag) = some false := by
  decide +kernel

theorem test_fltp_length : (after (.fltp) ((buf (be32 1)).setBufLen 31 |>.setC true)).map
    (fun t => (t.err, t.cFlag)) = some (1, true) := by
  decide +kernel

/-! ### Order field -/

/-- OV1. -/
theorem test_nadd : (after (.nadd 0 1 2) (threeN (orderN - 1) 1 0)).map (·.nReg 0) =
    some 0 := by
  decide +kernel

/-- OV3. -/
theorem test_nsub : (after (.nsub 0 1 2) (threeN 0
    0x000000010000000000000000000000008DFC2094DE39FAD4AC440BF6C62ABEDD 0)).map (·.nReg 0) =
    some 0xFFFFFFFDFFFFFFFFFFFFFFFFFFFFFFFEE407BED6438C0A56A777E81273AA8246 := by
  decide +kernel

/-- OV4. -/
theorem test_nmul : (after (.nmul 0 1 2) (threeN
    0x000000020000000000000000000000011BF84129BC73F5A9588817ED8C557DBA
    0x00000003000000000000000000000001A9F461BE9AADF07E04CC23E452803C97 0)).map (·.nReg 0) =
    some 0x0000000600000000000000000000000353E8C37D355BE0FC099847C8A500792E := by
  decide +kernel

/-- OV5. -/
theorem test_nsqr : (after (.nsqr 0 1 2) (threeN
    0x00000003000000000000000000000001A9F461BE9AADF07E04CC23E452803C97 0 0)).map (·.nReg 0) =
    some 0x0000005100000000000000000000002CECC64F1A50585D4A8187C914B38663ED := by
  decide +kernel

/-- OV6. -/
theorem test_ninv : (after (.ninv 0 1) (threeN
    0x000000020000000000000000000000011BF84129BC73F5A9588817ED8C557DBA 0 0)).map (·.nReg 0) =
    some 0x8000000000000000000000000000000000000000000000000000000000000000 := by
  decide +kernel

theorem test_ninv_zero : (after (.ninv 0 1) (threeN 0 0 0)).map (·.nReg 0) =
    some 0 := by
  decide +kernel

/-- R95. -/
theorem test_nmov : (after (.nmov 0 1) (threeN
    0x000000020000000000000000000000011BF84129BC73F5A9588817ED8C557DBA 7 0)).map (·.nReg 0) =
    some 0x000000020000000000000000000000011BF84129BC73F5A9588817ED8C557DBA := by
  decide +kernel

/-- OV12. -/
theorem test_nldc : (after (.nldc 0 1) (State.reset)).map (·.nReg 0) =
    some 0x000000010000000000000000000000008DFC2094DE39FAD4AC440BF6C62ABEDD := by
  decide +kernel

/-- OV8, OV9: the scalar is reduced, not rejected. -/
theorem test_nld : (after (.nld 0) (buf (be32 (2 ^ 256 - 1)))).map (·.nReg 0) =
    some 0x1EB5E411A22B3D3B620FC84C3AFFE0D3A6682FB60035A825E3CD86B8B5E69043 := by
  decide +kernel

theorem test_nld_order : (after (.nld 0) (buf (be32 orderN))).map (·.nReg 0) =
    some 0 := by
  decide +kernel

/-- PR4, step 6. -/
theorem test_nst : (after (.nst 1) (threeN
    0x00000007000000000000000000000003E1E4E4121395DBD0B5DC53BF6B2B380B 0 0)).map
    (fun t => (t.bufByte 30, t.bufByte 31, t.bufLen)) = some (0x00, 0x07, 32) := by
  decide +kernel

/-- OV13, OV14: RA = s, RB = e, RC = t. -/
theorem test_impsig : (after (.impsig 0 1 2 3) (threeN
    0x000000010000000000000000000000008DFC2094DE39FAD4AC440BF6C62ABEDD
    0x000000020000000000000000000000011BF84129BC73F5A9588817ED8C557DBA
    0x00000003000000000000000000000001A9F461BE9AADF07E04CC23E452803C97)).map (·.nReg 0) =
    some 0x00000007000000000000000000000003E1E4E4121395DBD0B5DC53BF6B2B380B := by
  decide +kernel

theorem test_impsig_wrap : (after (.impsig 0 1 2 3) (threeN 0
    0xFFFFFFFDFFFFFFFFFFFFFFFFFFFFFFFEE407BED6438C0A56A777E81273AA8246
    0xFFFFFFFDFFFFFFFFFFFFFFFFFFFFFFFEE407BED6438C0A56A777E81273AA8246)).map (·.nReg 0) =
    some 0x000000010000000000000000000000008DFC2094DE39FAD4AC440BF6C62ABEDD := by
  decide +kernel

/-! ### Points -/

/-- −G, 2G and 3G (section 2.4). -/
def negG : Point := .affine 0x32C4AE2C1F1981195F9904466A39C9948FE30BBFF2660BE1715A4589334C74C7
    0x43C8C95C0B098863A642311C9496DEAC2F56788239D5B8C0FD20CD1ADEC60F5F

def twoG : Point := .affine 0x56CEFD60D7C87C000D58EF57FA73BA4D9C0DFA08C08A7331495C2E1DA3F2BD52
  0x31B7E7E6CC8189F668535CE0F8EAF1BD6DE84C182F6C8E716F780D3A970A23C3

def threeG : Point := .affine 0xA97F7CD4B3C993B4BE2DAA8CDB41E24CA13F6BD945302244E26918F1D0509EBF
  0x530B5DD88C688EF5CCC5CEC08A72150F7C400EE5CD045292AAACDD037458F6E6

/-- R104. -/
theorem test_pinf : (after (.pinf 1) (twoP twoG twoG)).map (·.pReg 1) =
    some .infinity := by
  decide +kernel

/-- R105. -/
theorem test_pgen : (after (.pgen 1) (State.reset)).map (·.pReg 1) =
    some (.affine 0x32C4AE2C1F1981195F9904466A39C9948FE30BBFF2660BE1715A4589334C74C7
      0xBC3736A2F4F6779C59BDCEE36B692153D0A9877CC62A474002DF32E52139F0A0) := by
  decide +kernel

/-- R106. -/
theorem test_pmov : (after (.pmov 0 1) (twoP twoG negG)).map (·.pReg 0) =
    some twoG := by
  decide +kernel

/-- PV1, PV2. -/
theorem test_pdbl : (after (.pdbl 1 1) (twoP Point.generator .infinity)).map (·.pReg 1) =
    some twoG := by
  decide +kernel

theorem test_pdbl_infinity : (after (.pdbl 1 2) (twoP Point.generator .infinity)).map (·.pReg 1) =
    some .infinity := by
  decide +kernel

/-- PV3, PV4. -/
theorem test_padd : (after (.padd 0 1 2)
    (twoP Point.generator Point.generator)).map (fun t => (t.pReg 0, t.cFlag)) =
    some (twoG, true) := by
  decide +kernel

theorem test_padd_chord : (after (.padd 0 1 2)
    ((twoP twoG Point.generator).setC true)).map (fun t => (t.pReg 0, t.cFlag)) =
    some (threeG, false) := by
  decide +kernel

/-- PV10, PV11. -/
theorem test_pnegc : (after (.pnegc 0 1) ((twoP Point.generator .infinity).setC true)).map (·.pReg 0) =
    some negG := by
  decide +kernel

theorem test_pnegc_infinity : (after (.pnegc 0 2) ((twoP Point.generator .infinity).setC true)).map
    (·.pReg 0) =
    some .infinity := by
  decide +kernel

/-- PV12. -/
theorem test_psel : (after (.psel 0 1 2) ((twoP twoG Point.generator).setC true)).map (·.pReg 0) =
    some twoG := by
  decide +kernel

/-- PV13. -/
theorem test_pisinf : (after (.pisinf 2) (twoP Point.generator .infinity)).map (·.cFlag) = some true := by
  decide +kernel

/-- PV8 and PV9: different triples of one point, and the general adder alone on ∞ + G. -/
theorem test_complete_adder :
    (Jac.completeAdd ⟨genX * 123456789 ^ 2 % primeP, genY * 123456789 ^ 3 % primeP, 123456789⟩
      ⟨genX, genY, 1⟩).1.toPoint = twoG ∧
    (Jac.generalAdd Jac.infinity ⟨genX, genY, 1⟩).1.z = 0 := by decide +kernel

/-! ### Scalar multiplication -/

/-- Section 2.5: rows 0, 32 and 112 of the Booth digits, and the digits of kA. -/
theorem test_booth :
    (List.range 16).map boothDigit = [0, 1, 1, 2, 2, 3, 3, 4, 4, 5, 5, 6, 6, 7, 7, 8] ∧
    [32, 63, 64, 65, 112, 127].map boothDigit = [16, 32, -32, -31, -8, 0] := by decide +kernel

theorem test_windows :
    (List.range 43).map (fun j => boothDigit
      (windowOf 0x0123456789ABCDEFFEDCBA98765432100F1E2D3C4B5A69788796A5B4C3D2E1F0 j)) =
    [-16, 8, -18, -11, 4, 19, 27, -23, 23, 30, 8, 30, -23, -22, -10, 19, -4, -11, -29, 8, 15, 0, -31,
      13, 20, 25, 7, -26, -5, -13, -18, 0, -16, -8, -3, -21, 10, 30, 22, 17, -29, 5, 0] := by
  decide +kernel

/-- GT[1][0]. -/
theorem test_generator_table : (gtTable 1)[0]? = some (.affine
    0x97662389F36CE643A47DCF644F700651E988794843797B0C4A69C806E78615C2
    0xCD4D9449AEA5CAC5328B8D67D4AE956F5EB06C4515FF01BD17EEF58BF866B33F) := by decide +kernel

/-- SM5. -/
theorem test_pbmul : (after (.pbmul 0 1) (threeN (montN
    0x0123456789ABCDEFFEDCBA98765432100F1E2D3C4B5A69788796A5B4C3D2E1F0) 0 0)).map (·.pReg 0) =
    some (.affine 0x4CCF89A3D89F1BB1748782BC5F0833CA549CC079FCABF86D85BF66EFE611C3BE
      0x602C3C000523E9D7E939FBABE12B8CB4C6BC6C2F7EE885C9B55E179CD646058D) := by
  decide +kernel

/-- SM4. -/
theorem test_pbmul_zero : (after (.pbmul 0 1) (threeN 0 0 0)).map (·.pReg 0) =
    some .infinity := by
  decide +kernel

/-- SM6. -/
theorem test_pmul : (after (.pmul 0 1 1) ((twoP Point.generator negG).setN 1 (montN
    0x0123456789ABCDEFFEDCBA98765432100F1E2D3C4B5A69788796A5B4C3D2E1F0))).map (·.pReg 0) =
    some (.affine 0x4CCF89A3D89F1BB1748782BC5F0833CA549CC079FCABF86D85BF66EFE611C3BE
      0x602C3C000523E9D7E939FBABE12B8CB4C6BC6C2F7EE885C9B55E179CD646058D) := by
  decide +kernel

/-! ### Point encoding -/

/-- The SEC1 strings of a tag and one or two coordinates. -/
def sec1 (tag : Byte) (x : Nat) : List Byte := tag :: be32 x

def sec1Full (tag : Byte) (x y : Nat) : List Byte := tag :: (be32 x ++ be32 y)

/-- CD9, CD10. -/
theorem test_pdec : (after (.pdec 0) (buf (sec1 0x03 genX))).map (·.pReg 0) =
    some negG := by
  decide +kernel

theorem test_pdec_full : (after (.pdec 0) (buf (sec1Full 0x04 genX genY))).map (·.pReg 0) =
    some Point.generator := by
  decide +kernel

/-- CD8, CD11 to CD15, CD22: each way a decoding fails. -/
theorem test_pdec_errors :
    (after (.pdec 0) (buf [0x01])).map (·.err) = some 1 ∧
    (after (.pdec 0) (buf (sec1Full 0x04 genX (genY + 1)))).map (·.err) = some 2 ∧
    (after (.pdec 0) (buf (sec1Full 0x04 primeP genY))).map (·.err) = some 1 ∧
    (after (.pdec 0) (buf (sec1Full 0x04 genX primeP))).map (·.err) = some 1 ∧
    (after (.pdec 0) (buf (sec1 0x03 primeP))).map (·.err) = some 1 ∧
    (after (.pdec 0) (buf (sec1 0x02 2))).map (·.err) = some 3 ∧
    (after (.pdec 0) ((buf [0x00]).setBufLen 65)).map (·.err) = some 1 := by decide +kernel

/-- CD1, CD2. -/
theorem test_penc : (after (.penc 1) (twoP Point.generator negG)).map
    (fun t => (t.bufLen, t.bufWord 0, t.bufWord 8, t.bufWord 16)) =
    some (65, 0xAEC43204, 0x3637BCC7, 0x000000A0) := by
  decide +kernel

/-- CD5. -/
theorem test_penc_infinity : (after (.penc 1) (twoP .infinity negG)).map
    (fun t => (t.bufLen, t.bufByte 0)) = some (1, 0x00) := by
  decide +kernel

/-- CD3. -/
theorem test_pencc : (after (.pencc 1) (twoP twoG negG)).map
    (fun t => (t.bufLen, t.bufByte 0, t.bufByte 1, t.bufByte 32)) = some (33, 0x03, 0x56, 0x52) := by
  decide +kernel

/-- CD4, CD6. -/
theorem test_pencx : (after (.pencx 1) (twoP Point.generator negG)).map
    (fun t => (t.bufLen, t.bufByte 0, t.bufByte 31)) = some (32, 0x32, 0xC7) := by
  decide +kernel

theorem test_pencx_infinity : (after (.pencx 1) (twoP .infinity negG)).map (·.err) = some 5 := by
  decide +kernel

/-! ### Control, host window, reset -/

/-- HW3, HW4. -/
theorem test_cset : (after (.cset 2) (State.reset.setC true)).map (·.cFlag) = some false := by
  decide +kernel

/-- HW12: the command does not complete, and the read is recorded (R132). -/
theorem test_cset_unwritten : (afterStep (State.reset.withFetchWord 32 0x02000001)).map
    (fun t => (t.uninit, t.busy, t.done, t.c.written)) = some (some .c, true, false, false) := by
  decide +kernel

/-- R133: ReadUninit precedes a command's own checks; no completion code is written. -/
theorem test_pencx_unwritten : (afterStep (State.reset.withFetchWord 32 0x00000043)).map
    (fun t => (t.uninit, t.busy, t.err)) = some (some (.p 0), true, 0) := by decide +kernel

/-- HW11. -/
theorem test_nop : (after .nop (twoF 1 2)).map (fun t => (t.err, t.fReg 1, t.done)) = some (0, 1, true)
    := by
  decide +kernel

/-- HW3 and HW5: the STATUS words, and HW6: acknowledging. -/
theorem test_status :
    (afterStep ((((State.reset.setC true).complete 0)).present [.read 4 0x08])).map (·.replies) =
      some [0x00000006] ∧
    (afterStep ((((State.reset.setC false).complete 2)).present [.read 4 0x08])).map (·.replies) =
      some [0x00000022] ∧
    (afterStep ((State.reset.complete 2).present [.write 4 0x08 0x00000002])).map
      (fun t => (t.done, t.err)) = some (false, 0) := by decide +kernel

/-- HW7 and HW8. -/
theorem test_drops :
    (afterStep (busyWith 0 [.write 4 0x04 5])).map (fun t => (t.ovr, t.cmdl)) = some (true, 0) ∧
    (afterStep (hosted [.write 4 0x0C 66])).map (fun t => (t.ovr, t.bufLen)) = some (false, 0) := by
  decide +kernel

/-- HW1, HW9, HW10. -/
theorem test_window :
    (afterStep (hosted [.read 4 0x00])).map (·.replies) = some [0x534D3201] ∧
    ((afterStep (hosted [.write 4 0x80 0xFFFFFF12, .read 4 0x80])).bind afterStep).map
      (fun t => (t.bufByte 64, t.replies)) = some (0x12, [0x00000012]) ∧
    (afterStep (hosted [.read 4 0x10])).map (·.replies) = some [0] := by decide +kernel

/-- R53: ID read at ENGINE_BASE = 0x300, and one word below the window. -/
theorem test_engine_base :
    (afterStep (State.reset.presentAt ⟨3⟩ [.read 4 0x300])).map (·.replies) = some [0x534D3201] ∧
    (afterStep (State.reset.presentAt ⟨3⟩ [.read 4 0x2FC])) = none := by decide +kernel

/-- R38, R145: what the port refuses. -/
theorem test_refusals :
    step (hosted [.read 2 0x04]) = .refused .subWordAccess ∧
    step (hosted [.write 4 0x06 1]) = .refused .misalignedAccess ∧
    step (hosted [.read 4 0x100]) = .refused .outsideWindow ∧
    ((afterStep (hosted [.assertReset, .read 4 0x00])).bind afterStep) = none :=
  ⟨rfl, rfl, rfl, rfl⟩

/-- R144: reset in the middle of a command: nothing completes and BUF is zero. -/
theorem test_reset_during_command :
    (afterStep ((buf (be32 (2 ^ 256 - 1))).accept 0x127 |>.present [.assertReset])).map
      (fun t => (t.busy, t.done, t.buf, t.inReset)) = some (false, false, [], true) := by
  decide +kernel

/-- R30, R41: the command a table word stands for runs as the first after reset. -/
theorem test_fetch :
    (afterStep (State.reset.withFetchWord 32 0x01000001)).map (fun t => (t.cFlag, t.done)) =
      some (true, true) := by decide +kernel

/-! ### Witnesses of the statements' hypotheses -/

/-- Legal commands at the ends of each immediate's range. -/
theorem witness_DecodeOfEncode :
    (Instr.fsqr 15 0 255).WellFormed ∧ (Instr.nsqr 0 15 1).WellFormed ∧ (Instr.cset 2).WellFormed ∧
    (Instr.fldc 0 7).WellFormed ∧ (Instr.nldc 15 3).WellFormed := by decide +kernel

/-- A busy engine with an illegal word latched, and a command no word decodes to. -/
theorem witness_IllegalWordsAreRejected : (∃ (s : State) (e : DecodeReject), s.busy = true ∧
    decode s.cmdl = .error e ∧ s.inbox = []) ∧ ¬(Instr.fsqr 1 1 0).WellFormed :=
  ⟨⟨busyWith 0x00001113 [], .immRange, rfl, rfl, rfl⟩, by decide⟩

theorem witness_EncodeOfDecode : ∃ w i j, decode w = .ok i ∧ j.WellFormed ∧ encode j = w :=
  ⟨0xFF001113, .fsqr 1 1 255, .fsqr 1 1 255, rfl, by decide, by decide +kernel⟩

theorem witness_StepRunsTheLatchedCommand :
    (∃ (s : State) (i : Instr), s.busy = true ∧ decode s.cmdl = .ok i ∧ s.inbox = []) ∧
    (∃ (s : State) (i : Instr), s.busy = true ∧ decode s.cmdl = .ok i ∧ s.inbox = [.wait, .wait]) ∧
    (∃ (s : State) (e : DecodeReject), s.busy = true ∧ decode s.cmdl = .error e ∧ s.inbox = []) ∧
    (∃ (s : State) (e : DecodeReject), s.busy = true ∧ decode s.cmdl = .error e ∧ s.inbox = [.wait]) ∧
    (∃ nbits w i, decodeTableWord nbits w = some i) ∧
    (∃ s : State, s.busy = false ∧ s.inbox = []) ∧ (∃ s : State, s.busy = false ∧ s.inbox = [.wait]) :=
  ⟨⟨busyWith 0x01000001 [], .cset 1, rfl, rfl, rfl⟩,
    ⟨busyWith 0x01000001 [.wait, .wait], .cset 1, rfl, rfl, rfl⟩,
    ⟨busyWith 0x000000FF [], .reservedOpcode, rfl, rfl, rfl⟩,
    ⟨busyWith 0x000000FF [.wait], .reservedOpcode, rfl, rfl, rfl⟩,
    ⟨32, 0x00021312, .fmul 3 1 2, rfl⟩, ⟨State.reset, rfl, rfl⟩, ⟨hosted [.wait], rfl, rfl⟩⟩

/-- A command with sources, all written; and each of the flag's readers at once with its register. -/
theorem witness_EveryCommandCompletes :
    (twoF 1 2).Ready (.fadd 0 1 2) ∧ ((twoF 1 2).setC true).Ready (.fsel 0 1 2) ∧
    ((twoP twoG negG).setN 1 5).Ready (.pmul 0 2 1) ∧ State.reset.Ready (.cset 1) ∧
    (State.reset.setC true).Ready (.cset 2) := by decide +kernel

/-- A command that succeeds, one that raises an error and one that does not complete. -/
theorem witness_CommandFrames :
    (∃ t, exec (.cset 1) State.reset = .next t ∧ t.err = 0) ∧
    (∃ t, exec (.nld 0) State.reset = .next t ∧ t.err ≠ 0) ∧
    (∃ t, exec (.cset 2) State.reset = .next t ∧ t.uninit = some .c) :=
  ⟨⟨_, rfl, by decide⟩, ⟨_, rfl, by decide⟩, ⟨_, rfl, by decide⟩⟩

/-- A state and a command for every completion code a legal word can end with. -/
theorem witness_ErrorCodesByCommand :
    (∃ (i : Instr) (s t : State), (i.WellFormed ∧ s.Ready i) ∧ exec i s = .next t ∧ t.err = 1) ∧
    (∃ (i : Instr) (s t : State), (i.WellFormed ∧ s.Ready i) ∧ exec i s = .next t ∧ t.err = 2) ∧
    (∃ (i : Instr) (s t : State), (i.WellFormed ∧ s.Ready i) ∧ exec i s = .next t ∧ t.err = 3) ∧
    (∃ (i : Instr) (s t : State), (i.WellFormed ∧ s.Ready i) ∧ exec i s = .next t ∧ t.err = 4) ∧
    (∃ (i : Instr) (s t : State), (i.WellFormed ∧ s.Ready i) ∧ exec i s = .next t ∧ t.err = 5) := by
  have h {i : Instr} {s : State} {c : BitVec 4} (hr : i.WellFormed ∧ s.Ready i)
      (ha : (after i s).map (·.err) = some c) :
      ∃ (i : Instr) (s t : State), (i.WellFormed ∧ s.Ready i) ∧ exec i s = .next t ∧ t.err = c :=
    let ⟨t, ht⟩ := exists_of_after ha
    ⟨i, s, t, hr, ht⟩
  exact ⟨h (i := .fltp) (s := State.reset) (by decide +kernel) (by decide +kernel),
    h (i := .pdec 0) (s := buf (sec1Full 0x04 genX (genY + 1))) (by decide +kernel) (by decide +kernel),
    h (i := .pdec 0) (s := buf (sec1 0x02 2)) (by decide +kernel) (by decide +kernel),
    h (i := .nld 0) (s := State.reset) (by decide +kernel) (by decide +kernel),
    h (i := .pencx 1) (s := twoP .infinity .infinity) (by decide +kernel) (by decide +kernel)⟩

/-- A command that reads an unwritten register, first with no record, then with one. -/
theorem witness_UninitReadIsRecorded :
    ((Instr.fadd 0 1 2).WellFormed ∧ ¬State.reset.Ready (.fadd 0 1 2) ∧ State.reset.uninit = none) ∧
    ∃ s : State, (Instr.pencx 0).WellFormed ∧ ¬s.Ready (.pencx 0) ∧ s.uninit = some .c :=
  ⟨by decide +kernel, { State.reset with uninit := some .c }, by decide +kernel⟩

theorem witness_UninitRecordIsNeverCleared : ∃ (s t : State) (r : RegName),
    step s = .next t ∧ s.uninit = some r :=
  ⟨{ hosted [.assertReset] with uninit := some (.f 3) }, _, .f 3, rfl, rfl⟩

theorem witness_FieldAddAndSubtract : ∃ s : State, s.Ready (.fadd 0 1 2) ∧ s.Ready (.fsub 0 1 2) ∧
    s.fReg 1 < primeP ∧ s.fReg 2 < primeP ∧ s.fReg 1 + s.fReg 2 ≥ primeP :=
  ⟨twoF (primeP - 1) (primeP - 1), by decide +kernel⟩

theorem witness_FieldMontgomeryProduct : ∃ s : State, s.Ready (.fmul 0 1 2) := ⟨twoF 2 3, by decide +kernel⟩

/-- Both ends of the repeat count, and a true value of the source; and the word with k = 0, latched. -/
theorem witness_FieldRepeatedSquaring : (∃ (s : State) (x : Nat), s.Ready (.fsqr 0 1 1) ∧
    s.Ready (.fsqr 0 1 255) ∧ x * radixR % primeP = s.fReg 1 % primeP ∧ (1 : BitVec 8).toNat ≠ 0 ∧
    (255 : BitVec 8).toNat ≠ 0) ∧
    ∃ s : State, (0 : BitVec 8).toNat = 0 ∧ s.busy = true ∧ s.cmdl = encode (.fsqr 1 1 0) ∧ s.inbox = [] :=
  ⟨⟨twoF (montP 2) 0, 2, by decide +kernel⟩, busyWith 0x00001113 [], by decide +kernel⟩

theorem witness_FieldInversion :
    (∃ (s : State) (x : Nat), s.Ready (.finv 0 1) ∧ x * radixR % primeP = s.fReg 1 % primeP ∧
      s.fReg 1 % primeP ≠ 0) ∧
    (∃ s : State, s.Ready (.finv 0 1) ∧ s.fReg 1 % primeP = 0) :=
  ⟨⟨twoF (montP (primeP - 1)) 0, primeP - 1, by decide +kernel⟩, ⟨twoF 0 0, by decide +kernel⟩⟩

/-- A square and a non-square. -/
theorem witness_FieldSquareRoot :
    (∃ (s t : State) (x : Nat), (s.Ready (.fsqrt 0 1) ∧ x * radixR % primeP = s.fReg 1 % primeP) ∧
      exec (.fsqrt 0 1) s = .next t ∧ t.cFlag = true) ∧
    (∃ (s t : State) (x : Nat), (s.Ready (.fsqrt 0 1) ∧ x * radixR % primeP = s.fReg 1 % primeP) ∧
      exec (.fsqrt 0 1) s = .next t ∧ t.cFlag = false) :=
  let ⟨t, ht⟩ := exists_of_after (i := .fsqrt 0 1) (s := twoF (montP 4) 0) (f := (·.cFlag)) (v := true)
    (by decide +kernel)
  let ⟨u, hu⟩ := exists_of_after (i := .fsqrt 0 1) (s := twoF (montP (primeP - 4)) 0) (f := (·.cFlag))
    (v := false) (by decide +kernel)
  ⟨⟨twoF (montP 4) 0, t, 4, by decide +kernel, ht⟩,
    ⟨twoF (montP (primeP - 4)) 0, u, primeP - 4, by decide +kernel, hu⟩⟩

theorem witness_FieldConditionals : (∃ s : State, s.Ready (.fnegc 0 1) ∧ s.Ready (.fsel 0 1 2) ∧
      s.Ready (.feq 1 2) ∧ s.cFlag = true ∧ s.fReg 1 = 0) ∧
    (∃ s : State, s.Ready (.fnegc 0 1) ∧ s.Ready (.fsel 0 1 2) ∧ s.cFlag = false ∧ s.fReg 1 = 1) :=
  ⟨⟨(twoF 0 1).setC true, by decide +kernel⟩, ⟨(twoF 1 0).setC false, by decide +kernel⟩⟩

theorem witness_FieldDomainConversions : ∃ s : State, s.Ready (.ftom 0 1) ∧ s.Ready (.ffromm 0 1) ∧
    s.fReg 1 < primeP ∧ s.fReg 1 = primeP - 1 := ⟨twoF (primeP - 1) 0, by decide +kernel⟩

/-- The ends of the selector's range, and the word with the selector above it, latched. -/
theorem witness_FieldMovesAndConstants : (twoF 1 2).Ready (.fmov 0 1) ∧ (0 : BitVec 8).toNat ≤ 7 ∧
    (7 : BitVec 8).toNat ≤ 7 ∧
    ∃ s : State, 8 ≤ (8 : BitVec 8).toNat ∧ s.busy = true ∧ s.cmdl = encode (.fldc 6 8) ∧ s.inbox = [] :=
  ⟨by decide +kernel, by decide, by decide, busyWith 0x0800061C [], by decide +kernel⟩

/-- FLD and FLTP: the greatest value that loads, the least that does not, and a wrong length. -/
theorem witness_FieldLoadAndTest :
    (∃ s : State, s.bufLen = 32 ∧ s.bigEndian 0 < primeP ∧ s.bigEndian 0 = primeP - 1) ∧
    (∃ s : State, s.bufLen = 32 ∧ s.bigEndian 0 = primeP) ∧ (∃ s : State, s.bufLen = 31) ∧
    (∃ s : State, s.bufLen = 33) :=
  ⟨⟨buf (be32 (primeP - 1)), by decide +kernel⟩, ⟨buf (be32 primeP), by decide +kernel⟩,
    ⟨State.reset.setBufLen 31, rfl⟩, ⟨State.reset.setBufLen 33, rfl⟩⟩

theorem witness_FieldStore : ∃ s : State, s.BufferOk ∧ s.Ready (.fst 1) ∧ s.bufLen = 65 ∧
    s.bufByte 64 = 0xFF := ⟨(buf (List.replicate 65 0xFF)).setF 1 5, by decide +kernel⟩

theorem witness_OrderAddAndSubtract : ∃ s : State, s.Ready (.nadd 0 1 2) ∧ s.Ready (.nsub 0 1 2) :=
  ⟨threeN 0 1 2, by decide +kernel⟩

theorem witness_OrderProductAndImplicitSignature : ∃ (s : State) (x y z : Nat), s.Ready (.nmul 0 1 2) ∧
    s.Ready (.impsig 0 1 2 3) ∧
    x * radixR % orderN = s.nReg 1 % orderN ∧ y * radixR % orderN = s.nReg 2 % orderN ∧
    z * radixR % orderN = s.nReg 3 % orderN :=
  ⟨threeN (montN 1) (montN 2) (montN (orderN - 1)), 1, 2, orderN - 1, by decide +kernel⟩

/-- Both ends of the repeat count; and the word with k = 0, latched. -/
theorem witness_OrderRepeatedSquaring : (∃ (s : State) (x : Nat), s.Ready (.nsqr 0 1 1) ∧
    s.Ready (.nsqr 0 1 255) ∧ x * radixR % orderN = s.nReg 1 % orderN ∧ (1 : BitVec 8).toNat ≠ 0 ∧
    (255 : BitVec 8).toNat ≠ 0) ∧
    ∃ s : State, (0 : BitVec 8).toNat = 0 ∧ s.busy = true ∧ s.cmdl = encode (.nsqr 1 1 0) ∧ s.inbox = [] :=
  ⟨⟨threeN (montN 3) 0 0, 3, by decide +kernel⟩, busyWith 0x00001123 [], by decide +kernel⟩

theorem witness_OrderInversion :
    (∃ (s t : State) (x u : Nat), (s.Ready (.ninv 0 1) ∧ x * radixR % orderN = s.nReg 1 % orderN ∧
      x % orderN ≠ 0) ∧ exec (.ninv 0 1) s = .next t ∧ u * radixR % orderN = t.nReg 0 % orderN) ∧
    (∃ (s : State) (x : Nat), s.Ready (.ninv 0 1) ∧ x * radixR % orderN = s.nReg 1 % orderN ∧
      x % orderN = 0) :=
  let ⟨t, ht, hv⟩ := exists_of_after (i := .ninv 0 1) (s := threeN (montN 2) 0 0)
    (f := fun t => t.nReg 0 % orderN) (v := (orderN + 1) / 2 * radixR % orderN) (by decide +kernel)
  ⟨⟨threeN (montN 2) 0 0, t, 2, (orderN + 1) / 2, by decide +kernel, ht, hv.symm⟩,
    ⟨threeN 0 0 0, 0, by decide +kernel⟩⟩

/-- The ends of the selector's range, and the word with the selector above it, latched. -/
theorem witness_OrderMovesAndConstants : (threeN 1 2 3).Ready (.nmov 0 1) ∧ (0 : BitVec 8).toNat ≤ 3 ∧
    (3 : BitVec 8).toNat ≤ 3 ∧
    ∃ s : State, 4 ≤ (4 : BitVec 8).toNat ∧ s.busy = true ∧ s.cmdl = encode (.nldc 0 4) ∧ s.inbox = [] :=
  ⟨by decide +kernel, by decide, by decide, busyWith 0x04000026 [], by decide +kernel⟩

theorem witness_ScalarLoad : (∃ s : State, s.bufLen = 32 ∧ s.bigEndian 0 = 2 ^ 256 - 1) ∧
    (∃ s : State, s.bufLen ≠ 32 ∧ s.bufLen = 65) :=
  ⟨⟨buf (be32 (2 ^ 256 - 1)), by decide +kernel⟩, ⟨State.reset.setBufLen 65, by decide⟩⟩

theorem witness_ScalarStore : ∃ (s : State) (u : Nat), s.BufferOk ∧ s.Ready (.nst 1) ∧ u < orderN ∧
    u * radixR % orderN = s.nReg 1 % orderN ∧ 31 < 32 :=
  ⟨threeN (montN (orderN - 1)) 0 0, orderN - 1, by decide +kernel⟩

theorem witness_PointConstructorsAndMove : ∃ s : State, s.Ready (.pmov 0 1) :=
  ⟨twoP twoG .infinity, by decide +kernel⟩

/-- Opposite points, equal points and points of a chord. -/
theorem witness_ChordAndTangentLaw : ∃ x y x' y' z w : Elem,
    (Point.affine x y).onCurve = true ∧ (Point.affine x y').onCurve = true ∧
    (y.toNat + y'.toNat) % primeP = 0 ∧ (y.toNat + y.toNat) % primeP ≠ 0 ∧
    (Point.affine z w).onCurve = true ∧ x ≠ z ∧ x' = x :=
  ⟨BitVec.ofNat 256 genX, BitVec.ofNat 256 genY, BitVec.ofNat 256 genX,
    BitVec.ofNat 256 (primeP - genY), (twoG.coords.getD (0, 0)).1, (twoG.coords.getD (0, 0)).2,
    by decide +kernel⟩

theorem witness_CurvePointsFormAGroup : Point.generator.onCurve = true ∧ twoG.onCurve = true ∧
    negG.onCurve = true ∧ Point.infinity.onCurve = true := by decide +kernel

theorem witness_PointDoubling : ∃ s : State, s.Ready (.pdbl 0 1) ∧ s.Ready (.pdbl 0 2) ∧
    (s.pReg 1).onCurve = true ∧ s.pReg 1 ≠ .infinity ∧
    (s.pReg 2).onCurve = true ∧ s.pReg 2 = .infinity := ⟨twoP twoG .infinity, by decide +kernel⟩

theorem witness_PointAddition : (∃ s : State, s.Ready (.padd 0 1 2) ∧ (s.pReg 1).onCurve = true ∧
      s.pReg 2 = (s.pReg 1).neg ∧ s.pReg 1 ≠ .infinity) ∧
    (∃ s : State, s.Ready (.padd 0 1 2) ∧ s.pReg 1 = .infinity ∧ s.pReg 2 = twoG) ∧
    (∃ s : State, s.Ready (.padd 0 1 2) ∧ s.pReg 1 = twoG ∧ s.pReg 2 = .infinity) :=
  ⟨⟨twoP Point.generator negG, by decide +kernel⟩, ⟨twoP .infinity twoG, by decide +kernel⟩,
    ⟨twoP twoG .infinity, by decide +kernel⟩⟩

theorem witness_PointConditionals : (∃ s : State, s.Ready (.pnegc 0 1) ∧ s.Ready (.psel 0 1 2) ∧
      s.Ready (.pisinf 1) ∧ s.cFlag = true ∧ s.pReg 1 = twoG) ∧
    (∃ s : State, s.Ready (.pnegc 0 1) ∧ s.Ready (.psel 0 1 2) ∧ s.cFlag = false ∧ s.pReg 1 = twoG) ∧
    (∃ s : State, s.Ready (.pnegc 0 1) ∧ s.Ready (.pisinf 1) ∧ s.pReg 1 = .infinity) :=
  ⟨⟨(twoP twoG negG).setC true, by decide +kernel⟩, ⟨(twoP twoG negG).setC false, by decide +kernel⟩,
    ⟨(twoP .infinity negG).setC true, by decide +kernel⟩⟩

/-- Triples of a finite point, scaled, and of ∞. -/
theorem witness_DoublerDoublesThePoint : ∃ t u : Jac, t.Valid ∧ t.z = 123456789 ∧ u.Valid ∧ u.z = 0 :=
  ⟨⟨genX * 123456789 ^ 2 % primeP, genY * 123456789 ^ 3 % primeP, 123456789⟩, ⟨5, 7, 0⟩,
    by decide +kernel⟩

theorem witness_CompleteAdderAddsThePoints : ∃ (a b : Jac) (q : Point), a.Valid ∧ b.Valid ∧
    a.toPoint ≠ .infinity ∧ b.toPoint ≠ .infinity ∧ a.toPoint = b.toPoint ∧ a ≠ b ∧
    q.onCurve = true ∧ q ≠ a.toPoint :=
  ⟨⟨genX * 123456789 ^ 2 % primeP, genY * 123456789 ^ 3 % primeP, 123456789⟩, ⟨genX, genY, 1⟩, negG,
    by decide +kernel⟩

theorem witness_BoothDigitsReconstructTheScalar : 127 < 128 ∧ 2 ^ 256 - 1 < 2 ^ 256 ∧ 42 < 43 := by
  decide

/-- Window values on both sides of the sign, and a finite point. -/
theorem witness_LookupGivesTheDigitMultiple : twoG.onCurve = true ∧ boothDigit 64 < 0 ∧
    0 < boothDigit 63 ∧ boothDigit 127 = 0 ∧ 31 < 32 := by decide +kernel

theorem witness_GeneratorTableHoldsTheMultiples : 42 < 43 ∧ 31 < 32 := by decide

theorem witness_VariableBaseMultiplication : ∃ (s : State) (k : Nat), s.Ready (.pmul 0 1 2) ∧
    (s.pReg 1).onCurve = true ∧ s.pReg 1 ≠ .infinity ∧ k < orderN ∧
    k * radixR % orderN = s.nReg 2 % orderN ∧ k = orderN - 1 :=
  ⟨(twoP twoG .infinity).setN 2 (montN (orderN - 1)), orderN - 1, by decide +kernel⟩

theorem witness_FixedBaseMultiplication : ∃ (s : State) (k : Nat), s.Ready (.pbmul 0 1) ∧ k < orderN ∧
    k * radixR % orderN = s.nReg 1 % orderN ∧ k = orderN - 1 ∧ s.Ready (.pmul 0 1 1) ∧
    s.pReg 1 = Point.generator :=
  ⟨(twoP Point.generator .infinity).setN 1 (montN (orderN - 1)), orderN - 1, by decide +kernel⟩

/-- The number 2 is the x of no point: its right-hand side is no square (CD15). -/
theorem no_point_at_two : ¬∃ y, SatisfiesCurve 2 y := by
  have := primeP_fact
  rintro ⟨y, h⟩
  have hsq : IsSquare ((curveRhs 2 : Nat) : ZMod primeP) := by
    refine ⟨(y : ZMod primeP), ?_⟩
    unfold SatisfiesCurve at h
    rw [← ZMod.natCast_eq_natCast_iff'] at h
    push_cast at h
    rw [cast_curveRhs]
    push_cast
    linear_combination -h
  have hne : ((curveRhs 2 : Nat) : ZMod primeP) ≠ 0 := by
    rw [cast_ne_zero_iff (curveRhs_lt 2)]; decide +kernel
  have h1 := (ZMod.euler_criterion primeP hne).1 hsq
  rw [← cast_powMod primeP_pos _ (by decide), ← Nat.cast_one] at h1
  have h2 := eq_of_cast_eq (powMod_lt primeP_pos _ _) (by decide) h1
  revert h2
  decide +kernel

/-- Every length and tag, both ends of the coordinates' range, on and off the curve. -/
theorem witness_PointDecoding :
    (∃ s : State, s.bufLen = 1 ∧ s.bufByte 0 = 0x00) ∧
    (∃ s : State, (s.bufLen = 65 ∧ s.bufByte 0 = 0x04) ∧ s.bigEndian 1 = primeP) ∧
    (∃ s : State, (s.bufLen = 65 ∧ s.bufByte 0 = 0x04) ∧ s.bigEndian 33 = primeP) ∧
    (∃ s : State, (s.bufLen = 65 ∧ s.bufByte 0 = 0x04) ∧ s.bigEndian 1 < primeP ∧
      s.bigEndian 33 < primeP ∧ SatisfiesCurve (s.bigEndian 1) (s.bigEndian 33)) ∧
    (∃ s : State, (s.bufLen = 65 ∧ s.bufByte 0 = 0x04) ∧ s.bigEndian 1 < primeP ∧
      s.bigEndian 33 < primeP ∧ ¬SatisfiesCurve (s.bigEndian 1) (s.bigEndian 33)) ∧
    (∃ s : State, (s.bufLen = 33 ∧ s.bufByte 0 = 0x02) ∧ s.bigEndian 1 = primeP) ∧
    (∃ s : State, (s.bufLen = 33 ∧ s.bufByte 0 = 0x03) ∧ s.bigEndian 1 < primeP ∧
      ∃ y, SatisfiesCurve (s.bigEndian 1) y) ∧
    (∃ s : State, (s.bufLen = 33 ∧ s.bufByte 0 = 0x02) ∧ s.bigEndian 1 < primeP ∧
      ¬∃ y, SatisfiesCurve (s.bigEndian 1) y) ∧
    (∃ s : State, ¬(s.bufLen = 1 ∧ s.bufByte 0 = 0x00) ∧ ¬(s.bufLen = 65 ∧ s.bufByte 0 = 0x04) ∧
      ¬(s.bufLen = 33 ∧ (s.bufByte 0 = 0x02 ∨ s.bufByte 0 = 0x03))) := by
  refine ⟨⟨buf [0x00], by decide +kernel⟩, ⟨buf (sec1Full 0x04 primeP genY), by decide +kernel⟩,
    ⟨buf (sec1Full 0x04 genX primeP), by decide +kernel⟩,
    ⟨buf (sec1Full 0x04 genX genY), by decide +kernel⟩,
    ⟨buf (sec1Full 0x04 genX (genY + 1)), by decide +kernel⟩,
    ⟨buf (sec1 0x02 primeP), by decide +kernel⟩,
    ⟨buf (sec1 0x03 genX), by decide +kernel, by decide +kernel, genY, by decide +kernel⟩,
    ⟨buf (sec1 0x02 2), by decide +kernel, by decide +kernel, ?_⟩,
    ⟨State.reset, by decide +kernel⟩⟩
  have h : State.bigEndian (buf (sec1 0x02 2)) 1 = 2 := by decide +kernel
  rw [h]
  exact no_point_at_two

theorem witness_PointEncoding :
    (∃ s : State, s.BufferOk ∧ s.Ready (.penc 1) ∧ s.Ready (.pencc 1) ∧ s.pReg 1 = .infinity) ∧
    (∃ (s : State) (x y : Elem), s.BufferOk ∧ s.Ready (.penc 1) ∧ s.Ready (.pencc 1) ∧
      s.pReg 1 = .affine x y ∧ y.toNat % 2 = 0) ∧
    (∃ (s : State) (x y : Elem), s.BufferOk ∧ s.Ready (.penc 1) ∧ s.Ready (.pencc 1) ∧
      s.pReg 1 = .affine x y ∧ y.toNat % 2 = 1) :=
  ⟨⟨twoP .infinity twoG, by decide +kernel⟩,
    ⟨twoP Point.generator .infinity, BitVec.ofNat 256 genX, BitVec.ofNat 256 genY, by decide +kernel⟩,
    ⟨twoP negG .infinity, BitVec.ofNat 256 genX, BitVec.ofNat 256 (primeP - genY), by decide +kernel⟩⟩

theorem witness_PointXEncoding : (∃ s : State, s.Ready (.pencx 1) ∧ s.pReg 1 = .infinity) ∧
    (∃ (s : State) (x y : Elem), s.BufferOk ∧ s.Ready (.pencx 1) ∧ s.pReg 1 = .affine x y) :=
  ⟨⟨twoP .infinity twoG, by decide +kernel⟩,
    ⟨twoP Point.generator .infinity, BitVec.ofNat 256 genX, BitVec.ofNat 256 genY, by decide +kernel⟩⟩

theorem witness_DecodingAnEncodingRestoresThePoint : ∃ s : State, s.BufferOk ∧
    (s.pReg 1).onCurve = true ∧ s.pReg 1 = twoG ∧ (s.pReg 2).onCurve = true ∧ s.pReg 2 = .infinity ∧
    ∀ i ∈ [Instr.penc 1, Instr.pencc 1, Instr.penc 2, Instr.pencc 2], s.Ready i :=
  ⟨twoP twoG .infinity, by decide +kernel⟩

/-- Each selector, and the word with a selector above the range, latched. -/
theorem witness_ControlCommands : State.reset.Ready (.cset 0) ∧ (0 : BitVec 8).toNat ≤ 2 ∧
    (State.reset.setC true).Ready (.cset 2) ∧ (2 : BitVec 8).toNat ≤ 2 ∧
    ∃ s : State, 3 ≤ (3 : BitVec 8).toNat ∧ s.busy = true ∧ s.cmdl = encode (.cset 3) ∧ s.inbox = [] :=
  ⟨by decide +kernel, by decide, by decide +kernel, by decide, busyWith 0x03000001 [], by decide +kernel⟩

theorem witness_CommandWriteAcceptedOrDropped :
    (∃ (s : State) (w : Word) (rest : List HostEvent), s.inReset = false ∧
      s.inbox = .write 4 0x04 w :: rest ∧ s.busy = false) ∧
    (∃ (s : State) (w : Word) (rest : List HostEvent), s.inReset = false ∧
      s.inbox = .write 4 0x04 w :: rest ∧ s.busy = true) ∧
    (∃ (s : State) (rest : List HostEvent), s.inReset = false ∧ s.inbox = .read 4 0x04 :: rest) :=
  ⟨⟨hosted [.write 4 0x04 5, .wait], 5, [.wait], rfl, rfl, rfl⟩,
    ⟨busyWith 0 [.write 4 0x04 5], 5, [], rfl, rfl, rfl⟩, ⟨hosted [.read 4 0x04], [], rfl, rfl⟩⟩

theorem witness_StatusWord :
    (∃ (s : State) (rest : List HostEvent), s.inReset = false ∧ s.inbox = .read 4 0x08 :: rest ∧
      s.busy = false ∧ s.c.written = true) ∧
    (∃ (s : State) (rest : List HostEvent), s.inReset = false ∧ s.inbox = .read 4 0x08 :: rest ∧
      s.busy = true) ∧
    (∃ (s : State) (w : Word) (rest : List HostEvent), s.inReset = false ∧
      s.inbox = .write 4 0x08 w :: rest ∧ w.getLsbD 1 = true ∧ w.getLsbD 3 = true) :=
  ⟨⟨{ State.reset.setC true with inbox := [.read 4 0x08] }, [], rfl, rfl, rfl, rfl⟩,
    ⟨busyWith 0 [.read 4 0x08], [], rfl, rfl, rfl⟩,
    ⟨hosted [.write 4 0x08 10], 10, [], rfl, rfl, rfl, rfl⟩⟩

/-- BUFLEN 65 and 66, idle and busy. -/
theorem witness_BufLenAccess :
    (∃ (s : State) (w : Word), s.inReset = false ∧ s.inbox = [.write 4 0x0C w] ∧ s.busy = false ∧
      w.toNat = 65) ∧
    (∃ (s : State) (w : Word), s.inReset = false ∧ s.inbox = [.write 4 0x0C w] ∧ s.busy = false ∧
      w.toNat = 66) ∧
    (∃ (s : State) (w : Word), s.inReset = false ∧ s.inbox = [.write 4 0x0C w] ∧ s.busy = true) ∧
    (∃ s : State, s.inReset = false ∧ s.inbox = [.read 4 0x0C] ∧ s.busy = false ∧ s.bufLen ≤ 65) :=
  ⟨⟨hosted [.write 4 0x0C 65], 65, rfl, rfl, rfl, rfl⟩,
    ⟨hosted [.write 4 0x0C 66], 66, rfl, rfl, rfl, rfl⟩,
    ⟨busyWith 0 [.write 4 0x0C 1], 1, rfl, rfl, rfl⟩,
    ⟨hosted [.read 4 0x0C], rfl, rfl, rfl, by decide⟩⟩

/-- The first word and the last, idle and busy. -/
theorem witness_BufferWordAccess :
    (∃ (s : State) (w : Word), s.inReset = false ∧ s.BufferOk ∧ s.inbox = [.write 4 (0x40 + 4 * 0) w] ∧
      s.busy = false) ∧
    (∃ (s : State) (w : Word), s.inReset = false ∧ s.BufferOk ∧ s.inbox = [.write 4 (0x40 + 4 * 16) w] ∧
      s.busy = false) ∧
    (∃ (s : State) (w : Word), s.inReset = false ∧ s.BufferOk ∧ s.inbox = [.write 4 (0x40 + 4 * 16) w] ∧
      s.busy = true) ∧
    (∃ s : State, s.inReset = false ∧ s.BufferOk ∧ s.inbox = [.read 4 (0x40 + 4 * 16)] ∧
      s.busy = false) :=
  ⟨⟨hosted [.write 4 0x40 5], 5, by decide +kernel⟩, ⟨hosted [.write 4 0x80 5], 5, by decide +kernel⟩,
    ⟨busyWith 0 [.write 4 0x80 5], 5, by decide +kernel⟩, ⟨hosted [.read 4 0x80], by decide +kernel⟩⟩

/-- The ends of each range of offsets. -/
theorem witness_ReadsHaveNoSideEffect :
    (∀ off ∈ [0x00, 0x04, 0x10, 0x3C, 0x80, 0x84, 0xFC], ∃ s : State, s.inReset = false ∧ off % 4 = 0 ∧
      off ≤ 0xFC ∧ s.inbox = [.read 4 off]) ∧
    (∀ off ∈ [0x00, 0x10, 0x3C, 0x84, 0xFC], ∃ (s : State) (w : Word), s.inReset = false ∧
      off % 4 = 0 ∧ off ≤ 0xFC ∧ s.inbox = [.write 4 off w] ∧
      (off = 0 ∨ (0x10 ≤ off ∧ off ≤ 0x3C) ∨ 0x84 ≤ off)) :=
  ⟨fun off h => ⟨hosted [.read 4 off], rfl, by revert h off; decide, by revert h off; decide, rfl⟩,
    fun off h => ⟨hosted [.write 4 off 1], 1, rfl, by revert h off; decide, by revert h off; decide, rfl,
      by revert h off; decide⟩⟩

theorem witness_PortRefusesOtherAccesses : ∃ (s : State) (width off : Nat) (data : Word),
    HostEvent.write width off data ∈ [HostEvent.read width off, HostEvent.write width off data] ∧
    s.inbox = [HostEvent.write width off data] ∧ off = 0x100 :=
  ⟨hosted [.write 4 0x100 1], 4, 0x100, 1, by decide +kernel⟩

theorem witness_ResetClearsTheState : (∃ (s : State) (rest : List HostEvent),
      s.inbox = .assertReset :: rest ∧ s.busy = true) ∧
    (∃ (s : State) (rest : List HostEvent), s.inbox = .releaseReset :: rest ∧ s.inReset = true) ∧
    (∃ (s : State) (w : Word) (rest : List HostEvent), s.busy = false ∧
      s.inbox = .releaseReset :: .write 4 0x04 w :: rest) :=
  ⟨⟨busyWith 0x127 [.assertReset, .releaseReset], [.releaseReset], rfl, rfl⟩,
    ⟨State.reset.assertReset.present [.releaseReset], [], rfl, rfl⟩,
    ⟨State.reset.assertReset.present [.releaseReset, .write 4 0x04 5], 5, [], rfl, rfl⟩⟩

/-- A state that meets the invariants, is not the state after reset, and runs a command that writes; and
one while reset is asserted. -/
theorem witness_StepKeepsRegisterAndStatusRanges : (∃ s t : State, s.FBelow ∧ s.NBelow ∧ s.BufferOk ∧
      s.StatusOk ∧ step s = .next t ∧ t ≠ s) ∧
    ∃ s t : State, (s.FBelow ∧ s.NBelow ∧ s.BufferOk ∧ s.StatusOk ∧ s.inReset = true) ∧
      step s = .next t ∧ t.inReset = false :=
  ⟨⟨(buf (be32 orderN)).accept 0x127, _, by decide +kernel, by decide +kernel, by decide +kernel,
    by decide +kernel, rfl, by decide +kernel⟩,
    State.reset.assertReset.present [.releaseReset], _, by decide +kernel, rfl, rfl⟩

theorem witness_StepKeepsPointsOnTheCurve : ∃ s t : State, s.POnCurve ∧ step s = .next t ∧ t ≠ s :=
  ⟨(twoP twoG Point.generator).accept 0x00012034, _, by decide +kernel, rfl, by decide +kernel⟩

/-- A command that completes, and one that reads C unwritten. -/
theorem witness_EveryAcceptedCommandFinishes : (∃ s : State, s.inReset = false ∧ s.busy = true ∧
      s.inbox ≠ [] ∧ ∀ ev ∈ s.inbox, ev.carried = true) ∧
    ∃ s : State, s.inReset = false ∧ s.inbox = [] ∧ (∀ ev ∈ s.inbox, ev.carried = true) ∧
      s.busy = true ∧ decode s.cmdl = .ok (.cset 2) ∧ ¬s.Ready (.cset 2) :=
  ⟨⟨busyWith 0x127 [.read 4 0xFC, .wait, .write 4 0x04 0x127], by decide +kernel⟩,
    busyWith 0x02000001 [], by decide +kernel⟩

theorem witness_WordSerialMultiplierIsTheProduct : primeP - 1 < primeP ∧ 0 < primeP := by decide

/-- Two commands of one OP and IMM with other operands, one of which succeeds and one of which is illegal. -/
theorem witness_LatencyDependsOnOpAndImmOnly : ∃ s t s' t' : State, (s.busy = true ∧ t.busy = true ∧
    s.inbox = [] ∧ t.inbox = [] ∧ s.cmdl.extractLsb' 0 8 = t.cmdl.extractLsb' 0 8 ∧
    s.cmdl.extractLsb' 24 8 = t.cmdl.extractLsb' 24 8 ∧ s.cmdl ≠ t.cmdl) ∧
    (step s = .next s' ∧ step t = .next t') ∧ s'.busy = false ∧ t'.busy = false ∧
    s'.err = 0 ∧ t'.err = 6 :=
  ⟨busyWith 0x01000001 [], busyWith 0x01000101 [], (busyWith 0x01000001 []).setC true |>.complete 0,
    (busyWith 0x01000101 []).complete 6, by decide +kernel, ⟨rfl, rfl⟩, by decide +kernel⟩

theorem witness_HostSequenceLoadsAScalar : ∃ (s : State) (k : List Byte), s.inReset = false ∧
    s.busy = false ∧ s.inbox = [] ∧ s.BufferOk ∧ k.length = 32 ∧ k ≠ be32 0 :=
  ⟨buf [0x02], be32 (2 ^ 256 - 1), by decide +kernel⟩

/-- Addresses in the window, on both sides of it, and misaligned. -/
theorem witness_WindowLiesAtEngineBase : (∃ (base : EngineBase) (s : State) (addr off : Nat), s.inbox = [] ∧
      off < 0x100 ∧ addr = base.address + off ∧ base.address ≠ 0) ∧
    (∃ (base : EngineBase) (addr : Nat), addr < base.address) ∧
    (∃ (base : EngineBase) (addr : Nat), base.address + 0x100 ≤ addr) ∧ ∃ addr, addr % 4 ≠ 0 :=
  ⟨⟨⟨3⟩, State.reset, 0x304, 4, rfl, by decide, rfl, by decide⟩, ⟨⟨3⟩, 0x2FC, by decide⟩,
    ⟨⟨3⟩, 0x400, by decide⟩, 6, by decide⟩

end Sys2Proof.Tests
end

section
/-! SUPPORT. What a command that finds its sources written does to the state, for all commands: success
with its own frame, or an error that leaves the data alone (spec/00_scope.md R14, R16, R129). -/

namespace Sys2Proof.Machine

/-- `t` is `s` after a completion of command `i`: code 0 and the frame of `i`, or an error's code and
nothing written. -/
def State.CompletedAs (s : State) (i : Instr) (t : State) : Prop :=
  (t.err = 0 ∧ s.Succeeded t (destination i) (writesFlag i.op)
    (if writesBuffer i.op then t.bufLen else 0)) ∨
  (t.err ≠ 0 ∧ s.Raised t t.err)

/-- An outcome that is a completion of command `i`. -/
def State.CompletesAs (s : State) (i : Instr) (o : Host.Outcome State Fault Refusal) : Prop :=
  ∃ t, o = .next t ∧ s.CompletedAs i t

variable {s : State} {i : Instr}

theorem errKind_code_ne_zero (e : ErrKind) : e.code ≠ 0 := by cases e <;> decide

theorem completesAs_raise (e : ErrKind) : s.CompletesAs i (s.raise e) :=
  ⟨_, rfl, .inr ⟨errKind_code_ne_zero e, raised_complete s e.code⟩⟩

/-- A command that stores nothing to BUF completes when its success has the frame of its destination
and flag. -/
theorem completesAs_succeed {u : State} (hb : writesBuffer i.op = false)
    (h : s.Succeeded (u.complete 0) (destination i) (writesFlag i.op) 0) :
    s.CompletesAs i u.succeed :=
  ⟨_, rfl, .inl ⟨rfl, by rwa [hb]⟩⟩

theorem completesAs_setF {rd : Reg} {v : Nat} (hd : destination i = some (.f rd))
    (hf : writesFlag i.op = false) (hb : writesBuffer i.op = false) :
    s.CompletesAs i (s.setF rd v).succeed :=
  completesAs_succeed hb (by rw [hd, hf]; exact succeeded_setF s rd v)

theorem completesAs_setN {rd : Reg} {v : Nat} (hd : destination i = some (.n rd))
    (hf : writesFlag i.op = false) (hb : writesBuffer i.op = false) :
    s.CompletesAs i (s.setN rd v).succeed :=
  completesAs_succeed hb (by rw [hd, hf]; exact succeeded_setN s rd v)

theorem completesAs_setP {rd : Reg} {q : Point} (hd : destination i = some (.p rd))
    (hf : writesFlag i.op = false) (hb : writesBuffer i.op = false) :
    s.CompletesAs i (s.setP rd q).succeed :=
  completesAs_succeed hb (by rw [hd, hf]; exact succeeded_setP s rd q)

theorem completesAs_setC {b : Bool} (hd : destination i = none)
    (hf : writesFlag i.op = true) (hb : writesBuffer i.op = false) :
    s.CompletesAs i (s.setC b).succeed :=
  completesAs_succeed hb (by rw [hd, hf]; exact succeeded_setC s b)

theorem completesAs_output {bytes : List Byte} (hne : bytes ≠ []) (hd : destination i = none)
    (hf : writesFlag i.op = false) (hb : writesBuffer i.op = true) :
    s.CompletesAs i (s.output bytes).succeed :=
  ⟨_, rfl, .inl ⟨rfl, by rw [hd, hf, hb]; exact succeeded_output s bytes hne⟩⟩

/-- A command that finds its sources written completes as what follows its reads does. -/
theorem completesAs_reading {rest : Host.Outcome State Fault Refusal} (hr : s.Ready i)
    (h : s.CompletesAs i rest) : s.CompletesAs i (s.reading (sources i) rest) := by
  rwa [reading_written s hr]

theorem be32_ne_nil (v : Nat) : be32 v ≠ [] := List.ne_nil_of_length_pos (by simp)

theorem uncompressed_ne_nil (q : Point) : q.uncompressed ≠ [] := by
  cases q <;> exact List.cons_ne_nil _ _

theorem compressed_ne_nil (q : Point) : q.compressed ≠ [] := by
  cases q <;> exact List.cons_ne_nil _ _

theorem execCset_completesAs (k : BitVec 8) (hr : s.Ready (.cset k)) :
    s.CompletesAs (.cset k) (execCset k s) := by
  unfold execCset
  split
  · exact completesAs_reading hr (completesAs_setC rfl rfl rfl)
  · exact completesAs_raise _

theorem execFsqr_completesAs (rd ra : Reg) (k : BitVec 8) (hr : s.Ready (.fsqr rd ra k)) :
    s.CompletesAs (.fsqr rd ra k) (execFsqr rd ra k s) := by
  unfold execFsqr
  split
  · exact completesAs_raise _
  · exact completesAs_reading hr (completesAs_setF rfl rfl rfl)

theorem execNsqr_completesAs (rd ra : Reg) (k : BitVec 8) (hr : s.Ready (.nsqr rd ra k)) :
    s.CompletesAs (.nsqr rd ra k) (execNsqr rd ra k s) := by
  unfold execNsqr
  split
  · exact completesAs_raise _
  · exact completesAs_reading hr (completesAs_setN rfl rfl rfl)

theorem execFldc_completesAs (rd : Reg) (k : BitVec 8) :
    s.CompletesAs (.fldc rd k) (execFldc rd k s) := by
  unfold execFldc
  split
  · exact completesAs_setF rfl rfl rfl
  · exact completesAs_raise _

theorem execNldc_completesAs (rd : Reg) (k : BitVec 8) :
    s.CompletesAs (.nldc rd k) (execNldc rd k s) := by
  unfold execNldc
  split
  · exact completesAs_setN rfl rfl rfl
  · exact completesAs_raise _

theorem execFld_completesAs (rd : Reg) : s.CompletesAs (.fld rd) (execFld rd s) := by
  unfold execFld
  split
  · exact completesAs_raise _
  · split
    · exact completesAs_setF rfl rfl rfl
    · exact completesAs_raise _

theorem execFltp_completesAs : s.CompletesAs .fltp (execFltp s) := by
  unfold execFltp
  split
  · exact completesAs_raise _
  · exact completesAs_setC rfl rfl rfl

theorem execNld_completesAs (rd : Reg) : s.CompletesAs (.nld rd) (execNld rd s) := by
  unfold execNld
  split
  · exact completesAs_raise _
  · exact completesAs_setN rfl rfl rfl

theorem execPdec_completesAs (rd : Reg) : s.CompletesAs (.pdec rd) (execPdec rd s) := by
  unfold execPdec
  split
  · exact completesAs_setP rfl rfl rfl
  · exact completesAs_raise _

theorem execPencx_completesAs (ra : Reg) (hr : s.Ready (.pencx ra)) :
    s.CompletesAs (.pencx ra) (execPencx ra s) := by
  refine completesAs_reading hr ?_
  split
  · exact completesAs_raise _
  · exact completesAs_output (be32_ne_nil _) rfl rfl rfl

/-- Every command whose sources are written completes with its own frame or with an error. -/
theorem exec_completesAs (i : Instr) (hr : s.Ready i) : s.CompletesAs i (exec i s) := by
  cases i with
  | cset k => exact execCset_completesAs k hr
  | fsqr rd ra k => exact execFsqr_completesAs rd ra k hr
  | nsqr rd ra k => exact execNsqr_completesAs rd ra k hr
  | fldc rd k => exact execFldc_completesAs rd k
  | nldc rd k => exact execNldc_completesAs rd k
  | fld rd => exact execFld_completesAs rd
  | fltp => exact execFltp_completesAs
  | nld rd => exact execNld_completesAs rd
  | pdec rd => exact execPdec_completesAs rd
  | pencx ra => exact execPencx_completesAs ra hr
  | nop => exact completesAs_succeed rfl (succeeded_complete s)
  | fsqrt rd ra =>
    exact completesAs_reading hr (completesAs_succeed rfl
      (Succeeded_setC (succeeded_setF s rd _) (by simp) _))
  | padd rd ra rb =>
    exact completesAs_reading hr (completesAs_succeed rfl
      (Succeeded_setC (succeeded_setP s rd _) (by simp) _))
  | fst ra => exact completesAs_reading hr (completesAs_output (be32_ne_nil _) rfl rfl rfl)
  | nst ra => exact completesAs_reading hr (completesAs_output (be32_ne_nil _) rfl rfl rfl)
  | penc ra => exact completesAs_reading hr (completesAs_output (uncompressed_ne_nil _) rfl rfl rfl)
  | pencc ra => exact completesAs_reading hr (completesAs_output (compressed_ne_nil _) rfl rfl rfl)
  | fadd | fsub | fmul | finv | fnegc | fsel | ftom | ffromm | fmov =>
    exact completesAs_reading hr (completesAs_setF rfl rfl rfl)
  | nadd | nsub | nmul | ninv | nmov | impsig =>
    exact completesAs_reading hr (completesAs_setN rfl rfl rfl)
  | pinf | pgen => exact completesAs_setP rfl rfl rfl
  | pmov | pdbl | pnegc | psel | pmul | pbmul =>
    exact completesAs_reading hr (completesAs_setP rfl rfl rfl)
  | feq | pisinf => exact completesAs_reading hr (completesAs_setC rfl rfl rfl)

/-- Recording a read leaves some record: the one there was, or the new one. -/
theorem exists_recordUninit_eq (s : State) (r : RegName) :
    ∃ r', s.recordUninit r = { s with uninit := some r' } :=
  ⟨s.uninit.getD r, by unfold State.recordUninit; cases s.uninit <;> rfl⟩

/-- Settles O7: an illegal command raises an error, a ready one completes with its frame, and any other
only records the read. -/
theorem commandFrames : Obligations.CommandFrames := by
  intro i s t ht
  rcases exec_cases (s := s) i with ⟨-, he⟩ | ⟨-, hr, -⟩ | ⟨-, hr, r, -, he⟩
  · cases he.symm.trans ht
    exact .inr (.inl ⟨by simp, raised_complete s 6⟩)
  · obtain ⟨u, he, hu⟩ := exec_completesAs i hr
    cases he.symm.trans ht
    exact hu.elim .inl (.inr ∘ .inl)
  · cases he.symm.trans ht
    exact .inr (.inr ⟨hr, exists_recordUninit_eq s r⟩)

/-- Settles O9: the third case of what a command can do, the only one a legal command with an unwritten
source leaves. -/
theorem uninitReadIsRecorded : Obligations.UninitReadIsRecorded := by
  intro i s hw hn
  rcases exec_cases (s := s) i with ⟨hnw, -⟩ | ⟨-, hr, -⟩ | ⟨-, -, r, hu, he⟩
  · exact absurd hw hnw
  · exact absurd hr hn
  · exact ⟨r, hu, he⟩

end Sys2Proof.Machine
end

section
/-! SUPPORT. The group law of R17 by its cases, in equations modulo p with no division, and the laws of
the group, from the library's through `Point.toCurve`. -/

namespace Sys2Proof.Machine

theorem add_infinity_left (q : Point) : Point.add .infinity q = q := rfl

theorem add_infinity_right (q : Point) : Point.add q .infinity = q := by cases q <;> rfl

theorem add_affine_opposite {x y1 y2 : Elem} (h : addMod primeP y1.toNat y2.toNat = 0) :
    Point.add (.affine x y1) (.affine x y2) = .infinity := by
  simp [Point.add, h]

theorem add_affine_tangent {x y1 y2 : Elem} (h : addMod primeP y1.toNat y2.toNat ≠ 0) :
    Point.add (.affine x y1) (.affine x y2)
      = Point.ofSlope (tangentSlope x.toNat y1.toNat) x.toNat y1.toNat x.toNat := by
  simp [Point.add, h]

theorem add_affine_chord {x1 y1 x2 y2 : Elem} (h : x1 ≠ x2) :
    Point.add (.affine x1 y1) (.affine x2 y2)
      = Point.ofSlope (chordSlope x1.toNat y1.toNat x2.toNat y2.toNat) x1.toNat y1.toNat x2.toNat := by
  simp [Point.add, h]

section Residues

variable [Fact (Nat.Prime primeP)]

/-- The third point of a line of slope `l`: its bounds and the two equations of R17. -/
theorem ofSlope_equations (l x1 y1 x2 : Nat) : ∃ x3 y3 : Elem,
    Point.ofSlope l x1 y1 x2 = .affine x3 y3 ∧ x3.toNat < primeP ∧ y3.toNat < primeP ∧
    (x3.toNat + x1 + x2) % primeP = l * l % primeP ∧
    (y3.toNat + y1 + l * x3.toNat) % primeP = l * x1 % primeP := by
  obtain ⟨x, y, e, hx, hy, ex, ey⟩ := ofSlope_cast l x1 y1 x2
  refine ⟨_, _, e, ?_⟩
  rw [toNat_ofNat_lt hx, toNat_ofNat_lt hy, ← ZMod.natCast_eq_natCast_iff',
    ← ZMod.natCast_eq_natCast_iff']
  push_cast
  refine ⟨hx, hy, ?_, ?_⟩
  · linear_combination ex
  · linear_combination ey + (l : ZMod primeP) * ex

/-- The tangent's slope, times 2y, is 3x² − 3. -/
theorem tangentSlope_equation (x : Nat) {y : Nat} (hy : (y : ZMod primeP) ≠ 0) :
    (tangentSlope x y * (2 * y) + 3) % primeP = 3 * x * x % primeP := by
  rw [← ZMod.natCast_eq_natCast_iff']
  simp only [tangentSlope, Nat.cast_add, Nat.cast_mul, cast_mulMod, cast_subP, cast_invP]
  push_cast
  have hinv : (2 * (y : ZMod primeP))⁻¹ * (2 * y) = 1 := inv_mul_cancel₀ (mul_ne_zero two_ne_zero_P hy)
  linear_combination (3 * ((x : ZMod primeP) * x) - 3) * hinv

/-- The chord's slope, times x₂ − x₁, is y₂ − y₁. -/
theorem chordSlope_equation {x1 x2 : Nat} (y1 y2 : Nat) (hx : (x1 : ZMod primeP) ≠ x2) :
    (chordSlope x1 y1 x2 y2 * x2 + y1) % primeP = (chordSlope x1 y1 x2 y2 * x1 + y2) % primeP := by
  rw [← ZMod.natCast_eq_natCast_iff']
  simp only [chordSlope, Nat.cast_add, Nat.cast_mul, cast_mulMod, cast_subP, cast_invP]
  have hinv : ((x2 : ZMod primeP) - x1)⁻¹ * (x2 - x1) = 1 := inv_mul_cancel₀ (sub_ne_zero.2 hx.symm)
  linear_combination ((y2 : ZMod primeP) - y1) * hinv

end Residues

/-- Settles O29: the case split of the law, with the equations of its two slopes; the tangent is defined
since no point of E has y = 0. -/
theorem chordAndTangentLaw : Obligations.ChordAndTangentLaw := by
  have := primeP_fact
  refine ⟨fun q => ⟨add_infinity_left q, add_infinity_right q⟩, fun x1 y1 x2 y2 h1 h2 => ⟨?_, ?_⟩⟩
  · rintro rfl hy
    exact add_affine_opposite hy
  obtain ⟨hx1, hy1, -⟩ := (onCurve_affine_iff x1 y1).1 h1
  obtain ⟨hx2, -, -⟩ := (onCurve_affine_iff x2 y2).1 h2
  intro hne
  by_cases hx : x1 = x2
  · subst hx
    have hy : (y1.toNat : ZMod primeP) ≠ 0 := (cast_ne_zero_iff hy1).2 (onCurve_y_ne_zero h1)
    obtain ⟨x3, y3, e, hx3, hy3, ex, ey⟩ :=
      ofSlope_equations (tangentSlope x1.toNat y1.toNat) x1.toNat y1.toNat x1.toNat
    refine ⟨_, x3, y3, (add_affine_tangent (hne.resolve_left (not_not.2 rfl))).trans e, hx3, hy3, ex, ey, ?_⟩
    rw [if_pos rfl]
    exact tangentSlope_equation _ hy
  · have hxc : (x1.toNat : ZMod primeP) ≠ x2.toNat := fun h =>
      hx (BitVec.eq_of_toNat_eq (eq_of_cast_eq hx1 hx2 h))
    obtain ⟨x3, y3, e, hx3, hy3, ex, ey⟩ :=
      ofSlope_equations (chordSlope x1.toNat y1.toNat x2.toNat y2.toNat) x1.toNat y1.toNat x2.toNat
    refine ⟨_, x3, y3, (add_affine_chord hx).trans e, hx3, hy3, ex, ey, ?_⟩
    rw [if_neg hx]
    exact chordSlope_equation _ _ hxc

theorem add_comm_onCurve {a b : Point} (ha : a.onCurve = true) (hb : b.onCurve = true) :
    a.add b = b.add a := by
  have := primeP_fact
  obtain ⟨hab, eab⟩ := add_spec ha hb
  obtain ⟨hba, eba⟩ := add_spec hb ha
  exact toCurve_injOn hab hba (by rw [eab, eba, add_comm])

theorem add_neg_onCurve {a : Point} (ha : a.onCurve = true) : a.add a.neg = .infinity := by
  have := primeP_fact
  obtain ⟨hn, en⟩ := neg_spec ha
  obtain ⟨hs, es⟩ := add_spec ha hn
  exact toCurve_injOn hs rfl (by rw [es, en, add_neg_cancel, toCurve_infinity])

theorem add_assoc_onCurve {a b c : Point} (ha : a.onCurve = true) (hb : b.onCurve = true)
    (hc : c.onCurve = true) : (a.add b).add c = a.add (b.add c) := by
  have := primeP_fact
  obtain ⟨hab, eab⟩ := add_spec ha hb
  obtain ⟨hbc, ebc⟩ := add_spec hb hc
  obtain ⟨hl, el⟩ := add_spec hab hc
  obtain ⟨hr, er⟩ := add_spec ha hbc
  exact toCurve_injOn hl hr (by rw [el, er, eab, ebc, add_assoc])

/-- Settles O30: the library's group laws, carried over by the injection `Point.toCurve` on E. -/
theorem curvePointsFormAGroup : Obligations.CurvePointsFormAGroup := by
  have := primeP_fact
  refine ⟨fun a b ha hb => ⟨(add_spec ha hb).1, add_comm_onCurve ha hb⟩,
    fun a => ⟨add_infinity_left a, add_infinity_right a⟩,
    fun a ha => ⟨(neg_spec ha).1, add_neg_onCurve ha⟩,
    fun a b c ha hb hc => add_assoc_onCurve ha hb hc, fun x y h hy => ?_⟩
  exact onCurve_y_ne_zero h (by rw [hy]; rfl)

end Sys2Proof.Machine
end

section
/-! SUPPORT. The Jacobian doubler and the complete adders compute the group law on every triple of every
point of E (spec/42_point.md R101 to R103): a triple is taken apart into its point's coordinates and its Z,
and the datapath's polynomials are compared with the slope formulas in the field `ZMod p`. -/

namespace Sys2Proof.Machine

/-- Only a triple with Z = 0 stands for ∞. -/
theorem toPoint_eq_infinity_iff (t : Jac) : t.toPoint = .infinity ↔ t.z = 0 := by
  have := primeP_fact
  refine ⟨fun h => by_contra fun hz => ?_, toPoint_of_z_zero⟩
  obtain ⟨x, y, e, -⟩ := toPoint_of_z_ne_zero hz
  cases h.symm.trans e

theorem selectSum_of_left_infinity {a b : Jac} (s : Jac) (eq : Bool) (ha : a.z = 0) (hb : b.z ≠ 0) :
    Jac.selectSum a b s eq = b := by simp [Jac.selectSum, Jac.isInf, ha, hb]

theorem selectSum_of_right_infinity {b : Jac} (a s : Jac) (eq : Bool) (hb : b.z = 0) :
    Jac.selectSum a b s eq = a := by simp [Jac.selectSum, Jac.isInf, hb]

theorem selectSum_of_finite {a b : Jac} (s : Jac) (eq : Bool) (ha : a.z ≠ 0) (hb : b.z ≠ 0) :
    Jac.selectSum a b s eq = if eq = true then Jac.double a else s := by
  simp [Jac.selectSum, Jac.isInf, ha, hb]

theorem completeAdd_eq (a b : Jac) : Jac.completeAdd a b =
    (Jac.selectSum a b (Jac.generalAdd a b).1 (Jac.generalAdd a b).2, (Jac.generalAdd a b).2) := rfl

/-- A finite triple whose X and Y are the residues x and y scaled by Z² and Z³ (R23). -/
structure Jac.Scales (t : Jac) (x y : Nat) : Prop where
  x_lt : x < primeP
  y_lt : y < primeP
  z_ne : (t.z : ZMod primeP) ≠ 0
  x_eq : (t.x : ZMod primeP) = x * (t.z : ZMod primeP) ^ 2
  y_eq : (t.y : ZMod primeP) = y * (t.z : ZMod primeP) ^ 3

/-- The coordinates of a triple are residues. -/
abbrev Jac.Residues (t : Jac) : Prop := t.x < primeP ∧ t.y < primeP ∧ t.z < primeP

/-- The selects choose among triples of residues, so they give one. -/
theorem selectSum_residues {a b s : Jac} (ha : a.Residues) (hb : b.Residues) (hs : s.Residues)
    (eq : Bool) : (Jac.selectSum a b s eq).Residues := by
  unfold Jac.selectSum
  dsimp only
  split
  · exact ha
  split
  · exact hb
  split
  · exact double_lt a
  · exact hs

section Field

variable [Fact (Nat.Prime primeP)]

/-- A triple that scales coordinates stands for their point. -/
theorem scales_toPoint {t : Jac} {x y : Nat} (h : t.Scales x y) : t.toPoint = Point.ofNat x y := by
  obtain ⟨x', y', e, hx', hy', ex', ey'⟩ :=
    toPoint_of_z_ne_zero (t := t) fun hz => h.z_ne (by rw [hz, Nat.cast_zero])
  rw [e]
  refine ofNat_congr hx' hy' h.x_lt h.y_lt ?_ ?_
  · rw [ex', h.x_eq, mul_div_cancel_right₀ _ (pow_ne_zero 2 h.z_ne)]
  · rw [ey', h.y_eq, mul_div_cancel_right₀ _ (pow_ne_zero 3 h.z_ne)]

/-- A triple of a finite point of E scales that point's coordinates. -/
theorem valid_scales {t : Jac} (h : t.Valid) (hz : t.z ≠ 0) :
    ∃ x y, t.Scales x y ∧ (Point.ofNat x y).onCurve = true := by
  obtain ⟨-, -, hzp, hc⟩ := h
  have hz' := (cast_ne_zero_iff hzp).2 hz
  obtain ⟨x, y, e, hx, hy, ex, ey⟩ := toPoint_of_z_ne_zero hz
  exact ⟨x, y, ⟨hx, hy, hz', by rw [ex, div_mul_cancel₀ _ (pow_ne_zero 2 hz')],
    by rw [ey, div_mul_cancel₀ _ (pow_ne_zero 3 hz')]⟩, e ▸ hc⟩

theorem double_z_of_infinity {t : Jac} (h : t.z = 0) : (Jac.double t).z = 0 := by
  rw [← cast_eq_zero_iff (double_lt t).2.2, (double_cast t).1, h]
  simp

/-- The doubler's triple stands for twice the point: ∞ keeps Z = 0, and at a finite point the tangent's
slope λ, with 2yλ = 3x² − 3, gives the doubler's polynomials. -/
theorem double_toPoint {t : Jac} (h : t.Valid) :
    (Jac.double t).toPoint = Point.add t.toPoint t.toPoint := by
  by_cases hz : t.z = 0
  · rw [toPoint_of_z_zero hz, toPoint_of_z_zero (double_z_of_infinity hz)]; rfl
  obtain ⟨x, y, ht, hc⟩ := valid_scales h hz
  have hy0 := cast_y_ne_zero ht.y_lt hc
  obtain ⟨x3, y3, e3, hx3, hy3, ex3, ey3⟩ := add_tangent ht.x_lt ht.y_lt hc
  have hl : (3 * (x : ZMod primeP) ^ 2 - 3) / (2 * y) * (2 * y) = 3 * x ^ 2 - 3 :=
    div_mul_cancel₀ _ (mul_ne_zero two_ne_zero_P hy0)
  generalize (3 * (x : ZMod primeP) ^ 2 - 3) / (2 * y) = l at hl ex3 ey3
  have ha : 3 * ((t.x : ZMod primeP) - t.z ^ 2) * (t.x + t.z ^ 2) = l * (2 * y) * t.z ^ 4 := by
    rw [ht.x_eq, hl]; ring
  obtain ⟨ez, ex, ey⟩ := double_cast t
  rw [ha, ht.x_eq, ht.y_eq] at ex ey
  rw [ht.y_eq] at ez
  rw [scales_toPoint ht, e3]
  refine scales_toPoint ⟨hx3, hy3, ?_, ?_, ?_⟩
  · rw [ez]
    exact mul_ne_zero (mul_ne_zero two_ne_zero_P (mul_ne_zero hy0 (pow_ne_zero 3 ht.z_ne))) ht.z_ne
  · rw [ex, ez, ex3]; ring
  · rw [ey, ez, ey3]; ring

/-- The general adder's H and r of two triples that scale (x₁, y₁) and (x₂, y₂): zero exactly when the
coordinates' differences are. -/
theorem generalAdd_differences {a b : Jac} {x1 y1 x2 y2 : Nat} (ha : a.Scales x1 y1)
    (hb : b.Scales x2 y2) :
    (b.x : ZMod primeP) * a.z ^ 2 - a.x * b.z ^ 2 = (x2 - x1) * (a.z * b.z) ^ 2 ∧
    2 * ((b.y : ZMod primeP) * a.z ^ 3 - a.y * b.z ^ 3) = 2 * ((y2 - y1) * (a.z * b.z) ^ 3) := by
  rw [ha.x_eq, hb.x_eq, ha.y_eq, hb.y_eq]
  constructor <;> ring

/-- The general adder's flag fires exactly for equal coordinates. -/
theorem generalAdd_flag_iff {a b : Jac} {x1 y1 x2 y2 : Nat} (ha : a.Scales x1 y1)
    (hb : b.Scales x2 y2) : (Jac.generalAdd a b).2 = true ↔ x1 = x2 ∧ y1 = y2 := by
  obtain ⟨eh, er⟩ := generalAdd_differences ha hb
  obtain ⟨-, -, -, hf⟩ := generalAdd_cast a b
  have hzz := mul_ne_zero ha.z_ne hb.z_ne
  rw [hf, eh, er, mul_eq_zero_iff_right (pow_ne_zero 2 hzz), mul_eq_zero_iff_left two_ne_zero_P,
    mul_eq_zero_iff_right (pow_ne_zero 3 hzz), sub_eq_zero, sub_eq_zero]
  refine and_congr ⟨fun h => (eq_of_cast_eq hb.x_lt ha.x_lt h).symm, fun h => by rw [h]⟩
    ⟨fun h => (eq_of_cast_eq hb.y_lt ha.y_lt h).symm, fun h => by rw [h]⟩

/-- Where the x-coordinates differ, the general adder's triple stands for the sum: the chord's slope λ, with
(x₂ − x₁)λ = y₂ − y₁, gives the adder's polynomials. -/
theorem generalAdd_toPoint_chord {a b : Jac} {x1 y1 x2 y2 : Nat} (ha : a.Scales x1 y1)
    (hb : b.Scales x2 y2) (hne : x1 ≠ x2) :
    (Jac.generalAdd a b).1.toPoint = Point.add (Point.ofNat x1 y1) (Point.ofNat x2 y2) := by
  have hx : (x1 : ZMod primeP) ≠ x2 := fun h => hne (eq_of_cast_eq ha.x_lt hb.x_lt h)
  obtain ⟨x3, y3, e3, hx3, hy3, ex3, ey3⟩ := add_chord ha.x_lt ha.y_lt hb.x_lt hb.y_lt hx
  have hd := sub_ne_zero.2 hx.symm
  have hl : ((y2 : ZMod primeP) - y1) / (x2 - x1) * (x2 - x1) = y2 - y1 := div_mul_cancel₀ _ hd
  generalize ((y2 : ZMod primeP) - y1) / (x2 - x1) = l at hl ex3 ey3
  obtain ⟨eh, er⟩ := generalAdd_differences ha hb
  obtain ⟨ez, ex, ey, -⟩ := generalAdd_cast a b
  rw [eh, er, ← hl, ha.x_eq] at ex ey
  rw [eh] at ez
  rw [ha.y_eq] at ey
  rw [e3]
  refine scales_toPoint ⟨hx3, hy3, ?_, ?_, ?_⟩
  · rw [ez]
    exact mul_ne_zero (mul_ne_zero (mul_ne_zero two_ne_zero_P ha.z_ne) hb.z_ne)
      (mul_ne_zero hd (pow_ne_zero 2 (mul_ne_zero ha.z_ne hb.z_ne)))
  · rw [ex, ez, ex3]; ring
  · rw [ey, ez, ey3]; ring

/-- Two points of E with one x-coordinate and different y-coordinates are opposite. -/
theorem ofNat_opposite {x y1 y2 : Nat} (hx : x < primeP) (h1 : y1 < primeP) (h2 : y2 < primeP)
    (hc1 : (Point.ofNat x y1).onCurve = true) (hc2 : (Point.ofNat x y2).onCurve = true)
    (hne : y1 ≠ y2) : (y1 : ZMod primeP) + y2 = 0 := by
  have e := ((ofNat_onCurve_iff hx h1).1 hc1).trans ((ofNat_onCurve_iff hx h2).1 hc2).symm
  have hsq : (y1 : ZMod primeP) * y1 = y2 * y2 := by rw [← cast_mulMod, e, cast_mulMod]
  rcases mul_self_eq_mul_self_iff.1 hsq with h | h
  · exact absurd (eq_of_cast_eq h1 h2 h) hne
  · rw [h, neg_add_cancel]

/-- Where the points differ, the general adder's triple stands for the sum: opposite points give Z = 0. -/
theorem generalAdd_toPoint {a b : Jac} {x1 y1 x2 y2 : Nat} (ha : a.Scales x1 y1) (hb : b.Scales x2 y2)
    (hca : (Point.ofNat x1 y1).onCurve = true) (hcb : (Point.ofNat x2 y2).onCurve = true)
    (hne : ¬(x1 = x2 ∧ y1 = y2)) :
    (Jac.generalAdd a b).1.toPoint = Point.add (Point.ofNat x1 y1) (Point.ofNat x2 y2) := by
  by_cases hx : x1 = x2
  · subst hx
    have hop := ofNat_opposite ha.x_lt ha.y_lt hb.y_lt hca hcb fun hy => hne ⟨rfl, hy⟩
    rw [add_opposite ha.y_lt hb.y_lt hop, toPoint_eq_infinity_iff,
      ← cast_eq_zero_iff (generalAdd_lt a b).2.2, (generalAdd_cast a b).1,
      (generalAdd_differences ha hb).1, sub_self, zero_mul, mul_zero]
  · exact generalAdd_toPoint_chord ha hb hx

/-- The flag of the complete adder tells equal points apart from different ones, both finite. -/
theorem completeAdd_flag_iff {a b : Jac} (ha : a.Valid) (hb : b.Valid) (hza : a.z ≠ 0) (hzb : b.z ≠ 0) :
    (Jac.completeAdd a b).2 = true ↔ a.toPoint = b.toPoint := by
  obtain ⟨x1, y1, sa, ca⟩ := valid_scales ha hza
  obtain ⟨x2, y2, sb, cb⟩ := valid_scales hb hzb
  rw [completeAdd_eq, generalAdd_flag_iff sa sb, scales_toPoint sa, scales_toPoint sb]
  refine ⟨fun ⟨hx, hy⟩ => by rw [hx, hy], fun h => ?_⟩
  simp only [Point.ofNat, Point.affine.injEq] at h
  obtain ⟨hx, hy⟩ := h
  have hx := congrArg BitVec.toNat hx
  have hy := congrArg BitVec.toNat hy
  rw [toNat_ofNat_lt sa.x_lt, toNat_ofNat_lt sb.x_lt] at hx
  rw [toNat_ofNat_lt sa.y_lt, toNat_ofNat_lt sb.y_lt] at hy
  exact ⟨hx, hy⟩

/-- The complete adder's triple stands for the sum: one operand where the other is ∞, the doubler where the
flag fires, the general adder elsewhere. -/
theorem completeAdd_toPoint {a b : Jac} (ha : a.Valid) (hb : b.Valid) :
    (Jac.completeAdd a b).1.toPoint = Point.add a.toPoint b.toPoint := by
  rw [completeAdd_eq]
  by_cases hzb : b.z = 0
  · rw [selectSum_of_right_infinity _ _ _ hzb, toPoint_of_z_zero hzb, add_infinity_right]
  by_cases hza : a.z = 0
  · rw [selectSum_of_left_infinity _ _ hza hzb, toPoint_of_z_zero hza, add_infinity_left]
  rw [selectSum_of_finite _ _ hza hzb]
  split
  · next hf => rw [double_toPoint ha, ← (completeAdd_flag_iff ha hb hza hzb).1 hf]
  · next hf =>
    obtain ⟨x1, y1, sa, ca⟩ := valid_scales ha hza
    obtain ⟨x2, y2, sb, cb⟩ := valid_scales hb hzb
    rw [scales_toPoint sa, scales_toPoint sb]
    exact generalAdd_toPoint sa sb ca cb fun h => hf ((generalAdd_flag_iff sa sb).2 h)

/-- The mixed adder is the general adder with Z₂ = 1. -/
theorem mixedAdd_eq (a : Jac) (x y : Nat) : Jac.mixedAdd a x y = Jac.generalAdd a ⟨x, y, 1⟩ := by
  obtain ⟨ex, ey, ez, ef⟩ := mixedAdd_cast a x y
  obtain ⟨mx, my, mz⟩ := mixedAdd_lt a x y
  obtain ⟨gx, gy, gz⟩ := generalAdd_lt a ⟨x, y, 1⟩
  refine Prod.ext ?_ (Bool.eq_iff_iff.2 ef)
  exact Jac.mk.injEq .. ▸ ⟨eq_of_cast_eq mx gx ex, eq_of_cast_eq my gy ey, eq_of_cast_eq mz gz ez⟩

theorem completeMixedAdd_affine (a : Jac) (x y : Elem) : Jac.completeMixedAdd a (.affine x y) =
    (Jac.completeAdd a (Jac.ofPoint (.affine x y))).1 := by
  rw [completeAdd_eq, Jac.ofPoint, ← mixedAdd_eq]; rfl

end Field

/-- The doubler keeps triples of points of E. -/
theorem double_valid {t : Jac} (h : t.Valid) : (Jac.double t).Valid := by
  have := primeP_fact
  obtain ⟨hx, hy, hz⟩ := double_lt t
  exact ⟨hx, hy, hz, double_toPoint h ▸ (add_spec h.2.2.2 h.2.2.2).1⟩

/-- The complete adder keeps triples of points of E. -/
theorem completeAdd_valid {a b : Jac} (ha : a.Valid) (hb : b.Valid) : (Jac.completeAdd a b).1.Valid := by
  have := primeP_fact
  have hlt : (Jac.completeAdd a b).1.Residues := selectSum_residues ⟨ha.1, ha.2.1, ha.2.2.1⟩
    ⟨hb.1, hb.2.1, hb.2.2.1⟩ (generalAdd_lt a b) _
  obtain ⟨hx, hy, hz⟩ := hlt
  exact ⟨hx, hy, hz, completeAdd_toPoint ha hb ▸ (add_spec ha.2.2.2 hb.2.2.2).1⟩

/-- The triple made of a point of E stands for it. -/
theorem ofPoint_spec {q : Point} (h : q.onCurve = true) :
    (Jac.ofPoint q).Valid ∧ (Jac.ofPoint q).toPoint = q := by
  have := primeP_fact
  cases q with
  | infinity => decide
  | affine x y =>
    obtain ⟨hx, hy, -⟩ := (onCurve_affine_iff x y).1 h
    have hs : (Jac.ofPoint (.affine x y)).Scales x.toNat y.toNat :=
      ⟨hx, hy, by simp [Jac.ofPoint], by simp [Jac.ofPoint], by simp [Jac.ofPoint]⟩
    have e : (Jac.ofPoint (.affine x y)).toPoint = .affine x y := by
      rw [scales_toPoint hs, Point.ofNat, BitVec.ofNat_toNat, BitVec.ofNat_toNat,
        BitVec.setWidth_eq, BitVec.setWidth_eq]
    exact ⟨⟨hx, hy, primeP_prime.one_lt, by rwa [e]⟩, e⟩

/-- The adder with an affine second operand keeps triples of points of E and adds the points. -/
theorem completeMixedAdd_spec {a : Jac} {q : Point} (ha : a.Valid) (hq : q.onCurve = true) :
    (Jac.completeMixedAdd a q).Valid ∧ (Jac.completeMixedAdd a q).toPoint = Point.add a.toPoint q := by
  have := primeP_fact
  cases q with
  | infinity => exact ⟨ha, (add_infinity_right _).symm⟩
  | affine x y =>
    obtain ⟨hv, e⟩ := ofPoint_spec hq
    rw [completeMixedAdd_affine]
    exact ⟨completeAdd_valid ha hv, by rw [completeAdd_toPoint ha hv, e]⟩

/-- Settles O34: the tangent case of the law, read off the doubler's polynomials. -/
theorem doublerDoublesThePoint : Obligations.DoublerDoublesThePoint :=
  have := primeP_fact
  fun _ h => ⟨double_valid h, double_toPoint h⟩

/-- Settles O35: the selects leave the general adder the chord and opposite cases of the law, and the adder
with an affine operand is the complete adder with Z₂ = 1. -/
theorem completeAdderAddsThePoints : Obligations.CompleteAdderAddsThePoints := by
  have := primeP_fact
  refine ⟨fun a b ha hb => ⟨completeAdd_valid ha hb, completeAdd_toPoint ha hb, fun hia hib => ?_⟩,
    fun a q ha hq => completeMixedAdd_spec ha hq⟩
  exact completeAdd_flag_iff ha hb (fun h => hia (toPoint_of_z_zero h))
    (fun h => hib (toPoint_of_z_zero h))

end Sys2Proof.Machine
end

section
/-! SUPPORT. The step as an equation for each case: the engine's step with no event before it, the event in
front taken off, and the reset signal (spec/10_state.md R19, R54; spec/70_reset_and_hazards.md R144 to R146). -/

namespace Sys2Proof.Machine

/-- The engine's step with no event before it. -/
theorem step_of_inbox_nil {s : State} (h : s.inbox = []) : step s = s.engineStep := by
  rw [step, move_eq, h]

/-- The step that takes off the host's next event. -/
theorem step_of_inbox_cons {s : State} {ev : HostEvent} {rest : List HostEvent}
    (h : s.inbox = ev :: rest) : step s = State.hostEvent { s with inbox := rest } ev := by
  rw [step, move_eq, h]

theorem engineStep_of_idle {s : State} (h : s.busy = false) : s.engineStep = .next s := by
  rw [State.engineStep, h]; rfl

theorem engineStep_of_legal {s : State} {i : Instr} (hb : s.busy = true) (h : decode s.cmdl = .ok i) :
    s.engineStep = exec i s := by
  rw [State.engineStep, if_pos hb, State.runWord, h]

theorem engineStep_of_illegal {s : State} {e : DecodeReject} (hb : s.busy = true)
    (h : decode s.cmdl = .error e) : s.engineStep = .next (s.complete 6) := by
  rw [State.engineStep, if_pos hb, State.runWord, h]; rfl

theorem withFetchWord_inbox (s : State) (nbits w : Nat) : (s.withFetchWord nbits w).inbox = [] := rfl

theorem withFetchWord_busy (s : State) (nbits w : Nat) : (s.withFetchWord nbits w).busy = true := rfl

theorem withFetchWord_cmdl (s : State) (nbits w : Nat) :
    (s.withFetchWord nbits w).cmdl = BitVec.ofNat 32 (w % 2 ^ nbits) := rfl

/-- A table word that stands for a command is decoded from CMDL after it is latched. -/
theorem decode_withFetchWord {nbits w : Nat} {i : Instr} (h : decodeTableWord nbits w = some i)
    (s : State) : decode (s.withFetchWord nbits w).cmdl = .ok i := by
  rw [withFetchWord_cmdl]
  unfold decodeTableWord at h
  cases hd : decode (BitVec.ofNat 32 (w % 2 ^ nbits)) with
  | ok j => rw [hd] at h; cases h; rfl
  | error e => rw [hd] at h; cases h

/-- Settles O5: the engine's step by its three cases, with an empty inbox or after a wait. -/
theorem stepRunsTheLatchedCommand : Obligations.StepRunsTheLatchedCommand := by
  refine ⟨fun s i hb hd hi => ?_, fun s i rest hb hd hi => ?_,
    fun s e hb hd => ⟨fun hi => ?_, fun rest hi => ?_⟩, fun s nbits w i hd => ?_, fun s hb => ⟨fun hi => ?_, fun rest hi => ?_⟩⟩
  · rw [step_of_inbox_nil hi, engineStep_of_legal hb hd]
  · rw [step_of_inbox_cons hi]
    exact engineStep_of_legal (s := { s with inbox := rest }) hb hd
  · rw [step_of_inbox_nil hi, engineStep_of_illegal hb hd]; rfl
  · rw [step_of_inbox_cons hi]
    exact engineStep_of_illegal (s := { s with inbox := rest }) hb hd
  · rw [step_of_inbox_nil (withFetchWord_inbox s nbits w),
      engineStep_of_legal (withFetchWord_busy s nbits w) (decode_withFetchWord hd s)]
  · rw [step_of_inbox_nil hi, engineStep_of_idle hb]
  · rw [step_of_inbox_cons hi]
    exact engineStep_of_idle (s := { s with inbox := rest }) hb

/-- After reset no register and no flag counts as written (R35). -/
theorem isWritten_reset (r : RegName) : State.reset.isWritten r = false := by
  cases r with
  | f i | n i | p i => exact congrArg Slot.written (Vector.get_replicate ..)
  | c => rfl

theorem isWritten_assertReset (s : State) (r : RegName) : s.assertReset.isWritten r = false := by
  rw [← isWritten_reset r]
  cases r <;> rfl

theorem bufByte_reset (k : Nat) : State.reset.bufByte k = 0 := by
  unfold State.bufByte
  split <;> rfl

theorem bufByte_assertReset (s : State) (k : Nat) : s.assertReset.bufByte k = 0 :=
  (bufByte_congr (assertReset_buf s) k).trans (bufByte_reset k)

/-- An idle engine accepts a CMD write (R41). -/
theorem step_cmdWrite_of_idle {s : State} {w : Word} {rest : List HostEvent} (hr : s.inReset = false)
    (hb : s.busy = false) (h : s.inbox = .write 4 0x04 w :: rest) :
    step s = .next (State.accept { s with inbox := rest } w) := by
  rw [step_write hr rfl (by decide) h]
  simp [State.hostWrite, windowReg, hb]

/-- Settles O52: the assertion leaves the reset values, the release is one step, and the CMD write after it
another, to an idle engine. -/
theorem resetClearsTheState : Obligations.ResetClearsTheState := by
  refine ⟨fun s rest hi => ⟨_, step_of_inbox_cons hi, rfl, rfl, List.forall_mem_cons.2
    ⟨?_, List.forall_mem_singleton.2 ?_⟩⟩, fun s rest hi => step_of_inbox_cons hi,
    fun s w rest hb hi => ?_⟩
  · exact ⟨rfl, rfl, rfl, rfl, rfl, rfl, bufByte_assertReset _, isWritten_assertReset _⟩
  · exact ⟨rfl, rfl, rfl, rfl, rfl, rfl, bufByte_reset, isWritten_reset⟩
  · have hrelease := step_of_inbox_cons hi
    have haccept := step_cmdWrite_of_idle (s := { s with inbox := .write 4 0x04 w :: rest, inReset := false })
      rfl hb rfl
    exact (run_next hrelease 1).trans ((run_next haccept 0).trans (run_zero _))

end Sys2Proof.Machine
end

section
/-! SUPPORT. The windowed datapath and the decoder give points of E: every triple of R114 to R118 is valid
when the base point is on E, and a point the decoder accepts satisfies the curve equation (R122). -/

namespace Sys2Proof.Machine

/-- What `f` keeps, its iterates keep. -/
theorem applyTimes_keeps {α : Type} {P : α → Prop} {f : α → α} (h : ∀ x, P x → P (f x)) :
    ∀ k x, P x → P (applyTimes f k x)
  | 0, _, hx => hx
  | k + 1, x, hx => applyTimes_keeps h k (f x) (h x hx)

/-- The linear-scan lookup gives an entry of the table, or what the accumulator starts as. -/
theorem tableLookup_keeps {α : Type} {P : α → Prop} {zero : α} {table : List α} (h0 : P zero)
    (h : ∀ e ∈ table, P e) (m : Nat) : P (tableLookup zero table m) := by
  refine List.foldlRecOn _ _ h0 fun acc hacc e he => ?_
  split
  · exact h _ (List.fst_mem_of_mem_zipIdx he)
  · exact hacc

theorem neg_ofNat {x y : Nat} (hx : x < primeP) (hy : y < primeP) :
    (Point.ofNat x y).neg = Point.ofNat x (negMod primeP y) := by
  unfold Point.neg
  simp only [Point.ofNat, toNat_ofNat_lt hx, toNat_ofNat_lt hy]

theorem infinity_valid : Jac.infinity.Valid := by decide

/-- Negating a triple of a point of E gives a triple of the opposite point. -/
theorem neg_toPoint {t : Jac} (h : t.Valid) : t.neg.toPoint = t.toPoint.neg := by
  have := primeP_fact
  by_cases hz : t.z = 0
  · rw [toPoint_of_z_zero hz, toPoint_of_z_zero (t := t.neg) hz]; rfl
  obtain ⟨x, y, ht, -⟩ := valid_scales h hz
  have hn : t.neg.Scales x (negMod primeP y) := ⟨ht.x_lt, negMod_lt primeP_pos y, ht.z_ne, ht.x_eq, by
    simp only [Jac.neg, cast_negP, ht.y_eq, neg_mul]⟩
  rw [scales_toPoint ht, scales_toPoint hn, neg_ofNat ht.x_lt ht.y_lt]

theorem neg_valid {t : Jac} (h : t.Valid) : t.neg.Valid := by
  have := primeP_fact
  refine ⟨h.1, negMod_lt primeP_pos _, h.2.2.1, ?_⟩
  rw [neg_toPoint h]
  exact (neg_spec h.2.2.2).1

theorem doubleTimes_valid (k : Nat) {t : Jac} (h : t.Valid) : (Jac.doubleTimes k t).Valid :=
  applyTimes_keeps (P := Jac.Valid) (fun _ => double_valid) k t h

theorem getD_valid {l : List Jac} (h : ∀ t ∈ l, t.Valid) (i : Nat) : (l.getD i Jac.infinity).Valid := by
  rw [List.getD_eq_getElem?_getD]
  cases hi : l[i]? with
  | none => exact infinity_valid
  | some t => exact h t (List.mem_of_getElem? hi)

theorem varTableRows_valid {b : Jac} (hb : b.Valid) : ∀ i, ∀ t ∈ varTableRows b i, t.Valid
  | 0, t, ht => by rwa [List.mem_singleton.1 ht]
  | i + 1, t, ht => by
    have ih := varTableRows_valid hb i
    rcases List.mem_append.1 ht with ht | ht
    · exact ih t ht
    rw [List.mem_singleton.1 ht]
    split
    · exact double_valid (getD_valid ih _)
    · exact completeAdd_valid (getD_valid ih _) hb

theorem lookupSigned_valid {table : List Jac} (h : ∀ t ∈ table, t.Valid) (v : Nat) :
    (lookupSigned table v).Valid := by
  have he := tableLookup_keeps infinity_valid h (boothW6 v).1
  unfold lookupSigned
  dsimp only
  split
  · exact neg_valid he
  · exact he

theorem varMultLoop_valid {table : List Jac} (h : ∀ t ∈ table, t.Valid) (k : Nat) :
    ∀ (j : Nat) {acc : Jac}, acc.Valid → (varMultLoop table k j acc).Valid
  | 0, _, ha => ha
  | j + 1, _, ha => varMultLoop_valid h k j
      (completeAdd_valid (doubleTimes_valid 6 ha) (lookupSigned_valid h _))

/-- PMUL's algorithm gives a triple of a point of E from a base point of E (R117). -/
theorem varMult_valid {b : Jac} (hb : b.Valid) (k : Nat) : (varMult b k).Valid :=
  varMultLoop_valid (varTableRows_valid hb 31) k 43 infinity_valid

theorem gtBase_onCurve : ∀ j, (gtBase j).onCurve = true
  | 0 => generator_onCurve
  | j + 1 => (doubleTimes_valid 6 (ofPoint_spec (gtBase_onCurve j)).1).2.2.2

theorem gtTable_onCurve (j : Nat) : ∀ q ∈ gtTable j, q.onCurve = true := by
  intro q hq
  obtain ⟨t, ht, rfl⟩ := List.mem_map.1 hq
  exact (varTableRows_valid (ofPoint_spec (gtBase_onCurve j)).1 31 t ht).2.2.2

theorem gtLookupSigned_onCurve (j v : Nat) : (gtLookupSigned j v).onCurve = true := by
  have := primeP_fact
  have he := tableLookup_keeps (P := fun q : Point => q.onCurve = true) (zero := .infinity) rfl
    (gtTable_onCurve j) (boothW6 v).1
  unfold gtLookupSigned
  dsimp only
  split
  · exact (neg_spec he).1
  · exact he

theorem baseMultLoop_valid (k : Nat) : ∀ j, (baseMultLoop k j).Valid
  | 0 => (ofPoint_spec (gtLookupSigned_onCurve 0 _)).1
  | j + 1 => (completeMixedAdd_spec (baseMultLoop_valid k j) (gtLookupSigned_onCurve (j + 1) _)).1

/-- PBMUL's algorithm gives a triple of a point of E (R118). -/
theorem baseMult_valid (k : Nat) : (baseMult k).Valid := baseMultLoop_valid k 42

/-- The decoder's test of the curve equation (R122). -/
theorem onCurve_of_subMod {x y : Nat} (hx : x < primeP) (hy : y < primeP)
    (h : subMod primeP (y * y) (curveRhs x) = 0) : (Point.ofNat x y).onCurve = true := by
  have := primeP_fact
  rw [ofNat_onCurve_iff hx hy]
  refine eq_of_cast_eq (mulMod_lt primeP_pos _ _) (curveRhs_lt x) (sub_eq_zero.1 ?_)
  rw [cast_mulMod, ← Nat.cast_mul, ← cast_subP, h, Nat.cast_zero]

theorem rootOfParity_onCurve {x r : Nat} (hx : x < primeP) (hr : r < primeP)
    (h : (Point.ofNat x r).onCurve = true) (tag : Byte) :
    (Point.ofNat x (rootOfParity r tag)).onCurve = true := by
  have := primeP_fact
  unfold rootOfParity
  split
  · exact h
  · rw [← neg_ofNat hx hr]
    exact (neg_spec h).1

/-- A point the decoder accepts is on E. -/
theorem decodePoint_onCurve {s : State} {q : Point} (h : s.decodePoint = .ok q) :
    q.onCurve = true := by
  unfold State.decodePoint at h
  dsimp only at h
  split at h
  · cases h; rfl
  split at h
  · split at h
    · cases h
    next hxy =>
    split at h
    · cases h
    next hc =>
    cases h
    exact onCurve_of_subMod (by omega) (by omega) (not_not.1 hc)
  split at h
  · split at h
    · cases h
    next hx =>
    split at h
    · cases h
    next hc =>
    cases h
    have hr : sqrtCandidate (curveRhs (s.bufNat 1)) < primeP := powMod_lt primeP_pos _ _
    exact rootOfParity_onCurve (by omega) hr (onCurve_of_subMod (by omega) hr (not_not.1 hc)) _
  · cases h

end Sys2Proof.Machine
end

section
/-! SUPPORT. What a command writes, said once as an inductive relation: every value it writes is in the range
of its register file, and what is written keeps the invariants (spec/10_state.md R21 to R23, R28). -/

namespace Sys2Proof.Machine

/-- The states a command can reach from `s` by its data writes: an F value below p, an N value below n and a
point of E, where the registers read are such, C, and at most 65 bytes from BUF[0] on. -/
inductive State.Writes (s : State) : State → Prop
  | none : s.Writes s
  | setF (rd : Reg) (v : Nat) (h : s.FBelow → v < primeP) : s.Writes (s.setF rd v)
  | setN (rd : Reg) (v : Nat) (h : s.NBelow → v < orderN) : s.Writes (s.setN rd v)
  | setP (rd : Reg) (q : Point) (h : s.POnCurve → q.onCurve = true) : s.Writes (s.setP rd q)
  | setC {u : State} (h : s.Writes u) (b : Bool) : s.Writes (u.setC b)
  | output (bytes : List Byte) (h : bytes.length ≤ 65) : s.Writes (s.output bytes)

/-- An outcome that records an unwritten source, or writes data and completes with a code of the table. -/
def State.Ends (s : State) (o : Host.Outcome State Fault Refusal) : Prop :=
  (∃ r, o = .next (s.recordUninit r)) ∨
  ∃ (u : State) (code : BitVec 4), s.Writes u ∧ code.toNat ≤ 6 ∧ o = .next (u.complete code)

variable {s : State}

theorem ends_succeed {u : State} (h : s.Writes u) : s.Ends u.succeed :=
  .inr ⟨u, 0, h, by decide, rfl⟩

theorem ends_raise (e : ErrKind) : s.Ends (s.raise e) :=
  .inr ⟨s, e.code, .none, by cases e <;> decide, rfl⟩

theorem ends_reading {rs : List RegName} {rest : Host.Outcome State Fault Refusal} (h : s.Ends rest) :
    s.Ends (s.reading rs rest) := by
  rcases reading_cases s rs rest with ⟨-, e⟩ | ⟨r, -, -, -, e⟩
  · rwa [e]
  · exact .inl ⟨r, e⟩

theorem ends_setF {rd : Reg} {v : Nat} (h : s.FBelow → v < primeP) : s.Ends (s.setF rd v).succeed :=
  ends_succeed (.setF rd v h)

theorem ends_setN {rd : Reg} {v : Nat} (h : s.NBelow → v < orderN) : s.Ends (s.setN rd v).succeed :=
  ends_succeed (.setN rd v h)

theorem ends_setP {rd : Reg} {q : Point} (h : s.POnCurve → q.onCurve = true) :
    s.Ends (s.setP rd q).succeed :=
  ends_succeed (.setP rd q h)

theorem ends_setC (b : Bool) : s.Ends (s.setC b).succeed := ends_succeed (.setC .none b)

theorem ends_output {bytes : List Byte} (h : bytes.length ≤ 65) : s.Ends (s.output bytes).succeed :=
  ends_succeed (.output bytes h)

theorem selectBy_keeps {α : Type} {P : α → Prop} {a b : α} (ha : P a) (hb : P b) (c : Bool) :
    P (selectBy c a b) := by
  cases c
  · exact hb
  · exact ha

theorem negateIf_lt {v : Nat} (h : v < primeP) (c : Bool) : negateIf c v < primeP := by
  cases c
  · exact h
  · exact negMod_lt primeP_pos v

theorem negIf_onCurve {q : Point} (h : q.onCurve = true) (c : Bool) : (Point.negIf c q).onCurve = true := by
  have := primeP_fact
  cases c
  · exact h
  · exact (neg_spec h).1

theorem montSqrP_lt (k : Nat) {v : Nat} (h : v < primeP) : montSqrP k v < primeP :=
  applyTimes_keeps (P := (· < primeP)) (fun _ _ => montMulP_lt _ _) k v h

theorem montSqrN_lt (k : Nat) {v : Nat} (h : v < orderN) : montSqrN k v < orderN :=
  applyTimes_keeps (P := (· < orderN)) (fun _ _ => montMulN_lt _ _) k v h

theorem fConst_lt (k : Nat) : fConst k < primeP := by
  unfold fConst
  split <;> decide

theorem nConst_lt (k : Nat) : nConst k < orderN := by
  unfold nConst
  split <;> decide

theorem add_onCurve {a b : Point} (ha : a.onCurve = true) (hb : b.onCurve = true) :
    (a.add b).onCurve = true :=
  have := primeP_fact
  (add_spec ha hb).1

theorem be32_length_le (v : Nat) : (be32 v).length ≤ 65 := by simp

theorem uncompressed_length_le (q : Point) : q.uncompressed.length ≤ 65 := by
  cases q <;> simp [Point.uncompressed, Point.coords]

theorem compressed_length_le (q : Point) : q.compressed.length ≤ 65 := by
  cases q <;> simp [Point.compressed, Point.coords]

theorem execCset_ends (k : BitVec 8) : s.Ends (execCset k s) := by
  unfold execCset
  split
  · exact ends_reading (ends_setC _)
  · exact ends_raise _

theorem execFsqr_ends (rd ra : Reg) (k : BitVec 8) : s.Ends (execFsqr rd ra k s) := by
  unfold execFsqr
  split
  · exact ends_raise _
  · exact ends_reading (ends_setF fun h => montSqrP_lt _ (h ra))

theorem execNsqr_ends (rd ra : Reg) (k : BitVec 8) : s.Ends (execNsqr rd ra k s) := by
  unfold execNsqr
  split
  · exact ends_raise _
  · exact ends_reading (ends_setN fun h => montSqrN_lt _ (h ra))

theorem execFldc_ends (rd : Reg) (k : BitVec 8) : s.Ends (execFldc rd k s) := by
  unfold execFldc
  split
  · exact ends_setF fun _ => fConst_lt _
  · exact ends_raise _

theorem execNldc_ends (rd : Reg) (k : BitVec 8) : s.Ends (execNldc rd k s) := by
  unfold execNldc
  split
  · exact ends_setN fun _ => nConst_lt _
  · exact ends_raise _

theorem execFld_ends (rd : Reg) : s.Ends (execFld rd s) := by
  unfold execFld
  split
  · exact ends_raise _
  split
  · next h => exact ends_setF fun _ => h
  · exact ends_raise _

theorem execFltp_ends : s.Ends (execFltp s) := by
  unfold execFltp
  split
  · exact ends_raise _
  · exact ends_setC _

theorem execNld_ends (rd : Reg) : s.Ends (execNld rd s) := by
  unfold execNld
  split
  · exact ends_raise _
  · exact ends_setN fun _ => montN_lt _

theorem execPdec_ends (rd : Reg) : s.Ends (execPdec rd s) := by
  unfold execPdec
  split
  · next h => exact ends_setP fun _ => decodePoint_onCurve h
  · exact ends_raise _

theorem execPencx_ends (ra : Reg) : s.Ends (execPencx ra s) := by
  refine ends_reading ?_
  split
  · exact ends_raise _
  · exact ends_output (be32_length_le _)

/-- Everything a command can write, of every command. -/
theorem exec_ends (i : Instr) : s.Ends (exec i s) := by
  cases i with
  | cset k => exact execCset_ends k
  | fsqr rd ra k => exact execFsqr_ends rd ra k
  | nsqr rd ra k => exact execNsqr_ends rd ra k
  | fldc rd k => exact execFldc_ends rd k
  | nldc rd k => exact execNldc_ends rd k
  | fld rd => exact execFld_ends rd
  | fltp => exact execFltp_ends
  | nld rd => exact execNld_ends rd
  | pdec rd => exact execPdec_ends rd
  | pencx ra => exact execPencx_ends ra
  | nop => exact ends_succeed .none
  | feq | pisinf => exact ends_reading (ends_setC _)
  | fadd => exact ends_reading (ends_setF fun _ => addMod_lt primeP_pos _ _)
  | fsub => exact ends_reading (ends_setF fun _ => subMod_lt primeP_pos _ _)
  | fmul | ftom | ffromm => exact ends_reading (ends_setF fun _ => montMulP_lt _ _)
  | finv => exact ends_reading (ends_setF fun _ => montP_lt _)
  | fsqrt rd => exact ends_reading (ends_succeed (.setC (.setF rd _ fun _ => montP_lt _) _))
  | fnegc rd ra => exact ends_reading (ends_setF fun h => negateIf_lt (h ra) _)
  | fsel rd ra rb =>
    exact ends_reading (ends_setF fun h => selectBy_keeps (P := (· < primeP)) (h ra) (h rb) _)
  | fmov rd ra => exact ends_reading (ends_setF fun h => h ra)
  | nadd | impsig => exact ends_reading (ends_setN fun _ => addMod_lt orderN_pos _ _)
  | nsub => exact ends_reading (ends_setN fun _ => subMod_lt orderN_pos _ _)
  | nmul => exact ends_reading (ends_setN fun _ => montMulN_lt _ _)
  | ninv => exact ends_reading (ends_setN fun _ => montN_lt _)
  | nmov rd ra => exact ends_reading (ends_setN fun h => h ra)
  | fst | nst => exact ends_reading (ends_output (be32_length_le _))
  | penc => exact ends_reading (ends_output (uncompressed_length_le _))
  | pencc => exact ends_reading (ends_output (compressed_length_le _))
  | pinf => exact ends_setP fun _ => rfl
  | pgen => exact ends_setP fun _ => generator_onCurve
  | pmov rd ra => exact ends_reading (ends_setP fun h => h ra)
  | pdbl rd ra => exact ends_reading (ends_setP fun h => add_onCurve (h ra) (h ra))
  | padd rd ra rb =>
    exact ends_reading (ends_succeed (.setC (.setP rd _ fun h => add_onCurve (h ra) (h rb)) _))
  | pnegc rd ra => exact ends_reading (ends_setP fun h => negIf_onCurve (h ra) _)
  | psel rd ra rb =>
    exact ends_reading (ends_setP fun h =>
      selectBy_keeps (P := fun q => Point.onCurve q = true) (h ra) (h rb) _)
  | pmul rd ra =>
    exact ends_reading (ends_setP fun h => (varMult_valid (ofPoint_spec (h ra)).1 _).2.2.2)
  | pbmul => exact ends_reading (ends_setP fun _ => (baseMult_valid _).2.2.2)

variable {u : State} (h : s.Writes u)

include h

theorem writes_fBelow (hs : s.FBelow) : u.FBelow := by
  induction h with
  | setF rd v hv =>
    intro i
    rw [fReg_setF]
    split
    · exact (Nat.mod_le _ _).trans_lt (hv hs)
    · exact hs i
  | setC _ _ ih => exact ih
  | _ => exact hs

theorem writes_nBelow (hs : s.NBelow) : u.NBelow := by
  induction h with
  | setN rd v hv =>
    intro i
    rw [nReg_setN]
    split
    · exact (Nat.mod_le _ _).trans_lt (hv hs)
    · exact hs i
  | setC _ _ ih => exact ih
  | _ => exact hs

theorem writes_pOnCurve (hs : s.POnCurve) : u.POnCurve := by
  induction h with
  | setP rd q hq =>
    intro i
    rw [pReg_setP]
    split
    · exact hq hs
    · exact hs i
  | setC _ _ ih => exact ih
  | _ => exact hs

theorem writes_bufferOk (hs : s.BufferOk) : u.BufferOk := by
  induction h with
  | output bytes hb => exact ⟨memory_putBytes_wf bytes 0 hs.1, hb⟩
  | setC _ _ ih => exact ih
  | _ => exact hs

theorem writes_inReset : u.inReset = s.inReset := by
  induction h with
  | setC _ _ ih => exact ih
  | _ => rfl

end Sys2Proof.Machine
end

section
/-! SUPPORT. What one step can do, said once as an inductive relation, and the invariants of the state
(spec/10_state.md R21 to R23, R28, R29) by its cases. -/

namespace Sys2Proof.Machine

/-- What one step can do to the state `u` that is left when its event is taken off. -/
inductive State.Moves (u : State) : State → Prop
  | idle (hb : u.busy = false) : u.Moves u
  | command {i : Instr} {t : State} (hb : u.busy = true) (h : exec i u = .next t) : u.Moves t
  | illegal (hb : u.busy = true) : u.Moves (u.complete 6)
  | read (off : Nat) (hr : u.inReset = false) : u.Moves ((u.hostRead off).2.reply (u.hostRead off).1)
  | write (off : Nat) (w : Word) (hr : u.inReset = false) : u.Moves (u.hostWrite off w)
  | assertReset : u.Moves u.assertReset
  | releaseReset : u.Moves u.releaseReset

theorem engineStep_moves {u t : State} (h : u.engineStep = .next t) : u.Moves t := by
  by_cases hb : u.busy = true
  · cases hd : decode u.cmdl with
    | ok i => exact .command hb (engineStep_of_legal hb hd ▸ h)
    | error e => cases (engineStep_of_illegal hb hd).symm.trans h; exact .illegal hb
  · have hb := Bool.eq_false_iff.2 hb
    cases (engineStep_of_idle hb).symm.trans h
    exact .idle hb

/-- An access that the port carries has its effect, and reset is released. -/
theorem onPort_next {s t u : State} {width off : Nat} (h : s.onPort width off t = .next u) :
    u = t ∧ s.inReset = false := by
  unfold State.onPort at h
  cases hp : s.portRefusal width off with
  | some r => rw [hp] at h; cases h
  | none =>
    rw [hp] at h
    cases h
    exact ⟨rfl, ((portRefusal_eq_none_iff s width off).1 hp).1⟩

theorem hostEvent_moves {u t : State} {ev : HostEvent} (h : u.hostEvent ev = .next t) : u.Moves t := by
  cases ev with
  | wait => exact engineStep_moves h
  | read width off =>
    obtain ⟨rfl, hr⟩ := onPort_next h
    exact .read off hr
  | write width off w =>
    obtain ⟨rfl, hr⟩ := onPort_next h
    exact .write off w hr
  | assertReset => cases h; exact .assertReset
  | releaseReset => cases h; exact .releaseReset

/-- Everything a step can do. -/
theorem step_moves {s t : State} (h : step s = .next t) :
    ∃ rest, State.Moves { s with inbox := rest } t := by
  cases hi : s.inbox with
  | nil => exact ⟨s.inbox, engineStep_moves (step_of_inbox_nil hi ▸ h)⟩
  | cons ev rest => exact ⟨rest, hostEvent_moves (step_of_inbox_cons hi ▸ h)⟩

/-- Two states with the same register files. -/
structure State.SameFiles (s t : State) : Prop where
  f : t.f = s.f
  n : t.n = s.n
  p : t.p = s.p

variable {s : State}

theorem sameFiles_rfl : s.SameFiles s := ⟨rfl, rfl, rfl⟩

theorem hostRead_reply_sameFiles (off : Nat) : s.SameFiles ((s.hostRead off).2.reply (s.hostRead off).1) := by
  rcases hostRead_state s off with e | e <;> rw [e] <;> exact ⟨rfl, rfl, rfl⟩

theorem writeStatus_sameFiles (w : Word) : s.SameFiles (s.writeStatus w) := by
  rcases writeStatus_cases s w with e | e | e | e <;> rw [e] <;> exact ⟨rfl, rfl, rfl⟩

theorem hostWrite_sameFiles (off : Nat) (w : Word) : s.SameFiles (s.hostWrite off w) := by
  rcases hostWrite_cases s off w with e | ⟨-, e⟩ | ⟨-, e⟩ | e | ⟨-, -, e⟩ | ⟨-, i, e⟩ <;> rw [e]
  · exact sameFiles_rfl
  · exact ⟨rfl, rfl, rfl⟩
  · exact ⟨rfl, rfl, rfl⟩
  · exact writeStatus_sameFiles w
  · exact ⟨rfl, rfl, rfl⟩
  · exact ⟨rfl, rfl, rfl⟩

/-- What a step leaves the register files as: a command's writes, the reset values, or what they were. -/
theorem moves_files {u t : State} (h : u.Moves t) :
    (∃ v, u.Writes v ∧ v.SameFiles t) ∨ State.reset.SameFiles t := by
  cases h with
  | idle _ => exact .inl ⟨u, .none, sameFiles_rfl⟩
  | @command i t hb h =>
    rcases exec_ends (s := u) i with ⟨r, e⟩ | ⟨v, code, hv, -, e⟩
    · cases e.symm.trans h
      exact .inl ⟨u, .none, ⟨rfl, rfl, rfl⟩⟩
    · cases e.symm.trans h
      exact .inl ⟨v, hv, ⟨rfl, rfl, rfl⟩⟩
  | illegal hb => exact .inl ⟨u, .none, ⟨rfl, rfl, rfl⟩⟩
  | read off hr => exact .inl ⟨u, .none, hostRead_reply_sameFiles off⟩
  | write off w hr => exact .inl ⟨u, .none, hostWrite_sameFiles off w⟩
  | assertReset => exact .inr ⟨rfl, rfl, rfl⟩
  | releaseReset => exact .inl ⟨u, .none, ⟨rfl, rfl, rfl⟩⟩

theorem sameFiles_fBelow {t : State} (h : s.SameFiles t) (hs : s.FBelow) : t.FBelow :=
  fun i => fReg_congr h.f i ▸ hs i

theorem sameFiles_nBelow {t : State} (h : s.SameFiles t) (hs : s.NBelow) : t.NBelow :=
  fun i => nReg_congr h.n i ▸ hs i

theorem sameFiles_pOnCurve {t : State} (h : s.SameFiles t) (hs : s.POnCurve) : t.POnCurve :=
  fun i => pReg_congr h.p i ▸ hs i

theorem reset_fBelow : State.reset.FBelow := by decide

theorem reset_nBelow : State.reset.NBelow := by decide

theorem reset_pOnCurve : State.reset.POnCurve := by decide

/-- With reset released, the status bits alone decide whether they are legal. -/
theorem statusOk_of_released (hr : s.inReset = false) (hb : s.busy = true → s.done = false)
    (hd : s.done = false → s.err = 0) (he : s.err.toNat ≤ 6) : s.StatusOk :=
  ⟨hb, hd, he, fun h => Bool.noConfusion (hr.symm.trans h)⟩

/-- No command runs while reset is asserted. -/
theorem inReset_of_busy (hs : s.StatusOk) (hb : s.busy = true) : s.inReset = false := by
  obtain ⟨-, -, -, hr⟩ := hs
  cases h : s.inReset with
  | false => rfl
  | true => cases hb.symm.trans (hr h).1

theorem complete_statusOk {code : BitVec 4} (hc : code.toNat ≤ 6) (hr : s.inReset = false) :
    (s.complete code).StatusOk :=
  statusOk_of_released hr nofun nofun hc

theorem acknowledge_statusOk (hr : s.inReset = false) : s.acknowledge.StatusOk :=
  statusOk_of_released hr (fun _ => rfl) (fun _ => rfl) (Nat.zero_le 6)

theorem accept_statusOk (hr : s.inReset = false) (w : Word) : (s.accept w).StatusOk :=
  statusOk_of_released hr (fun _ => rfl) (fun _ => rfl) (Nat.zero_le 6)

theorem clearOvr_statusOk (hr : s.inReset = false) (hs : s.StatusOk) : s.clearOvr.StatusOk :=
  statusOk_of_released hr hs.1 hs.2.1 hs.2.2.1

theorem writeStatus_statusOk (hr : s.inReset = false) (hs : s.StatusOk) (w : Word) :
    (s.writeStatus w).StatusOk := by
  rcases writeStatus_cases s w with e | e | e | e <;> rw [e]
  · exact hs
  · exact acknowledge_statusOk hr
  · exact clearOvr_statusOk hr hs
  · exact clearOvr_statusOk (s := s.acknowledge) hr (acknowledge_statusOk hr)

theorem hostWrite_statusOk (hr : s.inReset = false) (hs : s.StatusOk) (off : Nat) (w : Word) :
    (s.hostWrite off w).StatusOk := by
  rcases hostWrite_cases s off w with e | ⟨-, e⟩ | ⟨-, e⟩ | e | ⟨-, -, e⟩ | ⟨-, i, e⟩ <;> rw [e]
  · exact hs
  · exact statusOk_of_released hr hs.1 hs.2.1 hs.2.2.1
  · exact accept_statusOk hr w
  · exact writeStatus_statusOk hr hs w
  · exact statusOk_of_released hr hs.1 hs.2.1 hs.2.2.1
  · exact statusOk_of_released hr hs.1 hs.2.1 hs.2.2.1

theorem hostWrite_bufferOk (hs : s.BufferOk) (off : Nat) (w : Word) : (s.hostWrite off w).BufferOk := by
  rcases hostWrite_cases s off w with e | ⟨-, e⟩ | ⟨-, e⟩ | e | ⟨-, hw, e⟩ | ⟨-, i, e⟩ <;> rw [e]
  · exact hs
  · exact hs
  · exact hs
  · rcases writeStatus_cases s w with e | e | e | e <;> rw [e] <;> exact hs
  · exact ⟨hs.1, hw⟩
  · exact ⟨memory_putBytes_wf _ _ hs.1, hs.2⟩

/-- Every step keeps BUF, BUFLEN and the status bits legal. -/
theorem moves_bufferOk_statusOk {u t : State} (h : u.Moves t) (hb : u.BufferOk) (hs : u.StatusOk) :
    t.BufferOk ∧ t.StatusOk := by
  cases h with
  | idle _ => exact ⟨hb, hs⟩
  | @command i t hbusy h =>
    rcases exec_ends (s := u) i with ⟨r, e⟩ | ⟨v, code, hv, hc, e⟩
    · cases e.symm.trans h
      exact ⟨hb, hs⟩
    · cases e.symm.trans h
      have hvb := writes_bufferOk hv hb
      exact ⟨hvb, complete_statusOk hc ((writes_inReset hv).trans (inReset_of_busy hs hbusy))⟩
  | illegal hbusy => exact ⟨hb, complete_statusOk (by decide) (inReset_of_busy hs hbusy)⟩
  | read off hr => rcases hostRead_state u off with e | e <;> rw [e] <;> exact ⟨hb, hs⟩
  | write off w hr => exact ⟨hostWrite_bufferOk hb off w, hostWrite_statusOk hr hs off w⟩
  | assertReset =>
    exact ⟨⟨memory_wf_nil, Nat.zero_le _⟩, nofun, fun _ => rfl, Nat.zero_le _,
      fun _ => ⟨rfl, rfl, rfl, rfl, rfl, rfl⟩⟩
  | releaseReset =>
    obtain ⟨hbd, hde, he, -⟩ := hs
    exact ⟨hb, statusOk_of_released rfl hbd hde he⟩

/-- Settles O53: the registers by what a step leaves the files as, the rest by the cases of a step. -/
theorem stepKeepsRegisterAndStatusRanges : Obligations.StepKeepsRegisterAndStatusRanges := by
  intro s t hf hn hb hs h
  obtain ⟨rest, hm⟩ := step_moves h
  refine ⟨?_, ?_, moves_bufferOk_statusOk hm hb hs⟩
  · rcases moves_files hm with ⟨v, hv, hvt⟩ | hrt
    · exact sameFiles_fBelow hvt (writes_fBelow hv hf)
    · exact sameFiles_fBelow hrt reset_fBelow
  · rcases moves_files hm with ⟨v, hv, hvt⟩ | hrt
    · exact sameFiles_nBelow hvt (writes_nBelow hv hn)
    · exact sameFiles_nBelow hrt reset_nBelow

/-- Settles O54: what a command writes to a P register is a point of E, by the group law, the windowed
datapath and the decoder; every other step leaves the P registers or resets them to ∞. -/
theorem stepKeepsPointsOnTheCurve : Obligations.StepKeepsPointsOnTheCurve := by
  intro s t hp h
  obtain ⟨rest, hm⟩ := step_moves h
  rcases moves_files hm with ⟨v, hv, hvt⟩ | hrt
  · exact sameFiles_pOnCurve hvt (writes_pOnCurve hv hp)
  · exact sameFiles_pOnCurve hrt reset_pOnCurve

end Sys2Proof.Machine
end

section
/-! SUPPORT. The host window register by register: what a read of each offset returns and what a write does,
as equations, and the parts of the words read (spec/20_memory.md R37 to R53). -/

namespace Sys2Proof.Machine

variable (s : State)

theorem hostWrite_cmd (w : Word) : s.hostWrite 0x04 w = if s.busy then s.overrun else s.accept w := rfl

theorem hostWrite_status (w : Word) : s.hostWrite 0x08 w = s.writeStatus w := rfl

theorem hostWrite_bufLen (w : Word) : s.hostWrite 0x0C w =
    if s.busy then s.overrun else if w.toNat ≤ 65 then s.setBufLen w.toNat else s := rfl

theorem hostWrite_bufW {i : Nat} (h : i ≤ 16) (w : Word) : s.hostWrite (0x40 + 4 * i) w =
    if s.busy then s.overrun else s.memWrite (4 * i) (wordBytes w) := by
  rw [State.hostWrite, windowReg_bufW h]

theorem hostRead_status : s.hostRead 0x08 = s.readStatus := rfl

theorem hostRead_bufLen : s.hostRead 0x0C = s.readIdle (BitVec.ofNat 32 s.bufLen) := rfl

theorem hostRead_bufW {i : Nat} (h : i ≤ 16) : s.hostRead (0x40 + 4 * i) = s.readIdle (s.bufWord i) := by
  rw [State.hostRead, windowReg_bufW h]

/-- A write to ID or to a reserved offset is ignored (R39, R40). -/
theorem hostWrite_ignored {off : Nat} (h : off = 0 ∨ (0x10 ≤ off ∧ off ≤ 0x3C) ∨ 0x84 ≤ off) (w : Word) :
    s.hostWrite off w = s := by
  rcases h with rfl | h
  · rfl
  · rw [State.hostWrite, windowReg_reserved h]

theorem hostRead_reserved {off : Nat} (h : (0x10 ≤ off ∧ off ≤ 0x3C) ∨ 0x84 ≤ off) :
    s.hostRead off = (0, s) := by
  rw [State.hostRead, windowReg_reserved h]

/-- The word of a read that is answered only while idle (R48). -/
theorem readIdle_word (w : Word) : (s.readIdle w).1 = if s.busy then Config.freeWord s.draws else w := by
  unfold State.readIdle
  split <;> rfl

theorem readIdle_word_of_idle {s : State} (h : s.busy = false) (w : Word) : (s.readIdle w).1 = w := by
  rw [readIdle_word, h]
  rfl

/-- The word a read of STATUS returns: bit 2 is C, or a free bit (R44). -/
theorem readStatus_word : s.readStatus.1 =
    s.statusWord (if !s.busy && s.isWritten .c then s.cFlag else Config.freeBit s.draws) := by
  unfold State.readStatus
  split <;> rfl

/-- The word a read returns does not depend on the host's coming events. -/
theorem hostRead_word_inbox (rest : List HostEvent) (off : Nat) :
    (State.hostRead { s with inbox := rest } off).1 = (s.hostRead off).1 := by
  unfold State.hostRead
  cases windowReg off with
  | id | cmd | reserved => rfl
  | status => exact (readStatus_word _).trans (readStatus_word s).symm
  | bufLen | bufW => exact (readIdle_word _ _).trans (readIdle_word s _).symm

variable {s}

/-- The step of a host read: the word is the reply, and no field of the engine changes (R51, R52). -/
theorem step_read_reply {rest : List HostEvent} {off : Nat} (hr : s.inReset = false) (h4 : off % 4 = 0)
    (hl : off ≤ 0xFC) (h : s.inbox = .read 4 off :: rest) : ∃ d, step s =
      .next { s with inbox := rest, replies := (s.hostRead off).1 :: s.replies, draws := d } := by
  rw [step_read hr h4 hl h, hostRead_word_inbox]
  rcases hostRead_state { s with inbox := rest } off with e | e <;> rw [e]
  · exact ⟨s.draws, rfl⟩
  · exact ⟨s.draws + 1, rfl⟩

/-- A write of STATUS clears what its bits select (R44). -/
theorem writeStatus_eq (w : Word) : s.writeStatus w = { s with
    done := if w.getLsbD 1 then false else s.done
    err := if w.getLsbD 1 then 0 else s.err
    ovr := if w.getLsbD 3 then false else s.ovr } := by
  unfold State.writeStatus
  cases w.getLsbD 1 <;> cases w.getLsbD 3 <;> rfl

/-- A bit of a word from the number the word is made of. -/
theorem getLsbD_ofNat_of_div {v i : Nat} {b : Bool} (hi : i < 32) (h : v / 2 ^ i % 2 = b.toNat) :
    (BitVec.ofNat 32 v).getLsbD i = b := by
  rw [BitVec.getLsbD_ofNat, Nat.testBit_eq_decide_div_mod_eq, h]
  cases b <;> simp [hi]

/-- The fields of the STATUS word (R44). -/
theorem statusWord_fields (s : State) (c : Bool) :
    (s.statusWord c).getLsbD 0 = s.busy ∧ (s.statusWord c).getLsbD 1 = s.done ∧
    (s.statusWord c).getLsbD 2 = c ∧ (s.statusWord c).getLsbD 3 = s.ovr ∧
    (s.statusWord c).extractLsb' 4 4 = s.err ∧ (s.statusWord c).extractLsb' 8 24 = 0 := by
  have hb := s.busy.toNat_le
  have hd := s.done.toNat_le
  have hc := c.toNat_le
  have ho := s.ovr.toNat_le
  have he := s.err.isLt
  refine ⟨getLsbD_ofNat_of_div (by decide) (by omega), getLsbD_ofNat_of_div (by decide) (by omega),
    getLsbD_ofNat_of_div (by decide) (by omega), getLsbD_ofNat_of_div (by decide) (by omega),
    BitVec.eq_of_toNat_eq ?_, BitVec.eq_of_toNat_eq ?_⟩
  all_goals
    simp only [State.statusWord, BitVec.extractLsb'_toNat, BitVec.toNat_ofNat, Nat.shiftRight_eq_div_pow,
      BitVec.ofNat_eq_ofNat]
    omega

/-- Settles O47: the read by the fields of the STATUS word, the write by its equation. -/
theorem statusWord : Obligations.StatusWord := by
  refine fun s rest hr => ⟨fun h => ?_, fun w h => ?_⟩
  · obtain ⟨d, hd⟩ := step_read_reply hr rfl (by decide) h
    rw [hostRead_status, readStatus_word] at hd
    obtain ⟨h0, h1, h2, h3, h4, h8⟩ := statusWord_fields s _
    exact ⟨_, _, d, hd, h0, h1, h2, h3, h4, h8, fun hb hc => if_pos (by simp [hb, State.isWritten, hc])⟩
  · rw [step_write hr rfl (by decide) h, hostWrite_status, writeStatus_eq]

/-- A position beyond BUF[64] reads 0. -/
theorem bufByte_beyond {k : Nat} (h : 64 < k) : s.bufByte k = 0 := if_neg (by omega)

/-- The bytes of the word that four bytes make, the first the low one (R46). -/
theorem ofNat_bytes_byte (g : Nat → Byte) {k : Nat} (hk : k < 4) :
    (BitVec.ofNat 32 ((g 0).toNat + (g 1).toNat * 0x100 + (g 2).toNat * 0x10000
      + (g 3).toNat * 0x1000000)).extractLsb' (8 * k) 8 = g k := by
  have h0 := (g 0).isLt
  have h1 := (g 1).isLt
  have h2 := (g 2).isLt
  have h3 := (g 3).isLt
  have hk : k = 0 ∨ k = 1 ∨ k = 2 ∨ k = 3 := by omega
  apply BitVec.eq_of_toNat_eq
  rw [BitVec.extractLsb'_toNat, BitVec.toNat_ofNat, Nat.shiftRight_eq_div_pow]
  rcases hk with rfl | rfl | rfl | rfl <;> omega

/-- The bytes of a BUFW word (R46, R47). -/
theorem bufWord_byte (s : State) (i : Nat) {k : Nat} (hk : k < 4) :
    (s.bufWord i).extractLsb' (8 * k) 8 = s.bufByte (4 * i + k) :=
  ofNat_bytes_byte (fun j => s.bufByte (4 * i + j)) hk

/-- The bytes of a word written, the low one first (R46). -/
theorem wordBytes_getD (w : Word) {k : Nat} (hk : k < 4) :
    (wordBytes w).getD k 0 = w.extractLsb' (8 * k) 8 := by
  apply BitVec.eq_of_toNat_eq
  rw [BitVec.extractLsb'_toNat, Nat.shiftRight_eq_div_pow]
  interval_cases k <;> simp [wordBytes]

/-- What BUF[j] is after a BUFW word is written (R46). -/
theorem bufByte_memWrite_word (h : s.buf.wf = true) (i : Nat) (w : Word) (j : Nat) :
    (s.memWrite (4 * i) (wordBytes w)).bufByte j =
      if 4 * i ≤ j ∧ j ≤ 4 * i + 3 ∧ j ≤ 64 then w.extractLsb' (8 * (j - 4 * i)) 8 else s.bufByte j := by
  rw [bufByte_memWrite h]
  have hlen : (wordBytes w).length = 4 := rfl
  by_cases hj : 4 * i ≤ j ∧ j ≤ 4 * i + 3 ∧ j ≤ 64
  · rw [if_pos hj, if_pos (by omega), wordBytes_getD w (by omega)]
  · rw [if_neg hj, if_neg (by omega)]

/-- Settles O49: a write by the law of a read after a write, a read by the bytes of its word. -/
theorem bufferWordAccess : Obligations.BufferWordAccess := by
  intro s rest i hr hok hi
  have h4 : (0x40 + 4 * i) % 4 = 0 := by omega
  have hl : 0x40 + 4 * i ≤ 0xFC := by omega
  refine ⟨fun w h hb => ?_, fun w h hb => ?_, fun h => ?_⟩
  · refine ⟨Memory.putBytes s.buf (4 * i) (wordBytes w), ?_, memory_putBytes_wf _ _ hok.1,
      bufByte_memWrite_word hok.1 i w⟩
    rw [step_write hr h4 hl h, hostWrite_bufW _ hi, if_neg (by simp [hb])]
    rfl
  · rw [step_write hr h4 hl h, hostWrite_bufW _ hi, if_pos hb]
    rfl
  · obtain ⟨d, hd⟩ := step_read_reply hr h4 hl h
    refine ⟨_, d, hd, fun hb k hk => ?_⟩
    rw [hostRead_bufW s hi, readIdle_word_of_idle hb, bufWord_byte s i hk]
    split
    · rfl
    · exact bufByte_beyond (by omega)

/-- Settles O50: a read by the step that carries it, a write by the offsets that ignore it. -/
theorem readsHaveNoSideEffect : Obligations.ReadsHaveNoSideEffect := by
  refine fun s rest off hr h4 hl => ⟨fun h => ?_, fun w h hoff => ?_⟩
  · obtain ⟨d, hd⟩ := step_read_reply hr h4 hl h
    refine ⟨_, d, hd, ?_, fun hoff => by rw [hostRead_reserved s hoff]⟩
    rintro rfl
    rfl
  · rw [step_write hr h4 hl h, hostWrite_ignored _ hoff]

/-- Settles O46: acceptance by the step of a CMD write to an idle engine, the drop by the busy branch of the
write, the read by the step that carries it. -/
theorem commandWriteAcceptedOrDropped : Obligations.CommandWriteAcceptedOrDropped := by
  refine fun s rest hr => ⟨fun w h hb => step_cmdWrite_of_idle hr hb h, fun w h hb => ?_, fun h => ?_⟩
  · rw [step_write hr rfl (by decide) h, hostWrite_cmd, if_pos hb]
    rfl
  · exact step_read hr rfl (by decide) h

/-- Settles O48: the write by the branches of its equation, the read by the word that an idle engine
answers. -/
theorem bufLenAccess : Obligations.BufLenAccess := by
  refine fun s rest hr => ⟨fun w h => ?_, fun h => ?_⟩
  · rw [step_write hr rfl (by decide) h, hostWrite_bufLen]
    cases s.busy with
    | true => rfl
    | false => by_cases hw : w.toNat ≤ 65 <;> simp [hw, State.setBufLen]
  · obtain ⟨d, hd⟩ := step_read_reply hr rfl (by decide) h
    refine ⟨_, d, hd, fun hb hlen => ?_⟩
    rw [hostRead_bufLen, readIdle_word_of_idle hb, BitVec.toNat_ofNat]
    omega

/-- An access takes effect exactly when the port carries it (R38, R145). -/
theorem onPort_eq_next_iff (s : State) (width off : Nat) (t : State) :
    (∃ u, s.onPort width off t = .next u) ↔
      s.inReset = false ∧ width = 4 ∧ off % 4 = 0 ∧ off ≤ 0xFC := by
  rw [← portRefusal_eq_none_iff, State.onPort]
  cases s.portRefusal width off <;> simp

/-- An access is refused exactly when the port does not carry it (R38, R145). -/
theorem onPort_eq_refused_iff (s : State) (width off : Nat) (t : State) :
    (∃ r, s.onPort width off t = .refused r) ↔
      s.inReset = true ∨ width ≠ 4 ∨ off % 4 ≠ 0 ∨ 0xFC < off := by
  have h : (∃ r, s.onPort width off t = .refused r) ↔ ¬s.portRefusal width off = none := by
    rw [State.onPort]
    cases s.portRefusal width off <;> simp
  rw [h, portRefusal_eq_none_iff]
  simp only [not_and_or, Bool.not_eq_false, not_le, ne_eq]

/-- An access, read or write, reaches the port. -/
theorem exists_step_eq_onPort {rest : List HostEvent} {width off : Nat} {data : Word} {ev : HostEvent}
    (hev : ev ∈ [HostEvent.read width off, HostEvent.write width off data]) (h : s.inbox = ev :: rest) :
    ∃ t, step s = State.onPort { s with inbox := rest } width off t := by
  rw [step_of_inbox_cons h]
  rcases List.mem_pair.1 hev with rfl | rfl <;> exact ⟨_, rfl⟩

/-- Settles O51: every access reaches the port, which carries or refuses it. -/
theorem portRefusesOtherAccesses : Obligations.PortRefusesOtherAccesses := by
  intro s rest width off data ev hev h
  obtain ⟨t, ht⟩ := exists_step_eq_onPort hev h
  rw [ht]
  exact ⟨onPort_eq_refused_iff .., onPort_eq_next_iff ..⟩

theorem portOffset_of_window (base : EngineBase) {off : Nat} (h : off < 0x100) :
    portOffset base (base.address + off) = off := by
  rw [portOffset, windowOffset, if_pos (by omega)]
  exact Nat.add_sub_cancel_left ..

theorem portOffset_of_outside {base : EngineBase} {addr : Nat}
    (h : addr < base.address ∨ base.address + 0x100 ≤ addr) : portOffset base addr = 0x100 := by
  rw [portOffset, windowOffset, if_neg (by omega)]
  rfl

/-- A misaligned address is presented at a misaligned offset, or outside the window: ENGINE_BASE is a
multiple of 4 (R53). -/
theorem portOffset_not_carried {base : EngineBase} {addr : Nat}
    (h : addr < base.address ∨ base.address + 0x100 ≤ addr ∨ addr % 4 ≠ 0) :
    portOffset base addr % 4 ≠ 0 ∨ 0xFC < portOffset base addr := by
  by_cases ho : addr < base.address ∨ base.address + 0x100 ≤ addr
  · rw [portOffset_of_outside ho]
    exact .inr (by decide)
  · obtain ⟨off, rfl⟩ := Nat.exists_eq_add_of_le (show base.address ≤ addr by omega)
    rw [portOffset_of_window base (by omega)]
    have hbase : base.address % 4 = 0 := by unfold EngineBase.address; omega
    omega

/-- Settles O60: an address of the window is presented at its distance from the base, any other address, and
a misaligned one, at an offset the port refuses. -/
theorem windowLiesAtEngineBase : Obligations.WindowLiesAtEngineBase := by
  refine ⟨fun a => ⟨?_, fun h => ⟨⟨a / 0x100⟩, Nat.mul_div_cancel' (Nat.dvd_of_mod_eq_zero h)⟩⟩,
    fun base s width addr data hi => ⟨?_, fun h ev hev => ?_⟩⟩
  · rintro ⟨base, rfl⟩
    exact Nat.mul_mod_right ..
  · rintro off hoff rfl
    simp [State.presentAt, busToPort, portOffset_of_window base hoff]
  · have hmem : busToPort base ev ∈ [HostEvent.read width (portOffset base addr),
        HostEvent.write width (portOffset base addr) data] := by
      simpa [busToPort] using List.mem_map_of_mem (f := busToPort base) hev
    have hinbox : (s.presentAt base [ev]).inbox = [busToPort base ev] := by
      simp [State.presentAt, State.present, hi]
    obtain ⟨t, ht⟩ := exists_step_eq_onPort hmem hinbox
    rw [ht]
    exact (onPort_eq_refused_iff ..).2 (.inr (.inr (portOffset_not_carried h)))

end Sys2Proof.Machine
end

section
/-! SUPPORT. That every command completes, and that a run over carried events ends (spec/20_memory.md R54,
spec/60_exceptions.md R128, R132, spec/70_reset_and_hazards.md R152). -/

namespace Sys2Proof.Machine

/-- Settles O6: of the three things a command can do, the third needs an unwritten source. -/
theorem everyCommandCompletes : Obligations.EveryCommandCompletes := by
  intro i s hr
  rcases exec_cases (s := s) i with ⟨-, he⟩ | ⟨-, -, u, code, -, hc, he⟩ | ⟨-, hn, -⟩
  · exact ⟨s.complete 6, 6, he, ⟨rfl, rfl, rfl⟩, by decide⟩
  · exact ⟨u.complete code, code, he, ⟨rfl, rfl, rfl⟩, by omega⟩
  · exact absurd hr hn

variable {s : State}

/-- Recording a read writes no register. -/
theorem isWritten_recordUninit (s : State) (r r' : RegName) :
    (s.recordUninit r).isWritten r' = s.isWritten r' := by
  cases r' <;> rfl

/-- The latched word is of a legal command that reads an unwritten register or flag. -/
def State.Stuck (s : State) : Prop := ∃ i, decode s.cmdl = .ok i ∧ ¬s.Ready i

/-- What the engine's step does to the host's side, and when it leaves BUSY set: it completes the latched
command, or finds a source unwritten (R43, R132, R133). -/
theorem engineStep_finishes (s : State) : ∃ t, s.engineStep = .next t ∧ t.inbox = s.inbox ∧
    t.inReset = s.inReset ∧ (t.busy = true → t.Stuck) := by
  by_cases hb : s.busy = true
  · cases hd : decode s.cmdl with
    | error e => exact ⟨_, engineStep_of_illegal hb hd, rfl, rfl, nofun⟩
    | ok i =>
      rw [engineStep_of_legal hb hd]
      rcases exec_cases (s := s) i with ⟨-, he⟩ | ⟨-, -, u, code, hu, -, he⟩ | ⟨-, hn, r, -, he⟩
      · exact ⟨_, he, rfl, rfl, nofun⟩
      · exact ⟨_, he, hu.inbox, hu.inReset, nofun⟩
      · refine ⟨_, he, rfl, rfl, fun _ => ⟨i, hd, fun hready => hn fun r' hr' => ?_⟩⟩
        rw [← isWritten_recordUninit s r]
        exact hready r' hr'
  · have hb := Bool.eq_false_iff.2 hb
    exact ⟨s, engineStep_of_idle hb, rfl, rfl, fun h => Bool.noConfusion (hb.symm.trans h)⟩

/-- A host write leaves the coming events and the reset signal. -/
theorem hostWrite_inbox_inReset (s : State) (off : Nat) (w : Word) :
    (s.hostWrite off w).inbox = s.inbox ∧ (s.hostWrite off w).inReset = s.inReset := by
  rcases hostWrite_cases s off w with e | ⟨-, e⟩ | ⟨-, e⟩ | e | ⟨-, -, e⟩ | ⟨-, i, e⟩ <;> rw [e]
  · exact ⟨rfl, rfl⟩
  · exact ⟨rfl, rfl⟩
  · exact ⟨rfl, rfl⟩
  · rw [writeStatus_eq]; exact ⟨rfl, rfl⟩
  · exact ⟨rfl, rfl⟩
  · exact ⟨rfl, rfl⟩

/-- A carried access is one aligned word in the window (R38). -/
theorem carried_access {width off : Nat}
    (h : (width == 4 && off % 4 == 0 && decide (off ≤ 0xFC)) = true) :
    width = 4 ∧ off % 4 = 0 ∧ off ≤ 0xFC := by
  simpa [and_assoc] using h

/-- The step of a carried event takes that event off and leaves the reset signal. -/
theorem step_carried {ev : HostEvent} {rest : List HostEvent} (hr : s.inReset = false)
    (hev : ev.carried = true) (h : s.inbox = ev :: rest) :
    ∃ t, step s = .next t ∧ t.inbox = rest ∧ t.inReset = false := by
  cases ev with
  | wait =>
    obtain ⟨t, ht, hi, hrt, -⟩ := engineStep_finishes { s with inbox := rest }
    exact ⟨t, (step_of_inbox_cons h).trans ht, hi, hrt.trans hr⟩
  | read width off =>
    obtain ⟨rfl, h4, hl⟩ := carried_access hev
    obtain ⟨d, hd⟩ := step_read_reply hr h4 hl h
    exact ⟨_, hd, rfl, hr⟩
  | write width off w =>
    obtain ⟨rfl, h4, hl⟩ := carried_access hev
    obtain ⟨hi, hrt⟩ := hostWrite_inbox_inReset { s with inbox := rest } off w
    exact ⟨_, step_write hr h4 hl h, hi, hrt.trans hr⟩
  | assertReset | releaseReset => cases hev

/-- A run of one step for each carried event takes them all. -/
theorem run_carried : ∀ (evs : List HostEvent) {s : State}, s.inReset = false → s.inbox = evs →
    (∀ ev ∈ evs, ev.carried = true) →
    ∃ t, Host.Core.run Sys2Proof.core evs.length s = .next t ∧ t.inbox = []
  | [], s, _, hi, _ => ⟨s, run_zero s, hi⟩
  | ev :: rest, s, hr, hi, hc => by
    obtain ⟨hev, hrest⟩ := List.forall_mem_cons.1 hc
    obtain ⟨u, hu, hui, hur⟩ := step_carried hr hev hi
    obtain ⟨t, ht, hti⟩ := run_carried rest hur hui hrest
    exact ⟨t, (run_next hu rest.length).trans ht, hti⟩

/-- Settles O56: the events are taken one a step, and the engine's step that follows completes the latched
command or finds a source unwritten. -/
theorem everyAcceptedCommandFinishes : Obligations.EveryAcceptedCommandFinishes := by
  intro s hr hc
  obtain ⟨u, hu, hui⟩ := run_carried s.inbox hr rfl hc
  obtain ⟨t, ht, hti, -, hb⟩ := engineStep_finishes u
  have hstep : step u = .next t := (step_of_inbox_nil hui).trans ht
  exact ⟨t, (run_append hu 1).trans ((run_next hstep 0).trans (run_zero t)), hti.trans hui, hb⟩

end Sys2Proof.Machine
end

section
/-! SUPPORT. Runs of the host's sequences: a fill of BUF word by word, a command issued to an idle engine,
and what NLD then loads (spec/20_memory.md R46, R59, spec/30_encoding.md R67, R70, R97). -/

namespace Sys2Proof

/-- The decoder gives back a legal command from its word (R67, R68). -/
theorem decode_encode_of_wellFormed {i : Instr} (h : i.WellFormed) : decode (encode i) = .ok i := by
  have hop : opOfCode (wordOp (encode i)) = some i.op := by rw [wordOp_encode, opOfCode_code]
  rw [decode_of_row _ _ hop, if_pos (encode_matches i), wordFields_encode,
    if_pos ((immOk_iff_wellFormed i).2 h), buildInstr_fields]

end Sys2Proof

namespace Sys2Proof.Machine

variable {s : State}

/-- An idle engine out of reset whose BUF is canonical and holds the first `k` bytes of a string, padded with
0x00 and as far as BUF reaches. -/
structure State.Filled (s : State) (bytes : List Byte) (k : Nat) : Prop where
  inReset : s.inReset = false
  busy : s.busy = false
  wf : s.buf.wf = true
  holds : ∀ j < k, j ≤ 64 → s.bufByte j = bytes.getD j 0

/-- The write of BUFWi that a fill makes (R70). -/
def fillWrite (bytes : List Byte) (i : Nat) : HostEvent := .write 4 (0x40 + 4 * i) (packedWord bytes i)

theorem fillBuf_eq (bytes : List Byte) : fillBuf bytes =
    (List.range' 0 ((bytes.length + 3) / 4)).map (fillWrite bytes)
      ++ [.write 4 0x0C (BitVec.ofNat 32 bytes.length)] := by
  rw [fillBuf, List.range_eq_range']
  rfl

/-- The bytes of the word a fill writes. -/
theorem packedWord_byte (bytes : List Byte) (i : Nat) {k : Nat} (hk : k < 4) :
    (packedWord bytes i).extractLsb' (8 * k) 8 = bytes.getD (4 * i + k) 0 :=
  ofNat_bytes_byte (fun j => bytes.getD (4 * i + j) 0) hk

/-- One word of a fill: four bytes more are in BUF. -/
theorem step_fillWrite {bytes : List Byte} {i : Nat} {rest : List HostEvent} (hs : s.Filled bytes (4 * i))
    (hi : i ≤ 16) (h : s.inbox = fillWrite bytes i :: rest) :
    ∃ t, step s = .next t ∧ t.inbox = rest ∧ t.Filled bytes (4 * (i + 1)) := by
  refine ⟨State.memWrite { s with inbox := rest } (4 * i) (wordBytes (packedWord bytes i)), ?_, rfl,
    hs.inReset, hs.busy, memory_putBytes_wf _ _ hs.wf, fun j hj hj64 => ?_⟩
  · rw [step_write hs.inReset (by omega) (by omega) h, hostWrite_bufW _ hi, if_neg (by simp [hs.busy])]
  · rw [bufByte_memWrite_word (s := { s with inbox := rest }) hs.wf]
    by_cases hji : 4 * i ≤ j
    · rw [if_pos (by omega), packedWord_byte bytes i (by omega), Nat.add_sub_cancel' hji]
    · rw [if_neg (by omega)]
      exact hs.holds j (by omega) hj64

/-- The words of a fill from BUFWi on, as many as BUF has. -/
theorem run_fillWrites {bytes : List Byte} {rest : List HostEvent} : ∀ (c : Nat) {i : Nat} {s : State},
    s.Filled bytes (4 * i) → i + c ≤ 17 →
    s.inbox = (List.range' i c).map (fillWrite bytes) ++ rest →
    ∃ t : State, Host.Core.run Sys2Proof.core c s = .next t ∧ t.inbox = rest ∧ t.Filled bytes (4 * (i + c))
  | 0, _, s, hs, _, h => ⟨s, run_zero s, h, hs⟩
  | c + 1, i, s, hs, hc, h => by
    obtain ⟨u, hu, hui, hus⟩ := step_fillWrite hs (by omega) h
    obtain ⟨t, ht, hti, hts⟩ := run_fillWrites c hus (by omega) hui
    exact ⟨t, (run_next hu c).trans ht, hti, by rwa [Nat.add_assoc, Nat.add_comm 1 c] at hts⟩

/-- A fill of an idle engine with a string that BUF can hold (R70). -/
theorem run_fillBuf {bytes : List Byte} {rest : List HostEvent} (hs : s.Filled bytes 0)
    (hlen : bytes.length ≤ 65) (h : s.inbox = fillBuf bytes ++ rest) :
    ∃ t : State, Host.Core.run Sys2Proof.core (fillBuf bytes).length s = .next t ∧ t.inbox = rest ∧
      t.Filled bytes bytes.length ∧ t.bufLen = bytes.length := by
  rw [fillBuf_eq, List.append_assoc, List.singleton_append] at h
  obtain ⟨u, hu, hui, huf⟩ := run_fillWrites _ hs (by omega) h
  have hlast : step u = .next (State.setBufLen { u with inbox := rest } bytes.length) := by
    have hn : (BitVec.ofNat 32 bytes.length).toNat = bytes.length := by
      rw [BitVec.toNat_ofNat]
      omega
    rw [step_write huf.inReset rfl (by decide) hui, hostWrite_bufLen, if_neg (by simp [huf.busy]), hn,
      if_pos hlen]
  refine ⟨State.setBufLen { u with inbox := rest } bytes.length, ?_, rfl,
    ⟨huf.inReset, huf.busy, huf.wf, fun j hj => huf.holds j (by omega)⟩, rfl⟩
  have hcount : (fillBuf bytes).length = (bytes.length + 3) / 4 + 1 := by simp [fillBuf]
  rw [hcount]
  exact (run_append hu 1).trans ((run_next hlast 0).trans (run_zero _))

/-- The state in which the engine runs a command that was issued: its word is latched, and the read of STATUS
is to come. -/
def State.issued (s : State) (i : Instr) (rest : List HostEvent) : State :=
  State.accept { s with inbox := .read 4 0x08 :: rest } (encode i)

/-- A legal command issued to an idle engine runs, and the read of STATUS changes nothing of the engine
(R59, R70). -/
theorem run_issue {i : Instr} {rest : List HostEvent} {u : State} (hr : s.inReset = false)
    (hb : s.busy = false) (hw : i.WellFormed) (h : s.inbox = issue i ++ rest)
    (he : exec i (s.issued i rest) = .next u) :
    ∃ w d, Host.Core.run Sys2Proof.core (issue i).length s =
      .next { u with inbox := rest, replies := w :: u.replies, draws := d } := by
  have hwrite := step_cmdWrite_of_idle hr hb h
  have hengine : (s.issued i rest).engineStep = .next u :=
    (engineStep_of_legal (accept_busy _ _) (decode_encode_of_wellFormed hw)).trans he
  have hwait : step (State.accept { s with inbox := .wait :: .read 4 0x08 :: rest } (encode i)) = .next u :=
    (step_of_inbox_cons (ev := .wait) (rest := .read 4 0x08 :: rest) rfl).trans hengine
  obtain ⟨u', hu', hui, hur, -⟩ := engineStep_finishes (s.issued i rest)
  cases hu'.symm.trans hengine
  obtain ⟨d, hread⟩ := step_read_reply (hur.trans hr) rfl (by decide) hui
  exact ⟨_, d, (run_next hwrite 2).trans ((run_next hwait 1).trans ((run_next hread 0).trans (run_zero _)))⟩

/-- NLD of a 32-byte BUF (R97). -/
theorem exec_nld_of_bufLen (h : s.bufLen = 32) (rd : Reg) : exec (.nld rd) s =
    .next ((s.setN rd (montN (s.bufNat 0 % orderN))).complete 0) := by
  show execNld rd s = _
  rw [execNld, if_neg (not_not_intro h), State.succeed]

theorem bufNat_congr {t : State} (h : t.buf = s.buf) (off : Nat) : t.bufNat off = s.bufNat off := by
  simp only [State.bufNat, State.memRead, bufByte_congr h]

/-- The number in a BUF that a string of 32 bytes filled (R15). -/
theorem bufNat_of_filled {bytes : List Byte} (hlen : bytes.length = 32) (hs : s.Filled bytes 32) :
    s.bufNat 0 = beNat bytes := by
  have hread : s.memRead 0 32 = bytes := by
    refine List.ext_getElem (by simp [State.memRead, hlen]) fun j _ hj => ?_
    simp only [State.memRead, List.getElem_map, List.getElem_range, Nat.zero_add]
    rw [hs.holds j (by omega) (by omega), List.getD_eq_getElem _ _ hj]
  rw [State.bufNat, hread]

/-- Settles O59: the fill leaves the string in BUF, and NLD loads its number. -/
theorem hostSequenceLoadsAScalar : Obligations.HostSequenceLoadsAScalar := by
  intro s rd k hr hb hi hbuf hk
  have hinbox : (s.present (loadScalar rd k)).inbox = fillBuf k ++ issue (.nld rd) := by
    rw [State.present, hi, loadScalar, List.nil_append]
  obtain ⟨u, hu, hui, huf, hul⟩ := run_fillBuf (s := s.present (loadScalar rd k))
    ⟨hr, hb, hbuf.1, nofun⟩ (by omega) hinbox
  rw [hk] at huf hul
  have hload := exec_nld_of_bufLen (s := u.issued (.nld rd) []) hul rd
  have hnum : (u.issued (.nld rd) []).bufNat 0 = beNat k :=
    (bufNat_congr (s := u) rfl 0).trans (bufNat_of_filled hk huf)
  rw [hnum] at hload
  obtain ⟨w, d, hrun⟩ := run_issue huf.inReset huf.busy rfl (hui.trans (List.append_nil _).symm) hload
  have hall := (run_append hu _).trans hrun
  rw [← List.length_append] at hall
  refine ⟨_, hall, ⟨rfl, rfl⟩, rfl, ?_⟩
  have hlt : montN (beNat k % orderN) < 2 ^ 256 := (montN_lt _).trans orderN_lt_radix
  exact (nReg_congr rfl rd).trans (nReg_written _ rd _ hlt)

end Sys2Proof.Machine
end

section
/-! SUPPORT. The decoder said once in each direction: the words it accepts are the encodings of the legal
commands (spec/30_encoding.md R67, R68), and the ones it rejects are those no row takes (R63, R66). -/

namespace Sys2Proof

/-- Settles O1: packing keeps the opcode and the fields apart, and the opcode map inverts the codes. -/
theorem decodeOfEncode : Obligations.DecodeOfEncode := fun _ hw => decode_encode_of_wellFormed hw

theorem buildInstr_op (op : Op) (x : Fields) : (buildInstr op x).op = op := by cases op <;> rfl

/-- The command of a row carries the fields it was built from, when those its format does not use are zero
(R63). -/
theorem fields_buildInstr {op : Op} {x : Fields} (h : op.format.unusedZero x) :
    (buildInstr op x).fields = x := by
  obtain ⟨rd, ra, rb, rc, imm⟩ := x
  cases op <;> simp_all [buildInstr, Instr.fields, Op.format, Format.unusedZero]

/-- Decoding a word of a known row succeeds exactly by passing the two tests of the row (R67). -/
theorem decode_of_row_eq_ok_iff {w : Word} {op : Op} (h : opOfCode (wordOp w) = some op) (i : Instr) :
    decode w = .ok i ↔ w &&& op.format.mask = op.matchWord ∧ op.immOk (wordFields w).imm = true ∧
      buildInstr op (wordFields w) = i := by
  rw [decode_of_row w op h]
  split_ifs <;> simp [*]

/-- The words the decoder accepts are the words of the legal commands. -/
theorem decode_eq_ok_iff (w : Word) (i : Instr) : decode w = .ok i ↔ i.WellFormed ∧ encode i = w := by
  refine ⟨fun h => ?_, fun ⟨hw, he⟩ => he ▸ decode_encode_of_wellFormed hw⟩
  cases hop : opOfCode (wordOp w) with
  | none => simp [decode, hop] at h
  | some op =>
    obtain ⟨hmask, himm, rfl⟩ := (decode_of_row_eq_ok_iff hop i).1 h
    obtain ⟨hcode, hzero⟩ := (mask_eq_match_iff w op).1 hmask
    have hfields := fields_buildInstr hzero
    constructor
    · rwa [← immOk_iff_wellFormed, buildInstr_op, hfields]
    · rw [encode, buildInstr_op, hfields, ← hcode, packWord_wordFields]

/-- Settles O2: the accepted word is the encoding of its command, and a second legal command with that word
would be decoded from it too. -/
theorem encodeOfDecode : Obligations.EncodeOfDecode := by
  intro w i h
  obtain ⟨hw, he⟩ := (decode_eq_ok_iff w i).1 h
  refine ⟨hw, he, fun j hj hje => ?_⟩
  have hdj : decode w = .ok j := (decode_eq_ok_iff w j).2 ⟨hj, hje⟩
  exact Except.ok.inj (hdj.symm.trans h)

theorem opOfCode_eq_some_iff (c : BitVec 8) (op : Op) : opOfCode c = some op ↔ op.code = c :=
  ⟨code_opOfCode c op, fun h => h ▸ opOfCode_code op⟩

theorem opOfCode_eq_none_iff (c : BitVec 8) : opOfCode c = none ↔ ∀ op : Op, op.code ≠ c := by
  simp only [Option.eq_none_iff_forall_ne_some, ne_eq, opOfCode_eq_some_iff]

/-- The reserved opcodes of R66 are the bytes that select no row. -/
theorem opOfCode_eq_none_iff_reserved : ∀ c : BitVec 8, opOfCode c = none ↔
    (0x02 ≤ c.toNat ∧ c.toNat ≤ 0x0F) ∨ (0x2A ≤ c.toNat ∧ c.toNat ≤ 0x2F) ∨
      (0x3A ≤ c.toNat ∧ c.toNat ≤ 0x3F) ∨ 0x44 ≤ c.toNat := by
  decide +kernel

/-- The immediate test fails exactly outside the opcode's range (R62). -/
theorem immOk_eq_false_iff (op : Op) (imm : BitVec 8) : op.immOk imm = false ↔
    ∃ lo hi, op.immRange = some (lo, hi) ∧ (imm.toNat < lo ∨ hi < imm.toNat) := by
  unfold Op.immOk
  cases op.immRange with
  | none => simp
  | some range => simp [Prod.ext_iff, imp_iff_not_or]

theorem wordOp_eq_extractLsb' (w : Word) : wordOp w = w.extractLsb' 0 8 := rfl

theorem wordFields_imm (w : Word) : (wordFields w).imm = w.extractLsb' 24 8 := by
  apply BitVec.eq_of_toNat_eq
  rw [BitVec.extractLsb'_toNat, Nat.shiftRight_eq_div_pow]
  rfl

/-- A word is rejected by having no row, or by failing one of the two tests of its row (R66). -/
theorem decode_error_iff (w : Word) : (∃ e, decode w = .error e) ↔ opOfCode (wordOp w) = none ∨
    ∃ op : Op, opOfCode (wordOp w) = some op ∧
      (w &&& op.format.mask ≠ op.matchWord ∨ op.immOk (wordFields w).imm = false) := by
  cases hop : opOfCode (wordOp w) with
  | none => simp [decode, hop]
  | some op =>
    rw [decode_of_row w op hop]
    split_ifs <;> simp [*]

end Sys2Proof

namespace Sys2Proof.Machine

/-- Settles O3: the rejected words by row, the reserved opcodes by the opcode map, and the error a latched
illegal word or an ill-formed command completes with. -/
theorem illegalWordsAreRejected : Obligations.IllegalWordsAreRejected := by
  refine ⟨fun w => ?_, fun c => ?_, fun s e hb hd hi => ?_, fun i s hw => ?_⟩
  · rw [decode_error_iff, opOfCode_eq_none_iff]
    simp only [opOfCode_eq_some_iff, immOk_eq_false_iff, wordOp_eq_extractLsb', wordFields_imm,
      Op.matchWord]
  · rw [← opOfCode_eq_none_iff, opOfCode_eq_none_iff_reserved]
  · exact ⟨s.complete 6, by rw [step_of_inbox_nil hi, engineStep_of_illegal hb hd], raised_complete s 6⟩
  · rcases exec_cases (s := s) i with ⟨-, he⟩ | ⟨hw', -⟩ | ⟨hw', -⟩
    · exact ⟨s.complete 6, he, raised_complete s 6⟩
    · exact absurd hw' hw
    · exact absurd hw' hw

end Sys2Proof.Machine

namespace Sys2Proof

/-- Settles O4: the decoder, evaluated on each printed word. -/
theorem printedWordsDecode : Obligations.PrintedWordsDecode := by
  unfold Obligations.PrintedWordsDecode
  decide +kernel

end Sys2Proof
end

section
/-! SUPPORT. The Montgomery arithmetic of both fields as that of `ZMod m`, and the word-serial multiplier
(spec/00_scope.md R13, spec/40_prime_field.md R72). -/

namespace Sys2Proof.Machine

section AnyModulus

variable {m r' : Nat}

/-- What the Montgomery form `w` of `x` stands for. -/
theorem mont_eq_iff_cast (x w : Nat) : x * radixR % m = w % m ↔ (x : ZMod m) * radixR = w := by
  rw [← ZMod.natCast_eq_natCast_iff', Nat.cast_mul]

/-- A Montgomery product is the residue whose product with R is the product of the operands. -/
theorem montMul_mul_radix (hr : (radixR : ZMod m) * r' = 1) (a b : Nat) :
    a * b * r' % m * radixR % m = a * b % m := by
  rw [← ZMod.natCast_eq_natCast_iff']
  push_cast [ZMod.natCast_mod]
  linear_combination (a * b : ZMod m) * hr

/-- Chained Montgomery squarings of the form of `x` give the form of x^(2^k). -/
theorem cast_applyTimes_montSquare (hr : (radixR : ZMod m) * r' = 1) :
    ∀ (k : Nat) {x : ZMod m} {w : Nat}, x * radixR = w →
      ((applyTimes (fun y => y * y * r' % m) k w : Nat) : ZMod m) = x ^ (2 ^ k) * radixR
  | 0, x, w, h => by rw [applyTimes, ← h, pow_zero, pow_one]
  | k + 1, x, w, h => by
    have hsquare : x ^ 2 * radixR = ((w * w * r' % m : Nat) : ZMod m) := by
      push_cast [ZMod.natCast_mod]
      rw [← h]
      linear_combination (-x ^ 2 * radixR) * hr
    rw [applyTimes, cast_applyTimes_montSquare hr k hsquare, ← pow_mul, pow_succ' 2 k]

/-- The true value of the form of `x`. -/
theorem cast_unmont_of_mont (hr : (radixR : ZMod m) * r' = 1) {x w : Nat} (h : x * radixR % m = w % m) :
    ((w * r' % m : Nat) : ZMod m) = x := by
  rw [ZMod.natCast_mod, Nat.cast_mul, ← (mont_eq_iff_cast x w).1 h, mul_assoc, hr, mul_one]

/-- A power of the true value, put back into Montgomery form. -/
theorem mont_powMod_unmont (hm : 0 < m) (hr : (radixR : ZMod m) * r' = 1) {e x w : Nat} (he : e < 2 ^ 256)
    (h : x * radixR % m = w % m) : powMod m (w * r' % m) e * radixR % m = x ^ e * radixR % m := by
  rw [← ZMod.natCast_eq_natCast_iff', Nat.cast_mul, cast_powMod hm _ he, cast_unmont_of_mont hr h,
    Nat.cast_mul, Nat.cast_pow]

end AnyModulus

/-! ### The word-serial multiplier -/

/-- A round divides exactly, because p ≡ −1 modulo the word (R72). -/
theorem montRound_mul_word (t : Nat) : montRound t * 2 ^ 64 = t + t % 2 ^ 64 * primeP := by
  unfold montRound pPrime primeP
  omega

/-- A round multiplies by the inverse of the word modulo p. -/
theorem cast_montRound (t : Nat) : ((montRound t : Nat) : ZMod primeP) * 2 ^ 64 = t := by
  have h := congrArg (Nat.cast (R := ZMod primeP)) (montRound_mul_word t)
  push_cast at h
  rwa [ZMod.natCast_self, mul_zero, add_zero] at h

/-- A round takes one word off the size, up to one p. -/
theorem montRound_lt {t c : Nat} (h : t < (2 ^ 64 * c + 1) * primeP) : montRound t < (c + 1) * primeP := by
  have hmul := montRound_mul_word t
  have hword : (t % 2 ^ 64 + 1) * primeP ≤ 2 ^ 64 * primeP := Nat.mul_le_mul_right _ (by omega)
  linarith

/-- Four rounds divide by R. -/
theorem cast_montRound_four (t : Nat) :
    ((montRound (montRound (montRound (montRound t))) : Nat) : ZMod primeP) * radixR = t := by
  have hradix : (radixR : ZMod primeP) = 2 ^ 256 := by rw [radixR_eq, Nat.cast_pow, Nat.cast_ofNat]
  have h1 := cast_montRound t
  have h2 := cast_montRound (montRound t)
  have h3 := cast_montRound (montRound (montRound t))
  have h4 := cast_montRound (montRound (montRound (montRound t)))
  linear_combination (montRound (montRound (montRound (montRound t))) : ZMod primeP) * hradix +
    h1 + 2 ^ 64 * h2 + 2 ^ 128 * h3 + 2 ^ 192 * h4

/-- Four rounds leave less than 2p of a product below R·p. -/
theorem montRound_four_lt {t : Nat} (h : t < radixR * primeP) :
    montRound (montRound (montRound (montRound t))) < 2 * primeP := by
  rw [radixR_eq] at h
  have h1 := montRound_lt (t := t) (c := 2 ^ 192) (by linarith [primeP_pos])
  have h2 := montRound_lt (c := 2 ^ 128) (h1.trans_eq (by ring))
  have h3 := montRound_lt (c := 2 ^ 64) (h2.trans_eq (by ring))
  exact montRound_lt (c := 1) (h3.trans_eq (by ring))

/-- The reduction divides a product below R·p by R, to a residue. -/
theorem montReduce_spec {t : Nat} (h : t < radixR * primeP) :
    montReduce t < primeP ∧ ((montReduce t : Nat) : ZMod primeP) * radixR = t := by
  have hlt := montRound_four_lt h
  have hcast := cast_montRound_four t
  unfold montReduce
  dsimp only
  split
  · next hge => exact ⟨by omega, by rwa [Nat.cast_sub hge, ZMod.natCast_self, sub_zero]⟩
  · next hge => exact ⟨by omega, hcast⟩

/-- Settles O57: the reduction and the product both give the residue that R takes to a · b. -/
theorem wordSerialMultiplierIsTheProduct : Obligations.WordSerialMultiplierIsTheProduct := by
  intro a b ha hb
  obtain ⟨hlt, hcast⟩ := montReduce_spec (t := a * b)
    (Nat.mul_lt_mul_of_lt_of_le (ha.trans (by decide)) hb.le primeP_pos)
  refine ⟨eq_of_cast_eq hlt (montMulP_lt a b) ?_, hlt⟩
  rw [cast_montMulP, ← Nat.cast_mul, ← hcast, mul_assoc, radix_mul_rInvP, mul_one]
  rfl

end Sys2Proof.Machine
end

section
/-! SUPPORT. What a ready command leaves, by the kind of its write, and what the latched word of an illegal
command does (spec/00_scope.md R14, spec/30_encoding.md R66): for the statements about single commands. -/

namespace Sys2Proof

/-- The word of a command with an immediate outside its range is rejected (R66). -/
theorem decode_encode_of_not_wellFormed {i : Instr} (h : ¬i.WellFormed) :
    decode (encode i) = .error .immRange := by
  have hop : opOfCode (wordOp (encode i)) = some i.op := by rw [wordOp_encode, opOfCode_code]
  rw [decode_of_row _ _ hop, if_pos (encode_matches i), wordFields_encode,
    if_neg (mt (immOk_iff_wellFormed i).1 h)]

end Sys2Proof

namespace Sys2Proof.Machine

variable {s : State} {i : Instr}

theorem fReg_lt (s : State) (j : Reg) : s.fReg j < 2 ^ 256 := (s.f.get j).val.isLt

/-- The latched word of an illegal command raises IllegalCommand (R66). -/
theorem exists_raised_of_latched_illegal (hw : ¬i.WellFormed) (hb : s.busy = true)
    (hc : s.cmdl = encode i) (hi : s.inbox = []) : ∃ t, step s = .next t ∧ s.Raised t 6 := by
  have hd : decode s.cmdl = .error .immRange := by rw [hc, decode_encode_of_not_wellFormed hw]
  exact ⟨_, (step_of_inbox_nil hi).trans (engineStep_of_illegal hb hd), raised_complete s 6⟩

/-- A ready command that writes one F register succeeds, and the register reads the value. -/
theorem exists_succeeded_setF {rd : Reg} {v : Nat} (hr : s.Ready i) (hv : v < 2 ^ 256)
    (he : exec i s = s.reading (sources i) (s.setF rd v).succeed) :
    ∃ t, exec i s = .next t ∧ s.Succeeded t (some (.f rd)) false 0 ∧ t.fReg rd = v :=
  ⟨_, he.trans (reading_written s hr _), succeeded_setF s rd v, fReg_written s rd v hv⟩

/-- A ready command that writes C alone succeeds, and C is the value. -/
theorem exists_succeeded_setC {b : Bool} (hr : s.Ready i)
    (he : exec i s = s.reading (sources i) (s.setC b).succeed) :
    ∃ t, exec i s = .next t ∧ s.Succeeded t none true 0 ∧ t.cFlag = b :=
  ⟨_, he.trans (reading_written s hr _), succeeded_setC s b, cFlag_written s b⟩

/-- A ready command that writes an F register and C succeeds, with the values in both. -/
theorem exists_succeeded_setF_setC {rd : Reg} {v : Nat} {b : Bool} (hr : s.Ready i) (hv : v < 2 ^ 256)
    (he : exec i s = s.reading (sources i) ((s.setF rd v).setC b).succeed) :
    ∃ t, exec i s = .next t ∧ s.Succeeded t (some (.f rd)) true 0 ∧ t.fReg rd = v ∧ t.cFlag = b :=
  ⟨_, he.trans (reading_written s hr _), Succeeded_setC (succeeded_setF s rd v) (by simp) b,
    fReg_written s rd v hv, cFlag_written _ b⟩

theorem bigEndian_eq_bufNat (s : State) (off : Nat) : s.bigEndian off = s.bufNat off :=
  (bufNat_eq_sum s off).symm

/-- A byte of a big-endian string (R15). -/
theorem beBytes_getD : ∀ (k v : Nat) {j : Nat}, j < k →
    (beBytes k v).getD j 0 = BitVec.ofNat 8 (v / 256 ^ (k - 1 - j))
  | k + 1, v, 0, _ => rfl
  | k + 1, v, j + 1, h => by
    rw [beBytes, List.getD_cons_succ, beBytes_getD k v (by omega),
      show k + 1 - 1 - (j + 1) = k - 1 - j by omega]

/-- A ready command that stores a 32-byte number succeeds, and BUF holds its bytes (R15, R150). -/
theorem exists_succeeded_output_be32 {v : Nat} (hbuf : s.BufferOk) (hr : s.Ready i)
    (he : exec i s = s.reading (sources i) (s.output (be32 v)).succeed) :
    ∃ t, exec i s = .next t ∧ s.Succeeded t none false 32 ∧ t.bufLen = 32 ∧
      ∀ j < 32, t.bufByte j = BitVec.ofNat 8 (v / 256 ^ (31 - j)) := by
  refine ⟨_, he.trans (reading_written s hr _), ?_, be32_length v, fun j hj => ?_⟩
  · exact be32_length v ▸ succeeded_output s (be32 v) (be32_ne_nil v)
  · rw [bufByte_output s _ hbuf.1, be32_length, if_pos (by omega), be32, beBytes_getD 32 v hj]

end Sys2Proof.Machine
end

section
/-! SUPPORT. The prime-field commands (spec/40_prime_field.md R73 to R88): what each computes, in plain
arithmetic modulo p, and that it leaves the value as its rule says. -/

namespace Sys2Proof.Machine

variable {s : State}

/-! ### Addition, subtraction and negation -/

theorem addMod_eq_addOneSubtraction {a b : Nat} (ha : a < primeP) (hb : b < primeP) :
    (a + b) % primeP = addOneSubtraction a b := by
  unfold addOneSubtraction
  split
  · next h => rw [Nat.mod_eq_sub_mod h, Nat.mod_eq_of_lt (by omega)]
  · next h => exact Nat.mod_eq_of_lt (by omega)

theorem subMod_add {m : Nat} (hm : 0 < m) (a b : Nat) : (subMod m a b + b) % m = a % m := by
  rw [← ZMod.natCast_eq_natCast_iff', Nat.cast_add, cast_subMod hm, sub_add_cancel]

theorem negMod_add {m : Nat} (hm : 0 < m) (a : Nat) : (negMod m a + a) % m = 0 :=
  (subMod_add hm 0 a).trans (Nat.zero_mod m)

/-- Settles O11: the sum and the difference as `addMod` and `subMod` define them. -/
theorem fieldAddAndSubtract : Obligations.FieldAddAndSubtract := by
  refine fun s rd ra rb => ⟨⟨rfl, rfl⟩, ⟨rfl, rfl⟩, fun hr => ?_, fun hr => ?_⟩
  · obtain ⟨t, he, hs, hv⟩ := exists_succeeded_setF hr
      ((addMod_lt primeP_pos (s.fReg ra) (s.fReg rb)).trans primeP_lt_radix) rfl
    exact ⟨t, he, hs, hv, fun ha hb => hv.trans (addMod_eq_addOneSubtraction ha hb)⟩
  · have hlt := subMod_lt primeP_pos (s.fReg ra) (s.fReg rb)
    obtain ⟨t, he, hs, hv⟩ := exists_succeeded_setF hr (hlt.trans primeP_lt_radix) rfl
    exact ⟨t, he, hs, hv ▸ hlt, hv ▸ subMod_add primeP_pos _ _⟩

/-! ### Montgomery products and powers -/

theorem montMulP_mul_radix (a b : Nat) : montMulP a b * radixR % primeP = a * b % primeP :=
  montMul_mul_radix radix_mul_rInvP a b

/-- Settles O12: the product by R⁻¹ undoes the factor R. -/
theorem fieldMontgomeryProduct : Obligations.FieldMontgomeryProduct := by
  refine fun s rd ra rb => ⟨⟨rfl, rfl⟩, fun hr => ?_⟩
  have hlt := montMulP_lt (s.fReg ra) (s.fReg rb)
  obtain ⟨t, he, hs, hv⟩ := exists_succeeded_setF hr (hlt.trans primeP_lt_radix) rfl
  exact ⟨t, he, hs, hv ▸ hlt, hv ▸ montMulP_mul_radix _ _⟩

theorem montSqrP_lt_of_ne_zero {k : Nat} (hk : k ≠ 0) (w : Nat) : montSqrP k w < primeP := by
  obtain ⟨j, rfl⟩ := Nat.exists_eq_succ_of_ne_zero hk
  rw [Nat.succ_eq_add_one, montSqrP_succ]
  exact montSqrP_lt j (montMulP_lt w w)

/-- Chained squarings of the Montgomery form of `x` (R76). -/
theorem montSqrP_eq {k x w : Nat} (hk : k ≠ 0) (h : x * radixR % primeP = w % primeP) :
    montSqrP k w = x ^ (2 ^ k) * radixR % primeP := by
  refine eq_of_cast_eq (montSqrP_lt_of_ne_zero hk w) (Nat.mod_lt _ primeP_pos) ?_
  have hcast := cast_applyTimes_montSquare radix_mul_rInvP k ((mont_eq_iff_cast x w).1 h)
  rw [ZMod.natCast_mod, Nat.cast_mul, Nat.cast_pow]
  exact hcast

/-- FSQR with a legal count. -/
theorem exec_fsqr {k : BitVec 8} (hk : k.toNat ≠ 0) (rd ra : Reg) : exec (.fsqr rd ra k) s =
    s.reading [.f ra] (s.setF rd (montSqrP k.toNat (s.fReg ra))).succeed := if_neg hk

theorem fsqr_wellFormed_iff (rd ra : Reg) (k : BitVec 8) :
    (Instr.fsqr rd ra k).WellFormed ↔ k.toNat ≠ 0 := by
  simp [Instr.WellFormed, Instr.wellFormed, Nat.one_le_iff_ne_zero]

/-- Settles O13: by induction on the count, in `cast_applyTimes_montSquare`. -/
theorem fieldRepeatedSquaring : Obligations.FieldRepeatedSquaring := by
  refine fun s rd ra k => ⟨⟨rfl, rfl⟩, fun hk hr => ?_, fun hk => ?_⟩
  · obtain ⟨t, he, hs, hv⟩ := exists_succeeded_setF hr
      ((montSqrP_lt_of_ne_zero hk _).trans primeP_lt_radix) (exec_fsqr hk rd ra)
    exact ⟨t, he, hs, fun x hx => hv.trans (montSqrP_eq hk hx)⟩
  · exact exists_raised_of_latched_illegal fun hw => (fsqr_wellFormed_iff rd ra k).1 hw hk

/-- The true value that a Montgomery form stands for. -/
theorem cast_unmontP_of_mont {x w : Nat} (h : x * radixR % primeP = w % primeP) :
    ((unmontP w : Nat) : ZMod primeP) = x := cast_unmont_of_mont radix_mul_rInvP h

theorem montP_powMod_unmontP {e x w : Nat} (he : e < 2 ^ 256) (h : x * radixR % primeP = w % primeP) :
    montP (powMod primeP (unmontP w) e) = x ^ e * radixR % primeP :=
  mont_powMod_unmont primeP_pos radix_mul_rInvP he h

/-! ### Inversion -/

theorem montP_invMod_unmontP {x w : Nat} (h : x * radixR % primeP = w % primeP) :
    montP (invMod primeP (unmontP w)) = x ^ (primeP - 2) * radixR % primeP :=
  montP_powMod_unmontP (by decide) h

theorem montP_invMod_unmontP_of_zero {w : Nat} (h : w % primeP = 0) :
    montP (invMod primeP (unmontP w)) = 0 := by
  have := primeP_fact
  have hw : (w : ZMod primeP) = 0 := by rwa [ZMod.natCast_eq_zero_iff, Nat.dvd_iff_mod_eq_zero]
  rw [← cast_eq_zero_iff (montP_lt _), cast_montP, cast_invP, cast_unmontP, hw, zero_mul, inv_zero, zero_mul]

/-- The inverse in raw terms: its product with the source is R² (R77). -/
theorem montP_invMod_unmontP_mul {w : Nat} (h : w % primeP ≠ 0) :
    montP (invMod primeP (unmontP w)) * w % primeP = radixR * radixR % primeP := by
  have := primeP_fact
  have hw : (w : ZMod primeP) ≠ 0 := by
    rwa [Ne, ZMod.natCast_eq_zero_iff, Nat.dvd_iff_mod_eq_zero]
  have hinv : (rInvModP : ZMod primeP) = (radixR : ZMod primeP)⁻¹ :=
    eq_inv_of_mul_eq_one_right radix_mul_rInvP
  rw [← ZMod.natCast_eq_natCast_iff', Nat.cast_mul, Nat.cast_mul, cast_montP, cast_invP, cast_unmontP, hinv,
    mul_inv, inv_inv]
  linear_combination (radixR * radixR : ZMod primeP) * inv_mul_cancel₀ hw

/-- Settles O14: the inverse as a power, by Fermat in `cast_invP`. -/
theorem fieldInversion : Obligations.FieldInversion := by
  refine fun s rd ra => ⟨⟨rfl, rfl⟩, fun hr => ?_⟩
  have hlt := montP_lt (invMod primeP (s.fTrue ra))
  obtain ⟨t, he, hs, hv⟩ := exists_succeeded_setF hr (hlt.trans primeP_lt_radix) rfl
  exact ⟨t, he, hs, fun x hx => hv.trans (montP_invMod_unmontP hx),
    fun h0 => hv.trans (montP_invMod_unmontP_of_zero h0),
    fun h0 => ⟨hv ▸ hlt, hv ▸ montP_invMod_unmontP_mul h0⟩⟩

/-! ### Square root -/

/-- The squared candidate is x or −x, as Euler's criterion says: (p + 1)/4 doubled is p/2 + 1. -/
theorem candidate_sq (x : ZMod primeP) :
    x ^ ((primeP + 1) / 4) * x ^ ((primeP + 1) / 4) = x ^ (primeP / 2) * x := by
  have hexp : (primeP + 1) / 4 + (primeP + 1) / 4 = primeP / 2 + 1 := by decide
  rw [← pow_add, hexp, pow_succ]

section PrimeField

variable [Fact (Nat.Prime primeP)]

/-- The candidate is a root exactly when there is one (R78). -/
theorem candidate_sq_eq_iff (x : ZMod primeP) :
    x ^ ((primeP + 1) / 4) * x ^ ((primeP + 1) / 4) = x ↔ IsSquare x := by
  refine ⟨fun h => ⟨_, h.symm⟩, fun h => ?_⟩
  rw [candidate_sq]
  by_cases hx : x = 0
  · rw [hx, mul_zero]
  · rw [(ZMod.euler_criterion primeP hx).1 h, one_mul]

theorem candidate_sq_of_not_isSquare {x : ZMod primeP} (h : ¬IsSquare x) :
    x ^ ((primeP + 1) / 4) * x ^ ((primeP + 1) / 4) = -x := by
  have hx : x ≠ 0 := fun h0 => h (h0 ▸ IsSquare.zero)
  have hneg := (ZMod.pow_div_two_eq_neg_one_or_one primeP hx).resolve_left
    (mt (ZMod.euler_criterion primeP hx).2 h)
  rw [candidate_sq, hneg, neg_one_mul]

end PrimeField

/-- A square in `ZMod m` is the residue of a number's square. -/
theorem exists_mul_self_mod_iff {m : Nat} [NeZero m] (x : Nat) :
    (∃ y, y * y % m = x % m) ↔ IsSquare (x : ZMod m) := by
  simp only [← ZMod.natCast_eq_natCast_iff', Nat.cast_mul]
  exact ⟨fun ⟨y, hy⟩ => ⟨y, hy.symm⟩, fun ⟨z, hz⟩ => ⟨z.val, by rw [ZMod.natCast_zmod_val, hz]⟩⟩

/-- (p + 1)/4 is even, so the candidate is a square. -/
theorem exists_mul_self_mod_candidate (x : Nat) :
    ∃ z, z * z % primeP = x ^ ((primeP + 1) / 4) % primeP := by
  have hexp : (primeP + 1) / 8 + (primeP + 1) / 8 = (primeP + 1) / 4 := by decide
  exact ⟨x ^ ((primeP + 1) / 8), by rw [← pow_add, hexp]⟩

/-- FSQRT's flag compares the candidate's square with the true value of the source (R78). -/
theorem flagRoot_iff {x w : Nat} (h : x * radixR % primeP = w % primeP) :
    flagRoot (unmontP w) (sqrtCandidate (unmontP w)) = true ↔
      x ^ ((primeP + 1) / 4) * x ^ ((primeP + 1) / 4) % primeP = x % primeP := by
  have hx := cast_unmontP_of_mont h
  have hr : ((sqrtCandidate (unmontP w) : Nat) : ZMod primeP) = x ^ ((primeP + 1) / 4) := by
    rw [sqrtCandidate, cast_powMod primeP_pos _ (by decide), hx]
  rw [flagRoot, beq_iff_eq, ← ZMod.natCast_eq_natCast_iff', Nat.cast_mul, Nat.cast_pow, ← hr, ← hx,
    ← cast_mulMod]
  exact ⟨congrArg _, eq_of_cast_eq (mulMod_lt primeP_pos _ _) (unmontP_lt w)⟩

/-- Settles O15: the flag is the test of the candidate, which Euler's criterion decides. -/
theorem fieldSquareRoot : Obligations.FieldSquareRoot := by
  refine fun s rd ra => ⟨⟨rfl, rfl⟩, fun hr => ?_⟩
  have := primeP_fact
  obtain ⟨t, he, hs, hv, hc⟩ := exists_succeeded_setF_setC hr
    ((montP_lt (sqrtCandidate (s.fTrue ra))).trans primeP_lt_radix) rfl
  refine ⟨t, he, hs, fun x hx => ?_⟩
  have hroot := hc ▸ flagRoot_iff hx
  have hsquare : t.cFlag = true ↔ IsSquare (x : ZMod primeP) := by
    rw [hroot, ← candidate_sq_eq_iff, ← ZMod.natCast_eq_natCast_iff', Nat.cast_mul, Nat.cast_pow]
  refine ⟨hv.trans (montP_powMod_unmontP (by decide) hx), hroot,
    hsquare.trans (exists_mul_self_mod_iff x).symm, fun hf => ?_, exists_mul_self_mod_candidate x⟩
  have hnot : ¬IsSquare (x : ZMod primeP) := fun h => Bool.false_ne_true (hf.symm.trans (hsquare.2 h))
  rw [← Nat.dvd_iff_mod_eq_zero, ← ZMod.natCast_eq_zero_iff, Nat.cast_add, Nat.cast_mul, Nat.cast_pow,
    candidate_sq_of_not_isSquare hnot, neg_add_cancel]

/-! ### Conditionals -/

theorem negateIf_lt_radix {v : Nat} (h : v < 2 ^ 256) (c : Bool) : negateIf c v < 2 ^ 256 := by
  unfold negateIf
  split
  · exact (negMod_lt primeP_pos v).trans primeP_lt_radix
  · exact h

/-- Settles O16: the values by `negateIf`, `selectBy` and `flagEqual`. -/
theorem fieldConditionals : Obligations.FieldConditionals := by
  refine fun s rd ra rb => ⟨⟨rfl, rfl⟩, ⟨rfl, rfl⟩, ⟨rfl, rfl⟩, fun hr => ?_, fun hr => ?_, fun hr => ?_⟩
  · obtain ⟨t, he, hs, hv⟩ := exists_succeeded_setF hr (negateIf_lt_radix (fReg_lt s ra) s.cFlag) rfl
    refine ⟨t, he, hs, fun hc => ?_, fun hc => ?_⟩
    · rw [hv, hc]
      exact ⟨negMod_lt primeP_pos _, negMod_add primeP_pos _⟩
    · rw [hv, hc]; rfl
  · exact exists_succeeded_setF hr (selectBy_keeps (P := (· < 2 ^ 256)) (fReg_lt s ra) (fReg_lt s rb) s.cFlag)
      rfl
  · obtain ⟨t, he, hs, hc⟩ := exists_succeeded_setC hr rfl
    exact ⟨t, he, hs, hc ▸ beq_iff_eq⟩

/-! ### Domain conversions -/

/-- The product with R² is the Montgomery form (R72, R82). -/
theorem montMulP_r2ModP (w : Nat) : montMulP w r2ModP = w * radixR % primeP := by
  have hr2 : (r2ModP : ZMod primeP) = radixR * radixR := by
    rw [← Nat.cast_mul, ZMod.natCast_eq_natCast_iff']
    decide
  refine eq_of_cast_eq (montMulP_lt w r2ModP) (Nat.mod_lt _ primeP_pos) ?_
  rw [cast_montMulP, hr2, ZMod.natCast_mod, Nat.cast_mul]
  linear_combination (w * radixR : ZMod primeP) * radix_mul_rInvP

/-- The product with 1 of a Montgomery form is the true value (R72, R83). -/
theorem montMulP_one_mont {x : Nat} (h : x < primeP) : montMulP (x * radixR % primeP) 1 = x := by
  refine eq_of_cast_eq (montMulP_lt _ 1) h ?_
  rw [cast_montMulP, ZMod.natCast_mod, Nat.cast_mul, Nat.cast_one, mul_one, mul_assoc, radix_mul_rInvP,
    mul_one]

theorem exists_succeeded_ffromm (rd ra : Reg) (hr : s.Ready (.ffromm rd ra)) :
    ∃ t, exec (.ffromm rd ra) s = .next t ∧ s.Succeeded t (some (.f rd)) false 0 ∧
      t.fReg rd = montMulP (s.fReg ra) 1 :=
  exists_succeeded_setF hr ((montMulP_lt _ 1).trans primeP_lt_radix) rfl

/-- Settles O17: FTOM leaves its destination written, so that FFROMM reads it. -/
theorem fieldDomainConversions : Obligations.FieldDomainConversions := by
  refine fun s rd ra => ⟨⟨rfl, rfl⟩, ⟨rfl, rfl⟩, fun hr => ?_, fun hr => ?_⟩
  · obtain ⟨t, he, hs, hv⟩ := exists_succeeded_setF hr
      ((montMulP_lt (s.fReg ra) r2ModP).trans primeP_lt_radix) rfl
    rw [montMulP_r2ModP] at hv
    refine ⟨t, he, hs, hv, fun rd' => ?_⟩
    obtain ⟨u, hu, -, huv⟩ := exists_succeeded_ffromm (s := t) rd' rd
      (List.forall_mem_singleton.2 (hs.wroteDest _ rfl))
    exact ⟨u, hu, fun hlt => by rw [huv, hv, montMulP_one_mont hlt]⟩
  · obtain ⟨t, he, hs, hv⟩ := exists_succeeded_ffromm rd ra hr
    refine ⟨t, he, hs, hv ▸ montMulP_lt _ 1, ?_⟩
    rw [hv, montMulP_mul_radix, mul_one]

/-! ### Moves and constants -/

/-- The constants of R85 by what they are. -/
theorem fConst_eq : ∀ k ≤ 7, [0, radixR % primeP, radixR * radixR % primeP, curveB * radixR % primeP,
    (primeP - 3) * radixR % primeP, genX * radixR % primeP, genY * radixR % primeP, 1][k]? =
      some (fConst k) := by
  decide

/-- FLDC with a legal selector. -/
theorem exec_fldc {k : BitVec 8} (hk : k.toNat ≤ 7) (rd : Reg) : exec (.fldc rd k) s =
    s.reading [] (s.setF rd (fConst k.toNat)).succeed := if_pos hk

theorem fldc_wellFormed_iff (rd : Reg) (k : BitVec 8) :
    (Instr.fldc rd k).WellFormed ↔ k.toNat ≤ 7 := decide_eq_true_iff

/-- Settles O18: the constants by `fConst_eq`. -/
theorem fieldMovesAndConstants : Obligations.FieldMovesAndConstants := by
  refine fun s rd ra k => ⟨⟨rfl, rfl⟩, ⟨rfl, rfl⟩, fun hr => ?_, fun hk => ?_, fun hk => ?_⟩
  · exact exists_succeeded_setF hr (fReg_lt s ra) rfl
  · obtain ⟨t, he, hs, hv⟩ := exists_succeeded_setF (i := .fldc rd k) (List.forall_mem_nil _)
      ((fConst_lt k.toNat).trans primeP_lt_radix) (exec_fldc hk rd)
    exact ⟨t, he, hs, hv ▸ fConst_eq k.toNat hk⟩
  · exact exists_raised_of_latched_illegal fun hw => by have := (fldc_wellFormed_iff rd k).1 hw; omega

/-! ### Buffer transfers -/

/-- Everything FLD does: the number of a 32-byte BUF below p, or DecodeError (R86). -/
theorem exec_fld (rd : Reg) : exec (.fld rd) s =
    if s.bufLen = 32 ∧ s.bigEndian 0 < primeP then (s.setF rd (s.bigEndian 0)).succeed
    else s.raise .decodeError := by
  show execFld rd s = _
  rw [bigEndian_eq_bufNat, execFld, ite_not, ite_and]

/-- Everything FLTP does: the test of a 32-byte BUF, or DecodeError (R88). -/
theorem exec_fltp : exec .fltp s =
    if s.bufLen = 32 then (s.setC (decide (s.bigEndian 0 < primeP))).succeed
    else s.raise .decodeError := by
  show execFltp s = _
  rw [bigEndian_eq_bufNat, execFltp, ite_not, flagBelowP]

/-- Settles O19: the two branches of each command. -/
theorem fieldLoadAndTest : Obligations.FieldLoadAndTest := by
  refine fun s rd => ⟨⟨rfl, rfl⟩, ⟨rfl, rfl⟩, fun hl hlt => ?_, fun h => ?_, fun hl => ?_, fun hl => ?_⟩
  · exact exists_succeeded_setF (i := .fld rd) (List.forall_mem_nil _) (hlt.trans primeP_lt_radix)
      ((exec_fld rd).trans (if_pos ⟨hl, hlt⟩))
  · have hn : ¬(s.bufLen = 32 ∧ s.bigEndian 0 < primeP) := fun ⟨hl, hlt⟩ => h.elim (· hl) hlt.not_ge
    exact ⟨_, (exec_fld rd).trans (if_neg hn), raised_complete s 1⟩
  · obtain ⟨t, he, hs, hc⟩ := exists_succeeded_setC (i := .fltp) (List.forall_mem_nil _)
      (exec_fltp.trans (if_pos hl))
    exact ⟨t, he, hs, hc ▸ decide_eq_true_iff⟩
  · exact ⟨_, exec_fltp.trans (if_neg hl), raised_complete s 1⟩

/-- Settles O20: the store of the register's bytes. -/
theorem fieldStore : Obligations.FieldStore :=
  fun _ _ => ⟨⟨rfl, rfl⟩, fun hbuf hr => exists_succeeded_output_be32 hbuf hr rfl⟩

end Sys2Proof.Machine
end

section
/-! SUPPORT. The order-field commands (spec/41_order_field.md R90 to R99): what each computes, in plain
arithmetic modulo n, and that it leaves the value as its rule says. -/

namespace Sys2Proof.Machine

variable {s : State}

theorem nReg_lt (s : State) (j : Reg) : s.nReg j < 2 ^ 256 := (s.n.get j).val.isLt

/-- A ready command that writes one N register succeeds, and the register reads the value. -/
theorem exists_succeeded_setN {i : Instr} {rd : Reg} {v : Nat} (hr : s.Ready i) (hv : v < 2 ^ 256)
    (he : exec i s = s.reading (sources i) (s.setN rd v).succeed) :
    ∃ t, exec i s = .next t ∧ s.Succeeded t (some (.n rd)) false 0 ∧ t.nReg rd = v :=
  ⟨_, he.trans (reading_written s hr _), succeeded_setN s rd v, nReg_written s rd v hv⟩

/-! ### Addition and subtraction -/

/-- Settles O21: the sum and the difference as `addMod` and `subMod` define them. -/
theorem orderAddAndSubtract : Obligations.OrderAddAndSubtract := by
  refine fun s rd ra rb => ⟨⟨rfl, rfl⟩, ⟨rfl, rfl⟩, fun hr => ?_, fun hr => ?_⟩
  · exact exists_succeeded_setN hr ((addMod_lt orderN_pos _ _).trans orderN_lt_radix) rfl
  · have hlt := subMod_lt orderN_pos (s.nReg ra) (s.nReg rb)
    obtain ⟨t, he, hs, hv⟩ := exists_succeeded_setN hr (hlt.trans orderN_lt_radix) rfl
    exact ⟨t, he, hs, hv ▸ hlt, hv ▸ subMod_add orderN_pos _ _⟩

/-! ### Products and the implicit signature -/

theorem montMulN_mul_radix (a b : Nat) : montMulN a b * radixR % orderN = a * b % orderN :=
  montMul_mul_radix radix_mul_rInvN a b

/-- The product's factor R⁻¹ is undone, and the summand takes the factor R (R99). -/
theorem addMod_montMulN_mul_radix (a b c : Nat) :
    addMod orderN (montMulN b c) a * radixR % orderN = (b * c + a * radixR) % orderN := by
  rw [← ZMod.natCast_eq_natCast_iff']
  push_cast [cast_addMod, cast_montMulN]
  linear_combination (b * c : ZMod orderN) * radix_mul_rInvN

/-- In true values IMPSIG gives e·t + s (R99). -/
theorem addMod_montMulN_of_mont {a b c x y z : Nat} (hx : x * radixR % orderN = a % orderN)
    (hy : y * radixR % orderN = b % orderN) (hz : z * radixR % orderN = c % orderN) :
    addMod orderN (montMulN b c) a = (y * z + x) * radixR % orderN := by
  rw [mont_eq_iff_cast] at hx hy hz
  refine eq_of_cast_eq (addMod_lt orderN_pos _ _) (Nat.mod_lt _ orderN_pos) ?_
  push_cast [cast_addMod, cast_montMulN, ZMod.natCast_mod]
  rw [← hx, ← hy, ← hz]
  linear_combination (y * z * radixR : ZMod orderN) * radix_mul_rInvN

/-- Settles O22: the product by R⁻¹ undoes the factor R, and the sum is in Montgomery form. -/
theorem orderProductAndImplicitSignature : Obligations.OrderProductAndImplicitSignature := by
  refine fun s rd ra rb rc => ⟨⟨rfl, rfl⟩, ⟨rfl, rfl⟩, fun hr => ?_, fun hr => ?_⟩
  · have hlt := montMulN_lt (s.nReg ra) (s.nReg rb)
    obtain ⟨t, he, hs, hv⟩ := exists_succeeded_setN hr (hlt.trans orderN_lt_radix) rfl
    exact ⟨t, he, hs, hv ▸ hlt, hv ▸ montMulN_mul_radix _ _⟩
  · have hlt := addMod_lt orderN_pos (montMulN (s.nReg rb) (s.nReg rc)) (s.nReg ra)
    obtain ⟨t, he, hs, hv⟩ := exists_succeeded_setN hr (hlt.trans orderN_lt_radix) rfl
    exact ⟨t, he, hs, hv ▸ hlt, hv ▸ addMod_montMulN_mul_radix _ _ _,
      fun x y z hx hy hz => hv.trans (addMod_montMulN_of_mont hx hy hz)⟩

/-! ### Repeated squaring -/

/-- At least one squaring leaves a residue, whatever the source holds. -/
theorem montSqrN_lt_of_ne_zero {k : Nat} (hk : k ≠ 0) (w : Nat) : montSqrN k w < orderN := by
  obtain ⟨j, rfl⟩ := Nat.exists_eq_succ_of_ne_zero hk
  exact (montSqrN_succ j w).trans_lt (montSqrN_lt j (montMulN_lt w w))

/-- Chained squarings of the Montgomery form of `x` (R93). -/
theorem montSqrN_eq {k x w : Nat} (hk : k ≠ 0) (h : x * radixR % orderN = w % orderN) :
    montSqrN k w = x ^ (2 ^ k) * radixR % orderN := by
  rw [← Nat.mod_eq_of_lt (montSqrN_lt_of_ne_zero hk w), ← ZMod.natCast_eq_natCast_iff', Nat.cast_mul,
    Nat.cast_pow]
  exact cast_applyTimes_montSquare radix_mul_rInvN k ((mont_eq_iff_cast x w).1 h)

/-- NSQR with a legal count. -/
theorem exec_nsqr {k : BitVec 8} (hk : k.toNat ≠ 0) (rd ra : Reg) : exec (.nsqr rd ra k) s =
    s.reading [.n ra] (s.setN rd (montSqrN k.toNat (s.nReg ra))).succeed := if_neg hk

theorem nsqr_wellFormed_iff (rd ra : Reg) (k : BitVec 8) :
    (Instr.nsqr rd ra k).WellFormed ↔ k.toNat ≠ 0 := by
  simp [Instr.WellFormed, Instr.wellFormed, Nat.one_le_iff_ne_zero]

/-- Settles O23: by induction on the count, in `cast_applyTimes_montSquare`. -/
theorem orderRepeatedSquaring : Obligations.OrderRepeatedSquaring := by
  refine fun s rd ra k => ⟨⟨rfl, rfl⟩, fun hk hr => ?_, fun hk => ?_⟩
  · obtain ⟨t, he, hs, hv⟩ := exists_succeeded_setN hr
      ((montSqrN_lt_of_ne_zero hk _).trans orderN_lt_radix) (exec_nsqr hk rd ra)
    exact ⟨t, he, hs, fun x hx => hv.trans (montSqrN_eq hk hx)⟩
  · exact exists_raised_of_latched_illegal fun hw => (nsqr_wellFormed_iff rd ra k).1 hw hk

/-! ### Inversion -/

/-- NINV's value is the Montgomery form of a power of the true value (R94). -/
theorem montN_invMod_unmontN {x w : Nat} (h : x * radixR % orderN = w % orderN) :
    montN (invMod orderN (unmontN w)) = x ^ (orderN - 2) * radixR % orderN :=
  mont_powMod_unmont orderN_pos radix_mul_rInvN (by decide) h

theorem mont_pow_eq_zero_of_mod_eq_zero {x : Nat} (h : x % orderN = 0) :
    x ^ (orderN - 2) * radixR % orderN = 0 :=
  Nat.mod_eq_zero_of_dvd (((Nat.dvd_of_mod_eq_zero h).pow (by decide)).mul_right _)

/-- What has the Montgomery form of x^(n−2) is an inverse of `x` (R94): R cancels, and Fermat gives the
inverse. -/
theorem mul_mod_eq_one_of_mont_pow {u x : Nat}
    (hu : u * radixR % orderN = x ^ (orderN - 2) * radixR % orderN) (hx : x % orderN ≠ 0) :
    u * x % orderN = 1 := by
  have := orderN_fact
  have hx0 : (x : ZMod orderN) ≠ 0 := by rwa [Ne, ZMod.natCast_eq_zero_iff, Nat.dvd_iff_mod_eq_zero]
  have hpow : (u : ZMod orderN) = (x : ZMod orderN) ^ (orderN - 2) := by
    rw [mont_eq_iff_cast, Nat.cast_mul, Nat.cast_pow] at hu
    exact mul_right_cancel₀ (left_ne_zero_of_mul_eq_one radix_mul_rInvN) hu
  have hinv : (u : ZMod orderN) = (x : ZMod orderN)⁻¹ :=
    hpow.trans (pow_prime_sub_two orderN_prime (by decide) _)
  have hcast : ((u * x : Nat) : ZMod orderN) = (1 : Nat) := by
    rw [Nat.cast_mul, hinv, inv_mul_cancel₀ hx0, Nat.cast_one]
  exact ((ZMod.natCast_eq_natCast_iff' _ _ _).1 hcast).trans (by decide)

/-- Settles O24: the power by the Montgomery laws, its inverse property by Fermat. -/
theorem orderInversion : Obligations.OrderInversion := by
  refine fun s rd ra => ⟨⟨rfl, rfl⟩, fun hr => ?_⟩
  obtain ⟨t, he, hs, hv⟩ := exists_succeeded_setN hr
    ((montN_lt (invMod orderN (s.nTrue ra))).trans orderN_lt_radix) rfl
  refine ⟨t, he, hs, fun x hx => ?_⟩
  have hpow : t.nReg rd = x ^ (orderN - 2) * radixR % orderN := hv.trans (montN_invMod_unmontN hx)
  refine ⟨hpow, fun h0 => hpow.trans (mont_pow_eq_zero_of_mod_eq_zero h0), fun u hu h0 => ?_⟩
  rw [hpow, Nat.mod_mod] at hu
  exact mul_mod_eq_one_of_mont_pow hu h0

/-! ### Moves and constants -/

/-- The constants of R96 by what they are. -/
theorem nConst_eq : ∀ k ≤ 3,
    [0, radixR % orderN, radixR * radixR % orderN, 1][k]? = some (nConst k) := by
  decide

/-- NLDC with a legal selector. -/
theorem exec_nldc {k : BitVec 8} (hk : k.toNat ≤ 3) (rd : Reg) : exec (.nldc rd k) s =
    s.reading [] (s.setN rd (nConst k.toNat)).succeed := if_pos hk

theorem nldc_wellFormed_iff (rd : Reg) (k : BitVec 8) :
    (Instr.nldc rd k).WellFormed ↔ k.toNat ≤ 3 := decide_eq_true_iff

/-- Settles O25: the constants by `nConst_eq`. -/
theorem orderMovesAndConstants : Obligations.OrderMovesAndConstants := by
  refine fun s rd ra k => ⟨⟨rfl, rfl⟩, ⟨rfl, rfl⟩, fun hr => ?_, fun hk => ?_, fun hk => ?_⟩
  · exact exists_succeeded_setN hr (nReg_lt s ra) rfl
  · obtain ⟨t, he, hs, hv⟩ := exists_succeeded_setN (i := .nldc rd k) (List.forall_mem_nil _)
      ((nConst_lt k.toNat).trans orderN_lt_radix) (exec_nldc hk rd)
    exact ⟨t, he, hs, hv ▸ nConst_eq k.toNat hk⟩
  · exact exists_raised_of_latched_illegal fun hw => by have := (nldc_wellFormed_iff rd k).1 hw; omega

/-! ### Buffer transfers -/

theorem exec_nld_of_bufLen_ne (h : s.bufLen ≠ 32) (rd : Reg) :
    exec (.nld rd) s = s.raise .invalidScalarLength := if_pos h

/-- Settles O26: the two branches of NLD. -/
theorem scalarLoad : Obligations.ScalarLoad := by
  refine fun s rd => ⟨⟨rfl, rfl⟩, fun hl => ?_, fun hl => ?_⟩
  · rw [bigEndian_eq_bufNat]
    exact exists_succeeded_setN (i := .nld rd) (List.forall_mem_nil _)
      ((montN_lt _).trans orderN_lt_radix) (exec_nld_of_bufLen hl rd)
  · exact ⟨_, exec_nld_of_bufLen_ne hl rd, raised_complete s 4⟩

/-- The true value of a register is the residue whose Montgomery form it holds. -/
theorem nTrue_eq_of_mont {ra : Reg} {u : Nat} (hu : u < orderN)
    (h : u * radixR % orderN = s.nReg ra % orderN) : s.nTrue ra = u :=
  eq_of_cast_eq (unmontN_lt _) hu (cast_unmont_of_mont radix_mul_rInvN h)

/-- Settles O27: the store of the bytes of the true value. -/
theorem scalarStore : Obligations.ScalarStore := by
  refine fun s ra => ⟨⟨rfl, rfl⟩, fun hbuf hr => ?_⟩
  obtain ⟨t, he, hs, hl, hb⟩ := exists_succeeded_output_be32 (i := .nst ra) hbuf hr rfl
  exact ⟨t, he, hs, hl, fun u hu h j hj => nTrue_eq_of_mont hu h ▸ hb j hj⟩

end Sys2Proof.Machine
end

section
/-! SUPPORT. The point commands (spec/42_point.md R104 to R111): each leaves the point of its rule, and C
tells what the rule says of the sources. -/

namespace Sys2Proof.Machine

variable {s : State} {i : Instr}

/-- A ready command that writes one P register succeeds, and the register holds the point. -/
theorem exists_succeeded_setP {rd : Reg} {q : Point} (hr : s.Ready i)
    (he : exec i s = s.reading (sources i) (s.setP rd q).succeed) :
    ∃ t, exec i s = .next t ∧ s.Succeeded t (some (.p rd)) false 0 ∧ t.pReg rd = q :=
  ⟨_, he.trans (reading_written s hr _), succeeded_setP s rd q, pReg_written s rd q⟩

/-! ### Addition and doubling -/

/-- Everything a ready PADD does (R108). -/
theorem exists_succeeded_padd (rd ra rb : Reg) (hr : s.Ready (.padd rd ra rb)) :
    ∃ t, exec (.padd rd ra rb) s = .next t ∧ s.Succeeded t (some (.p rd)) true 0 ∧
      t.pReg rd = Point.add (s.pReg ra) (s.pReg rb) ∧
      t.cFlag = flagInputsEqual (s.pReg ra) (s.pReg rb) :=
  ⟨_, reading_written s hr _, Succeeded_setC (succeeded_setP s rd _) (by simp) _,
    pReg_written s rd _, cFlag_written _ _⟩

theorem flagIsInfinity_iff (q : Point) : flagIsInfinity q = true ↔ q = .infinity := beq_iff_eq

/-- PADD's flag tells finite equal operands from all others (R108). -/
theorem flagInputsEqual_iff (a b : Point) :
    flagInputsEqual a b = true ↔ a ≠ .infinity ∧ b ≠ .infinity ∧ a = b := by
  simp [flagInputsEqual, flagIsInfinity, and_assoc]

/-- Doubling takes no finite point of E to ∞: it goes by the tangent (R107). -/
theorem add_self_eq_infinity_iff {a : Point} (ha : a.onCurve = true) :
    Point.add a a = .infinity ↔ a = .infinity := by
  have := primeP_fact
  cases a with
  | infinity => rfl
  | affine x y =>
    obtain ⟨hx, hy, -⟩ := (onCurve_affine_iff x y).1 ha
    have hxy : Point.ofNat x.toNat y.toNat = .affine x y := by simp [Point.ofNat]
    obtain ⟨x3, y3, e, -⟩ := add_tangent hx hy (hxy ▸ ha)
    rw [← hxy, e]
    exact iff_of_false Point.noConfusion Point.noConfusion

/-- Opposite points of E are not equal finite points, since their sum is ∞ (R108). -/
theorem flagInputsEqual_neg {a : Point} (ha : a.onCurve = true) : flagInputsEqual a a.neg = false := by
  rw [← Bool.not_eq_true, flagInputsEqual_iff]
  rintro ⟨hfin, -, heq⟩
  have hdouble : Point.add a a = .infinity := (congrArg a.add heq).trans (add_neg_onCurve ha)
  exact hfin ((add_self_eq_infinity_iff ha).1 hdouble)

/-- Settles O31: PDBL and PADD of a register with itself write the same sum, infinite for ∞ alone. -/
theorem pointDoubling : Obligations.PointDoubling := by
  refine fun s rd ra => ⟨⟨rfl, rfl⟩, fun hr => ?_⟩
  have hra := List.forall_mem_singleton.1 hr
  obtain ⟨t, he, hs, ht⟩ := exists_succeeded_setP hr rfl
  obtain ⟨u, hu, -, huv, -⟩ := exists_succeeded_padd (s := s) rd ra ra
    (List.forall_mem_cons.2 ⟨hra, hr⟩)
  exact ⟨t, u, he, hu, hs, ht, ht.trans huv.symm, fun hc => ht ▸ add_self_eq_infinity_iff hc⟩

/-- Settles O32: the sum by the group law, and C false wherever an operand is ∞ or the operands are
opposite. -/
theorem pointAddition : Obligations.PointAddition := by
  refine fun s rd ra rb => ⟨⟨rfl, rfl⟩, fun hr => ?_⟩
  obtain ⟨t, he, hs, hp, hc⟩ := exists_succeeded_padd rd ra rb hr
  refine ⟨t, he, hs, hp, hc ▸ flagInputsEqual_iff _ _, fun ha => ?_, fun hb => ?_, fun ha hb => ?_⟩
  · rw [hp, hc, ha]
    exact ⟨add_infinity_left _, rfl⟩
  · rw [hp, hc, hb]
    exact ⟨add_infinity_right _, by simp [flagInputsEqual, flagIsInfinity]⟩
  · rw [hp, hc, hb]
    exact ⟨add_neg_onCurve ha, flagInputsEqual_neg ha⟩

/-! ### Conditionals -/

theorem negIf_of_infinity (c : Bool) : Point.negIf c .infinity = .infinity := by cases c <;> rfl

/-- Negation keeps x and takes y to its opposite below p (R17, R109). -/
theorem neg_affine_spec (x y : Elem) : ∃ y' : Elem, Point.neg (.affine x y) = .affine x y' ∧
    y'.toNat < primeP ∧ (y'.toNat + y.toNat) % primeP = 0 := by
  have hlt := negMod_lt primeP_pos y.toNat
  refine ⟨BitVec.ofNat 256 (negMod primeP y.toNat), ?_, ?_⟩
  · rw [Point.neg, Point.ofNat, BitVec.ofNat_toNat, BitVec.setWidth_eq]
  · rw [toNat_ofNat_lt hlt]
    exact ⟨hlt, negMod_add primeP_pos _⟩

/-- Settles O33: the points by `Point.negIf` and `selectBy`, the flag by `flagIsInfinity`. -/
theorem pointConditionals : Obligations.PointConditionals := by
  refine fun s rd ra rb => ⟨⟨rfl, rfl⟩, ⟨rfl, rfl⟩, ⟨rfl, rfl⟩, fun hr => ?_, fun hr => ?_, fun hr => ?_⟩
  · obtain ⟨t, he, hs, hp⟩ := exists_succeeded_setP hr rfl
    refine ⟨t, he, hs, ?_, fun hc x y ha => ?_⟩
    · rintro (hc | ha)
      · rw [hp, hc]; rfl
      · rw [hp, ha, negIf_of_infinity]
    · rw [hp, hc, ha]
      exact neg_affine_spec x y
  · exact exists_succeeded_setP hr rfl
  · obtain ⟨t, he, hs, hc⟩ := exists_succeeded_setC hr rfl
    exact ⟨t, he, hs, hc ▸ flagIsInfinity_iff _⟩

/-! ### Constructors and move -/

/-- Settles O28: each is one write of a P register; PINF and PGEN read nothing. -/
theorem pointConstructorsAndMove : Obligations.PointConstructorsAndMove :=
  fun _ rd _ => ⟨⟨rfl, rfl⟩, ⟨rfl, rfl⟩, ⟨rfl, rfl⟩,
    exists_succeeded_setP (i := .pinf rd) (List.forall_mem_nil _) rfl,
    exists_succeeded_setP (i := .pgen rd) (List.forall_mem_nil _) rfl,
    fun hr => exists_succeeded_setP hr rfl⟩

end Sys2Proof.Machine
end

section
/-! SUPPORT. The Booth recoder and the windows of a scalar (spec/43_scalar_mult.md R112, R113): the digit of
a window is what rounding the scalar at its two ends leaves, so that the weighted digits telescope. -/

namespace Sys2Proof.Machine

theorem boothW6_of_lt {v : Nat} (h : v < 64) : boothW6 v = ((v + 1) / 2, false) := by
  have hs : (v / 64 % 2 == 1) = false := by rw [beq_eq_false_iff_ne]; omega
  have hm : v / 2 + v % 2 = (v + 1) / 2 := by omega
  simp [boothW6, hs, hm]

theorem boothW6_of_ge {v : Nat} (h : 64 ≤ v) (hv : v < 128) : boothW6 v = ((128 - v) / 2, true) := by
  have hs : (v / 64 % 2 == 1) = true := by rw [beq_iff_eq]; omega
  have hm : (127 - v) / 2 + (127 - v) % 2 = (128 - v) / 2 := by omega
  simp [boothW6, hs, hm]

theorem boothW6_magnitude_le {v : Nat} (hv : v < 128) : (boothW6 v).1 ≤ 32 := by
  rcases Nat.lt_or_ge v 64 with h | h
  · rw [boothW6_of_lt h]; dsimp only; omega
  · rw [boothW6_of_ge h hv]; dsimp only; omega

theorem boothDigit_eq_signed (v : Nat) :
    boothDigit v = if (boothW6 v).2 then -((boothW6 v).1 : Int) else ((boothW6 v).1 : Int) := rfl

/-- The digit by the bits of the window: v[6:1] + v[0] − 64·v[6] (R112). -/
theorem boothDigit_eq {v : Nat} (hv : v < 128) :
    boothDigit v = (v / 2 % 64 : Nat) + (v % 2 : Nat) - 64 * (v / 64 : Nat) := by
  rw [boothDigit_eq_signed]
  rcases Nat.lt_or_ge v 64 with h | h
  · rw [boothW6_of_lt h, if_neg Bool.false_ne_true]; omega
  · rw [boothW6_of_ge h hv, if_pos rfl]; omega

/-- The bits of a scalar from bit −1 on are those of its double from bit 0 on (R113). -/
theorem scalarBitBelow_eq {k : Nat} (hk : k < 2 ^ 256) : ∀ i, scalarBitBelow k i = 2 * k / 2 ^ i % 2
  | 0 => by simp [scalarBitBelow]
  | i + 1 => by
    have hcut : 2 * k / 2 ^ (i + 1) = k / 2 ^ i := by
      rw [pow_succ', Nat.mul_div_mul_left _ _ two_pos]
    rw [hcut, scalarBitBelow]
    split
    · rfl
    · next hi =>
      have hlt : k < 2 ^ i := hk.trans_le (Nat.pow_le_pow_right two_pos (by omega))
      rw [Nat.div_eq_of_lt hlt]

/-- A number's seven lowest bits, weighted. -/
theorem sum_sevenBits (m : Nat) :
    ((List.range 7).map fun t => m / 2 ^ t % 2 * 2 ^ t).sum = m % 128 := by
  rw [show List.range 7 = [0, 1, 2, 3, 4, 5, 6] from rfl]
  simp only [List.map_cons, List.map_nil, List.sum_cons, List.sum_nil]
  omega

theorem windowOf_eq {k : Nat} (hk : k < 2 ^ 256) (j : Nat) :
    windowOf k j = 2 * k / 2 ^ (6 * j) % 128 := by
  rw [windowOf, ← sum_sevenBits]
  simp only [scalarBitBelow_eq hk, pow_add, Nat.div_div_eq_div_mul]

theorem windowOf_lt {k : Nat} (hk : k < 2 ^ 256) (j : Nat) : windowOf k j < 128 := by
  rw [windowOf_eq hk]; exact Nat.mod_lt _ (by decide)

/-- The scalar divided by 2^(6j) and rounded to the nearest integer: what the digits from window j on stand
for. -/
def roundedScalar (k j : Nat) : Nat := (2 * k / 2 ^ (6 * j) + 1) / 2

theorem roundedScalar_zero (k : Nat) : roundedScalar k 0 = k := by
  rw [roundedScalar]; omega

theorem roundedScalar_43 {k : Nat} (hk : k < 2 ^ 256) : roundedScalar k 43 = 0 := by
  rw [roundedScalar]; omega

/-- A digit is the rounding at its window less 64 times the rounding at the next. -/
theorem boothDigit_windowOf {k : Nat} (hk : k < 2 ^ 256) (j : Nat) :
    boothDigit (windowOf k j) = roundedScalar k j - 64 * (roundedScalar k (j + 1) : Int) := by
  have hnext : 2 * k / 2 ^ (6 * (j + 1)) = 2 * k / 2 ^ (6 * j) / 64 := by
    rw [Nat.div_div_eq_div_mul, mul_add, pow_add]; rfl
  rw [boothDigit_eq (windowOf_lt hk j), windowOf_eq hk, roundedScalar, roundedScalar, hnext]
  omega

/-- The digits below window m sum to the scalar less its rounding there. -/
theorem sum_boothDigits {k : Nat} (hk : k < 2 ^ 256) (m : Nat) :
    ∑ j ∈ Finset.range m, boothDigit (windowOf k j) * 2 ^ (6 * j) =
      (k : Int) - roundedScalar k m * 2 ^ (6 * m) := by
  induction m with
  | zero => simp [roundedScalar_zero]
  | succ m ih =>
    rw [Finset.sum_range_succ, ih, boothDigit_windowOf hk, mul_add, pow_add]
    ring

theorem sum_boothDigits_43 {k : Nat} (hk : k < 2 ^ 256) :
    ∑ j ∈ Finset.range 43, boothDigit (windowOf k j) * 2 ^ (6 * j) = (k : Int) := by
  rw [sum_boothDigits hk, roundedScalar_43 hk, Nat.cast_zero, zero_mul, sub_zero]

/-- Settles O36: the recoder by its two signs, and the telescoping sum of the digits; the top digit is the
scalar's rounding at window 42. -/
theorem boothDigitsReconstructTheScalar : Obligations.BoothDigitsReconstructTheScalar := by
  refine ⟨fun v hv => ⟨?_, boothDigit_eq hv, ?_⟩, fun k hk => windowOf_eq hk,
    fun k hk => ⟨sum_boothDigits_43 hk, ?_⟩⟩
  · split
    · next h => exact boothW6_of_ge h hv
    · next h => exact boothW6_of_lt (by omega)
  · rw [boothDigit_eq hv]; omega
  · rw [boothDigit_windowOf hk, roundedScalar_43 hk, roundedScalar]; omega

end Sys2Proof.Machine
end

section
/-! SUPPORT. The scalar-multiplication datapath (spec/43_scalar_mult.md R114 to R118) computes multiples of
its base point: each triple is tied to the integer multiple it stands for in the curve's group, and the
table, the lookup and the two loops to the digits. -/

namespace Sys2Proof.Machine

section Multiples

variable [Fact (Nat.Prime primeP)]

/-- A triple of the integer multiple `d` of the point `q`, in the curve's group. -/
structure Jac.IsMultiple (t : Jac) (q : Point) (d : Int) : Prop where
  valid : t.Valid
  toCurve_eq : t.toPoint.toCurve = d • q.toCurve

variable {a b t : Jac} {q : Point} {c d : Int}

theorem infinity_isMultiple (q : Point) : Jac.infinity.IsMultiple q 0 :=
  ⟨infinity_valid, by rw [toPoint_of_z_zero rfl, toCurve_infinity, zero_zsmul]⟩

theorem ofPoint_isMultiple (hq : q.onCurve = true) : (Jac.ofPoint q).IsMultiple q 1 := by
  obtain ⟨hv, e⟩ := ofPoint_spec hq
  exact ⟨hv, by rw [e, one_zsmul]⟩

theorem double_isMultiple (h : t.IsMultiple q d) : (Jac.double t).IsMultiple q (2 * d) := by
  refine ⟨double_valid h.valid, ?_⟩
  rw [double_toPoint h.valid, (add_spec h.valid.2.2.2 h.valid.2.2.2).2, h.toCurve_eq, two_mul, add_zsmul]

theorem completeAdd_isMultiple (ha : a.IsMultiple q c) (hb : b.IsMultiple q d) :
    (Jac.completeAdd a b).1.IsMultiple q (c + d) := by
  refine ⟨completeAdd_valid ha.valid hb.valid, ?_⟩
  rw [completeAdd_toPoint ha.valid hb.valid, (add_spec ha.valid.2.2.2 hb.valid.2.2.2).2,
    ha.toCurve_eq, hb.toCurve_eq, add_zsmul]

theorem neg_isMultiple (h : t.IsMultiple q d) : t.neg.IsMultiple q (-d) := by
  refine ⟨neg_valid h.valid, ?_⟩
  rw [neg_toPoint h.valid, (neg_spec h.valid.2.2.2).2, h.toCurve_eq, neg_zsmul]

theorem doubleTimes_isMultiple : ∀ (k : Nat) {t : Jac} {d : Int}, t.IsMultiple q d →
    (Jac.doubleTimes k t).IsMultiple q (2 ^ k * d)
  | 0, _, _, h => by rwa [pow_zero, one_mul]
  | k + 1, _, _, h => by
    rw [pow_succ, mul_assoc]
    exact doubleTimes_isMultiple k (double_isMultiple h)

/-- A triple of a natural multiple of a point of E stands for the k-fold sum. -/
theorem toPoint_eq_smul (hq : q.onCurve = true) {k : Nat} (h : t.IsMultiple q k) :
    t.toPoint = Point.smul k q := by
  obtain ⟨hc, e⟩ := smul_spec hq k
  exact toCurve_injOn h.valid.2.2.2 hc (by rw [h.toCurve_eq, e, natCast_zsmul])

/-- A triple of an integer multiple of a point of E stands for the |d|-fold sum, negated for d < 0. -/
theorem toPoint_eq_signed_smul (hq : q.onCurve = true) (h : t.IsMultiple q d) :
    t.toPoint = if d < 0 then (Point.smul d.natAbs q).neg else Point.smul d.natAbs q := by
  split
  · next hd =>
    have hn : t.neg.IsMultiple q d.natAbs := by
      rw [Int.ofNat_natAbs_of_nonpos hd.le]; exact neg_isMultiple h
    obtain ⟨hc, e⟩ := smul_spec hq d.natAbs
    obtain ⟨hnc, en⟩ := neg_spec hc
    refine toCurve_injOn h.valid.2.2.2 hnc ?_
    rw [en, e, h.toCurve_eq, ← natCast_zsmul, Int.ofNat_natAbs_of_nonpos hd.le, neg_zsmul, neg_neg]
  · next hd =>
    refine toPoint_eq_smul hq ?_
    rwa [Int.natAbs_of_nonneg (not_lt.1 hd)]

/-- Multiples of a multiple of a point of E. -/
theorem smul_smul_onCurve (hq : q.onCurve = true) (m k : Nat) :
    Point.smul m (Point.smul k q) = Point.smul (m * k) q := by
  obtain ⟨hk, ek⟩ := smul_spec hq k
  obtain ⟨hmk, emk⟩ := smul_spec hk m
  obtain ⟨hr, er⟩ := smul_spec hq (m * k)
  exact toCurve_injOn hmk hr (by rw [emk, ek, er, mul_nsmul'])

end Multiples

/-! ### The tables and the lookup -/

theorem varTableRows_length (b : Jac) : ∀ rows, (varTableRows b rows).length = rows + 1
  | 0 => rfl
  | rows + 1 => by simp [varTableRows, varTableRows_length b rows]

theorem varTable_length (b : Jac) : (varTable b).length = 32 := varTableRows_length b 31

theorem varTable_getElem?_eq_some (b : Jac) {i : Nat} (hi : i < 32) :
    (varTable b)[i]? = some ((varTable b).getD i Jac.infinity) := by
  have hlt : i < (varTable b).length := varTable_length b ▸ hi
  rw [List.getElem?_eq_getElem hlt, List.getD_eq_getElem _ _ hlt]

/-- The scan's accumulator over the entries from index `n` on. -/
theorem foldl_zipIdx_select {α : Type} (m : Nat) : ∀ (table : List α) (n : Nat) (acc : α),
    (table.zipIdx n).foldl (fun acc e => if e.2 + 1 = m then e.1 else acc) acc =
      if m ≤ n then acc else table.getD (m - n - 1) acc
  | [], n, acc => by simp
  | x :: table, n, acc => by
    rw [List.zipIdx_cons, List.foldl_cons, foldl_zipIdx_select m table]
    rcases Nat.lt_trichotomy m (n + 1) with h | h | h
    · rw [if_pos (by omega), if_neg (by omega), if_pos (by omega)]
    · rw [if_pos (by omega), if_pos h.symm, if_neg (by omega), show m - n - 1 = 0 by omega,
        List.getD_cons_zero]
    · rw [if_neg (by omega), if_neg (by omega), if_neg (by omega),
        show m - n - 1 = m - (n + 1) - 1 + 1 by omega, List.getD_cons_succ]

theorem tableLookup_zero {α : Type} (zero : α) (table : List α) : tableLookup zero table 0 = zero := by
  rw [tableLookup, foldl_zipIdx_select, if_pos le_rfl]

theorem tableLookup_succ {α : Type} (zero : α) (table : List α) (m : Nat) :
    tableLookup zero table (m + 1) = table.getD m zero := by
  rw [tableLookup, foldl_zipIdx_select, if_neg (by omega)]; rfl

theorem tableLookup_map {α β : Type} (f : α → β) (zero : α) (table : List α) (m : Nat) :
    tableLookup (f zero) (table.map f) m = f (tableLookup zero table m) := by
  cases m with
  | zero => rw [tableLookup_zero, tableLookup_zero]
  | succ m => rw [tableLookup_succ, tableLookup_succ, List.getD_map]

section Tables

variable [Fact (Nat.Prime primeP)] {q : Point} {b : Jac}

/-- Entry i of the table holds [i+1]B: the doubled half entry, or the entry before plus B (R114). -/
theorem varTableRows_getD_isMultiple (hb : b.IsMultiple q 1) :
    ∀ {rows i : Nat}, i ≤ rows → ((varTableRows b rows).getD i Jac.infinity).IsMultiple q (i + 1 : Nat)
  | 0, i, hi => by
    obtain rfl := Nat.le_zero.1 hi
    exact hb
  | rows + 1, i, hi => by
    have hlen := varTableRows_length b rows
    rw [varTableRows]
    rcases Nat.lt_or_ge rows i with h | h
    · obtain rfl : i = rows + 1 := by omega
      rw [List.getD_append_right _ _ _ _ hlen.le, hlen, Nat.sub_self, List.getD_cons_zero]
      split
      · next heven =>
        have hhalf := varTableRows_getD_isMultiple hb (rows := rows) (i := (rows + 2) / 2 - 1) (by omega)
        convert double_isMultiple hhalf using 1
        omega
      · rw [Nat.cast_succ]
        exact completeAdd_isMultiple (varTableRows_getD_isMultiple hb le_rfl) hb
    · rw [List.getD_append _ _ _ _ (by omega)]
      exact varTableRows_getD_isMultiple hb h

theorem varTable_getD_isMultiple (hq : q.onCurve = true) {i : Nat} (hi : i < 32) :
    ((varTable (Jac.ofPoint q)).getD i Jac.infinity).IsMultiple q (i + 1 : Nat) :=
  varTableRows_getD_isMultiple (ofPoint_isMultiple hq) (Nat.le_of_lt_succ hi)

/-- The lookup of a magnitude gives its multiple, ∞ for 0 (R115). -/
theorem tableLookup_varTable_isMultiple (hq : q.onCurve = true) : ∀ {m : Nat}, m ≤ 32 →
    (tableLookup Jac.infinity (varTable (Jac.ofPoint q)) m).IsMultiple q m
  | 0, _ => by rw [tableLookup_zero]; exact infinity_isMultiple q
  | m + 1, hm => by rw [tableLookup_succ]; exact varTable_getD_isMultiple hq hm

/-- Lookup-and-negate gives the multiple of the window's digit (R115). -/
theorem lookupSigned_isMultiple (hq : q.onCurve = true) {v : Nat} (hv : v < 128) :
    (lookupSigned (varTable (Jac.ofPoint q)) v).IsMultiple q (boothDigit v) := by
  have hm := tableLookup_varTable_isMultiple hq (boothW6_magnitude_le hv)
  rw [boothDigit_eq_signed, lookupSigned]
  dsimp only
  split
  · exact neg_isMultiple hm
  · exact hm

end Tables

/-- Settles O37: the table's entries and the lookup as multiples in the curve's group. -/
theorem lookupGivesTheDigitMultiple : Obligations.LookupGivesTheDigitMultiple := by
  have := primeP_fact
  exact fun q hq => ⟨varTable_length _, fun i hi => ⟨_, varTable_getElem?_eq_some _ hi,
    toPoint_eq_smul hq (varTable_getD_isMultiple hq hi)⟩,
    fun v hv => toPoint_eq_signed_smul hq (lookupSigned_isMultiple hq hv)⟩

/-! ### The generator ROM -/

/-- G has order n: n is prime, [n]G = ∞ and G is finite (R9). -/
theorem addOrderOf_generator [Fact (Nat.Prime primeP)] :
    addOrderOf Point.generator.toCurve = orderN := by
  have := orderN_fact
  refine addOrderOf_eq_prime orderN_nsmul_generator fun h => ?_
  cases toCurve_injOn generator_onCurve (b := .infinity) rfl h

theorem smul_generator_eq_infinity_iff (k : Nat) :
    Point.smul k Point.generator = .infinity ↔ orderN ∣ k := by
  have := primeP_fact
  obtain ⟨hc, e⟩ := smul_spec generator_onCurve k
  rw [← addOrderOf_generator, addOrderOf_dvd_iff_nsmul_eq_zero, ← e, ← toCurve_infinity,
    toCurve_eq_iff hc rfl]

/-- The prime n divides no multiple that the ROM holds. -/
theorem orderN_not_dvd_entry {i : Nat} (hi : i < 32) (j : Nat) : ¬orderN ∣ (i + 1) * 2 ^ (6 * j) := by
  intro h
  rcases orderN_prime.dvd_mul.1 h with h | h
  · exact absurd (Nat.le_of_dvd i.succ_pos h) (by unfold orderN; omega)
  · exact absurd (Nat.le_of_dvd two_pos (orderN_prime.dvd_of_dvd_pow h)) (by decide)

/-- The first entry of sub-table j is [2^(6j)]G (R116). -/
theorem gtBase_eq : ∀ j, gtBase j = Point.smul (2 ^ (6 * j)) Point.generator
  | 0 => (add_infinity_left _).symm
  | j + 1 => by
    have := primeP_fact
    have h := doubleTimes_isMultiple 6 (ofPoint_isMultiple (gtBase_onCurve j))
    rw [gtBase, toPoint_eq_smul (k := 2 ^ 6) (gtBase_onCurve j) (by simpa using h), gtBase_eq j,
      smul_smul_onCurve generator_onCurve, ← pow_add, mul_add, add_comm]

theorem gtTable_getElem?_eq_some (j : Nat) {i : Nat} (hi : i < 32) :
    (gtTable j)[i]? = some (Point.smul ((i + 1) * 2 ^ (6 * j)) Point.generator) := by
  have := primeP_fact
  have hc := gtBase_onCurve j
  rw [gtTable, List.getElem?_map, varTable_getElem?_eq_some _ hi, Option.map_some,
    toPoint_eq_smul hc (varTable_getD_isMultiple hc hi), gtBase_eq, smul_smul_onCurve generator_onCurve]

/-- Settles O38: each sub-table is the multiples of its first entry, and the prime n divides none of
them. -/
theorem generatorTableHoldsTheMultiples : Obligations.GeneratorTableHoldsTheMultiples := by
  refine fun j _ => ⟨?_, fun i hi => ⟨gtTable_getElem?_eq_some j hi, ?_⟩⟩
  · rw [gtTable, List.length_map, varTable_length]
  · rw [Ne, smul_generator_eq_infinity_iff]
    exact orderN_not_dvd_entry hi j

/-! ### The two algorithms -/

/-- A lookup in GT is the lookup of triples of the same sub-table (R118). -/
theorem gtLookupSigned_eq (j v : Nat) :
    gtLookupSigned j v = (lookupSigned (varTable (Jac.ofPoint (gtBase j))) v).toPoint := by
  have hv := tableLookup_keeps infinity_valid
    (varTableRows_valid (ofPoint_spec (gtBase_onCurve j)).1 31) (boothW6 v).1
  have he : tableLookup .infinity (gtTable j) (boothW6 v).1 =
      (tableLookup Jac.infinity (varTable (Jac.ofPoint (gtBase j))) (boothW6 v).1).toPoint :=
    tableLookup_map Jac.toPoint Jac.infinity _ _
  rw [gtLookupSigned, lookupSigned]
  dsimp only
  rw [he]
  split
  · exact (neg_toPoint hv).symm
  · rfl

section Algorithms

variable [Fact (Nat.Prime primeP)] {q : Point} {k : Nat}

theorem gtLookupSigned_toCurve (j : Nat) {v : Nat} (hv : v < 128) :
    (gtLookupSigned j v).toCurve = (boothDigit v * 2 ^ (6 * j)) • Point.generator.toCurve := by
  rw [gtLookupSigned_eq, (lookupSigned_isMultiple (gtBase_onCurve j) hv).toCurve_eq, gtBase_eq,
    (smul_spec generator_onCurve _).2, ← natCast_zsmul, ← mul_zsmul, Nat.cast_pow, Nat.cast_ofNat]

/-- The loop of VarMult: six doublings and a digit take the scalar rounded at one window to the scalar
rounded at the next lower one (R117). -/
theorem varMultLoop_isMultiple (hq : q.onCurve = true) (hk : k < 2 ^ 256) :
    ∀ (j : Nat) {acc : Jac}, acc.IsMultiple q (roundedScalar k j) →
      (varMultLoop (varTable (Jac.ofPoint q)) k j acc).IsMultiple q k
  | 0, _, h => by rwa [roundedScalar_zero] at h
  | j + 1, acc, h => by
    refine varMultLoop_isMultiple hq hk j ?_
    have hsum := completeAdd_isMultiple (doubleTimes_isMultiple 6 h)
      (lookupSigned_isMultiple hq (windowOf_lt hk j))
    have hround : 2 ^ 6 * (roundedScalar k (j + 1) : Int) + boothDigit (windowOf k j) =
        roundedScalar k j := by rw [boothDigit_windowOf hk]; ring
    rwa [hround] at hsum

theorem varMult_toPoint (hq : q.onCurve = true) (hk : k < 2 ^ 256) :
    (varMult (Jac.ofPoint q) k).toPoint = Point.smul k q := by
  refine toPoint_eq_smul hq (varMultLoop_isMultiple hq hk 43 ?_)
  rw [roundedScalar_43 hk]
  exact infinity_isMultiple q

/-- The additions of BaseMult sum the weighted digits (R118). -/
theorem baseMultLoop_isMultiple (hk : k < 2 ^ 256) : ∀ j, (baseMultLoop k j).IsMultiple Point.generator
    (∑ i ∈ Finset.range (j + 1), boothDigit (windowOf k i) * 2 ^ (6 * i))
  | 0 => by
    refine ⟨baseMultLoop_valid k 0, ?_⟩
    rw [Finset.sum_range_one, baseMultLoop, (ofPoint_spec (gtLookupSigned_onCurve 0 _)).2,
      gtLookupSigned_toCurve 0 (windowOf_lt hk 0)]
  | j + 1 => by
    have ih := baseMultLoop_isMultiple hk j
    have hc := gtLookupSigned_onCurve (j + 1) (windowOf k (j + 1))
    refine ⟨baseMultLoop_valid k (j + 1), ?_⟩
    rw [Finset.sum_range_succ, add_zsmul, ← ih.toCurve_eq,
      ← gtLookupSigned_toCurve (j + 1) (windowOf_lt hk (j + 1)), ← (add_spec ih.valid.2.2.2 hc).2,
      ← (completeMixedAdd_spec ih.valid hc).2, baseMultLoop]

theorem baseMult_toPoint (hk : k < 2 ^ 256) :
    (baseMult k).toPoint = Point.smul k Point.generator := by
  refine toPoint_eq_smul generator_onCurve ?_
  rw [← sum_boothDigits_43 hk]
  exact baseMultLoop_isMultiple hk 42

/-- [n − k]G + [k]G = [n]G = ∞ (R120). -/
theorem smul_orderN_sub_add_smul (hk : k ≤ orderN) :
    Point.add (Point.smul (orderN - k) Point.generator) (Point.smul k Point.generator) = .infinity := by
  obtain ⟨hl, el⟩ := smul_spec generator_onCurve (orderN - k)
  obtain ⟨hr, er⟩ := smul_spec generator_onCurve k
  obtain ⟨hs, es⟩ := add_spec hl hr
  refine toCurve_injOn hs rfl ?_
  rw [es, el, er, ← add_nsmul, Nat.sub_add_cancel hk, orderN_nsmul_generator, toCurve_infinity]

end Algorithms

/-! ### The commands -/

variable {s : State}

theorem nTrue_lt_radix (s : State) (ra : Reg) : s.nTrue ra < 2 ^ 256 :=
  (unmontN_lt _).trans orderN_lt_radix

/-- A ready PMUL of a point of E writes the k-fold sum, k the scalar's true value (R119). -/
theorem exists_succeeded_pmul (rd ra rb : Reg) (hr : s.Ready (.pmul rd ra rb)) :
    ∃ t, exec (.pmul rd ra rb) s = .next t ∧ s.Succeeded t (some (.p rd)) false 0 ∧
      ((s.pReg ra).onCurve = true → t.pReg rd = Point.smul (s.nTrue rb) (s.pReg ra)) := by
  have := primeP_fact
  obtain ⟨t, he, hs, hp⟩ := exists_succeeded_setP hr rfl
  exact ⟨t, he, hs, fun hc => hp.trans (varMult_toPoint hc (nTrue_lt_radix s rb))⟩

/-- A ready PBMUL writes the k-fold sum of G, k the scalar's true value (R120). -/
theorem exists_succeeded_pbmul (rd ra : Reg) (hr : s.Ready (.pbmul rd ra)) :
    ∃ t, exec (.pbmul rd ra) s = .next t ∧ s.Succeeded t (some (.p rd)) false 0 ∧
      t.pReg rd = Point.smul (s.nTrue ra) Point.generator := by
  have := primeP_fact
  obtain ⟨t, he, hs, hp⟩ := exists_succeeded_setP hr rfl
  exact ⟨t, he, hs, hp.trans (baseMult_toPoint (nTrue_lt_radix s ra))⟩

/-- Settles O39: the windowed loop computes the k-fold sum, and k is the scalar's true value. -/
theorem variableBaseMultiplication : Obligations.VariableBaseMultiplication := by
  refine fun s rd ra rb => ⟨⟨rfl, rfl⟩, fun hr => ?_⟩
  obtain ⟨t, he, hs, hp⟩ := exists_succeeded_pmul rd ra rb hr
  exact ⟨t, he, hs, fun hc k hk h => nTrue_eq_of_mont hk h ▸ hp hc⟩

/-- Settles O40: both commands write the k-fold sum of G. -/
theorem fixedBaseMultiplication : Obligations.FixedBaseMultiplication := by
  have := primeP_fact
  refine fun s rd ra => ⟨⟨rfl, rfl⟩, fun hr => ?_, add_infinity_left _, fun k => smul_orderN_sub_add_smul⟩
  obtain ⟨t, he, hs, hp⟩ := exists_succeeded_pbmul rd ra hr
  refine ⟨t, he, hs, fun k hk h => nTrue_eq_of_mont hk h ▸ hp, fun rb hrb hg => ?_⟩
  obtain ⟨u, hu, -, hup⟩ := exists_succeeded_pmul rd rb ra hrb
  refine ⟨u, hu, ?_⟩
  rw [hup (hg ▸ generator_onCurve), hp, hg]

end Sys2Proof.Machine
end

section
/-! SUPPORT. The point codec (spec/44_point_codec.md R121 to R125): the decoder's tests say what the curve
equation says, the encoders leave their strings in BUF, and decoding such a string gives the point back. -/

namespace Sys2Proof.Machine

variable {s : State} {i : Instr}

/-! ### The curve equation -/

/-- The equation of R7 in the field. -/
theorem satisfiesCurve_iff_cast [Fact (Nat.Prime primeP)] (x y : Nat) :
    SatisfiesCurve x y ↔ (y : ZMod primeP) * y = curveRhs x := by
  rw [cast_curveRhs, SatisfiesCurve, ← ZMod.natCast_eq_natCast_iff']
  push_cast
  constructor <;> intro h <;> linear_combination h

/-- The decoder's test is the curve equation (R122). -/
theorem subMod_curveRhs_eq_zero_iff (x y : Nat) :
    subMod primeP (y * y) (curveRhs x) = 0 ↔ SatisfiesCurve x y := by
  have := primeP_fact
  rw [← cast_eq_zero_iff (subMod_lt primeP_pos _ _), cast_subP, sub_eq_zero, Nat.cast_mul,
    satisfiesCurve_iff_cast]

/-- For residues the curve equation is membership in E. -/
theorem satisfiesCurve_iff_onCurve {x y : Nat} (hx : x < primeP) (hy : y < primeP) :
    SatisfiesCurve x y ↔ (Point.ofNat x y).onCurve = true := by
  have := primeP_fact
  rw [satisfiesCurve_iff_cast, ofNat_onCurve_iff hx hy, ← cast_mulMod]
  exact ⟨eq_of_cast_eq (mulMod_lt primeP_pos _ _) (curveRhs_lt x), congrArg _⟩

theorem sqrtCandidate_lt (t : Nat) : sqrtCandidate t < primeP := powMod_lt primeP_pos _ _

/-- The square root candidate is on the curve with `x` if any y is (R122). -/
theorem satisfiesCurve_sqrtCandidate_iff (x : Nat) :
    SatisfiesCurve x (sqrtCandidate (curveRhs x)) ↔ ∃ y, SatisfiesCurve x y := by
  have := primeP_fact
  refine ⟨fun h => ⟨_, h⟩, fun ⟨y, hy⟩ => ?_⟩
  rw [satisfiesCurve_iff_cast] at hy ⊢
  rw [sqrtCandidate, cast_powMod primeP_pos _ (by decide), candidate_sq_eq_iff]
  exact ⟨y, hy.symm⟩

/-! ### The root of a parity -/

theorem primeP_odd : primeP % 2 = 1 := by decide

/-- The negation of a nonzero residue. -/
theorem negMod_of_pos {m a : Nat} (h0 : 0 < a) (ha : a < m) : negMod m a = m - a := by
  refine eq_of_cast_eq (negMod_lt (by omega) a) (by omega) ?_
  rw [cast_negMod (by omega), Nat.cast_sub ha.le, ZMod.natCast_self, zero_sub]

/-- p is odd, so of a nonzero root and its negation one has the tag's parity (R122). -/
theorem rootOfParity_parity {r : Nat} (h0 : 0 < r) (hr : r < primeP) (tag : Byte) :
    rootOfParity r tag % 2 = tag.toNat % 2 := by
  have hodd := primeP_odd
  unfold rootOfParity
  split
  · assumption
  · rw [negMod_of_pos h0 hr]
    omega

theorem rootOfParity_lt {r : Nat} (hr : r < primeP) (tag : Byte) : rootOfParity r tag < primeP := by
  unfold rootOfParity
  split
  · exact hr
  · exact negMod_lt primeP_pos r

/-- A root that is on the curve with `x` gives the root of the tag's parity there. -/
theorem rootOfParity_spec {x r : Nat} (hx : x < primeP) (hr : r < primeP) (h : SatisfiesCurve x r)
    (tag : Byte) : rootOfParity r tag < primeP ∧ SatisfiesCurve x (rootOfParity r tag) ∧
      rootOfParity r tag % 2 = tag.toNat % 2 := by
  have := primeP_fact
  have hlt := rootOfParity_lt hr tag
  have hc := (satisfiesCurve_iff_onCurve hx hr).1 h
  have h0 : r ≠ 0 := (cast_ne_zero_iff hr).1 (cast_y_ne_zero hr hc)
  exact ⟨hlt, (satisfiesCurve_iff_onCurve hx hlt).2 (rootOfParity_onCurve hx hr hc tag),
    rootOfParity_parity (Nat.pos_of_ne_zero h0) hr tag⟩

/-- An x-coordinate and a parity determine the point: different roots add to the odd p. -/
theorem eq_of_satisfiesCurve_of_parity {x y1 y2 : Nat} (hx : x < primeP) (h1 : y1 < primeP)
    (h2 : y2 < primeP) (hc1 : SatisfiesCurve x y1) (hc2 : SatisfiesCurve x y2)
    (hpar : y1 % 2 = y2 % 2) : y1 = y2 := by
  have := primeP_fact
  by_contra hne
  have hsum := ofNat_opposite hx h1 h2 ((satisfiesCurve_iff_onCurve hx h1).1 hc1)
    ((satisfiesCurve_iff_onCurve hx h2).1 hc2) hne
  rw [← Nat.cast_add, ZMod.natCast_eq_zero_iff] at hsum
  have hp : y1 + y2 = primeP := Nat.eq_of_dvd_of_lt_two_mul (by omega) hsum (by omega)
  have hodd := primeP_odd
  omega

/-! ### The decoder -/

theorem decodePoint_of_infinity (h : s.bufLen = 1 ∧ s.bufByte 0 = 0x00) :
    s.decodePoint = .ok .infinity := if_pos h

/-- The decoder on the uncompressed form (R122). -/
theorem decodePoint_of_uncompressed (h : s.bufLen = 65 ∧ s.bufByte 0 = 0x04) : s.decodePoint =
    if primeP ≤ s.bigEndian 1 ∨ primeP ≤ s.bigEndian 33 then .error .decodeError
    else if SatisfiesCurve (s.bigEndian 1) (s.bigEndian 33) then
      .ok (Point.ofNat (s.bigEndian 1) (s.bigEndian 33))
    else .error .notOnCurve := by
  simp only [State.decodePoint, ← bigEndian_eq_bufNat, ne_eq, subMod_curveRhs_eq_zero_iff, ge_iff_le,
    ite_not]
  rw [if_neg (by omega), if_pos h]

/-- The decoder on the compressed form (R122). -/
theorem decodePoint_of_compressed (h : s.bufLen = 33 ∧ (s.bufByte 0 = 0x02 ∨ s.bufByte 0 = 0x03)) :
    s.decodePoint =
    if primeP ≤ s.bigEndian 1 then .error .decodeError
    else if SatisfiesCurve (s.bigEndian 1) (sqrtCandidate (curveRhs (s.bigEndian 1))) then
      .ok (Point.ofNat (s.bigEndian 1)
        (rootOfParity (sqrtCandidate (curveRhs (s.bigEndian 1))) (s.bufByte 0)))
    else .error .noSquareRoot := by
  simp only [State.decodePoint, ← bigEndian_eq_bufNat, ne_eq, subMod_curveRhs_eq_zero_iff, ge_iff_le,
    ite_not]
  rw [if_neg (by omega), if_neg (by omega), if_pos h]

/-- The decoder on any other length and tag (R122). -/
theorem decodePoint_of_other (h1 : ¬(s.bufLen = 1 ∧ s.bufByte 0 = 0x00))
    (h65 : ¬(s.bufLen = 65 ∧ s.bufByte 0 = 0x04))
    (h33 : ¬(s.bufLen = 33 ∧ (s.bufByte 0 = 0x02 ∨ s.bufByte 0 = 0x03))) :
    s.decodePoint = .error .decodeError := by
  rw [State.decodePoint, if_neg h1, if_neg h65, if_neg h33]

theorem exec_pdec_of_ok {q : Point} (rd : Reg) (h : s.decodePoint = .ok q) :
    exec (.pdec rd) s = (s.setP rd q).succeed := by
  show execPdec rd s = _
  rw [execPdec, h]

theorem exec_pdec_of_error {e : ErrKind} (rd : Reg) (h : s.decodePoint = .error e) :
    exec (.pdec rd) s = s.raise e := by
  show execPdec rd s = _
  rw [execPdec, h]

/-- PDEC of a string that the decoder accepts succeeds, and the register holds the point. -/
theorem exists_succeeded_pdec {q : Point} (rd : Reg) (h : s.decodePoint = .ok q) :
    ∃ t, exec (.pdec rd) s = .next t ∧ s.Succeeded t (some (.p rd)) false 0 ∧ t.pReg rd = q :=
  exists_succeeded_setP (i := .pdec rd) (List.forall_mem_nil _) (exec_pdec_of_ok rd h)

/-- PDEC of a string that the decoder rejects raises the error. -/
theorem exists_raised_pdec {e : ErrKind} (rd : Reg) (h : s.decodePoint = .error e) :
    ∃ t, exec (.pdec rd) s = .next t ∧ s.Raised t e.code :=
  ⟨_, exec_pdec_of_error rd h, raised_complete s e.code⟩

/-- Settles O41: the decoder's branch for each length and tag, its tests read as the curve equation. -/
theorem pointDecoding : Obligations.PointDecoding := by
  refine fun s rd => ⟨⟨rfl, rfl⟩, fun h => exists_succeeded_pdec rd (decodePoint_of_infinity h),
    fun h => ?_, fun h => ?_,
    fun h1 h65 h33 => exists_raised_pdec rd (decodePoint_of_other h1 h65 h33)⟩
  · have hd := decodePoint_of_uncompressed h
    refine ⟨fun hp => exists_raised_pdec rd (hd.trans (if_pos hp)), fun hx hy hc => ?_,
      fun hx hy hc => ?_⟩
    · rw [if_neg (not_or.2 ⟨hx.not_ge, hy.not_ge⟩), if_pos hc] at hd
      exact exists_succeeded_pdec rd hd
    · rw [if_neg (not_or.2 ⟨hx.not_ge, hy.not_ge⟩), if_neg hc] at hd
      exact exists_raised_pdec rd hd
  · have hd := decodePoint_of_compressed h
    have hroot := satisfiesCurve_sqrtCandidate_iff (s.bigEndian 1)
    refine ⟨fun hp => exists_raised_pdec rd (hd.trans (if_pos hp)), fun hx hc => ?_, fun hx hc => ?_⟩
    · obtain ⟨hlt, hcurve, hpar⟩ :=
        rootOfParity_spec hx (sqrtCandidate_lt _) (hroot.2 hc) (s.bufByte 0)
      rw [if_neg hx.not_ge, if_pos (hroot.2 hc)] at hd
      obtain ⟨t, he, hs, hp⟩ := exists_succeeded_pdec rd hd
      exact ⟨t, _, he, hs, hlt, hcurve, hpar, hp⟩
    · rw [if_neg hx.not_ge, if_neg (mt hroot.1 hc)] at hd
      exact exists_raised_pdec rd hd

/-! ### The encoders -/

/-- A byte of be32 (R15). -/
theorem be32_getD (v : Nat) {j : Nat} (hj : j < 32) :
    (be32 v).getD j 0 = BitVec.ofNat 8 (v / 256 ^ (31 - j)) := beBytes_getD 32 v hj

/-- A ready command that stores a string succeeds, and BUF begins with the string (R150). -/
theorem exists_succeeded_output {bytes : List Byte} (hbuf : s.BufferOk) (hne : bytes ≠ [])
    (hlen : bytes.length ≤ 65) (hr : s.Ready i)
    (he : exec i s = s.reading (sources i) (s.output bytes).succeed) :
    ∃ t, exec i s = .next t ∧ s.Succeeded t none false bytes.length ∧ t.bufLen = bytes.length ∧
      ∀ j < bytes.length, t.bufByte j = bytes.getD j 0 := by
  refine ⟨_, he.trans (reading_written s hr _), succeeded_output s bytes hne, rfl, fun j hj => ?_⟩
  rw [bufByte_output s _ hbuf.1, if_pos (by omega)]

/-- The tag tells the parity of y (R121). -/
theorem parityTag_eq (y : Nat) : parityTag y = if y % 2 = 0 then 0x02 else 0x03 := by
  unfold parityTag
  rcases Nat.mod_two_eq_zero_or_one y with h | h <;> rw [h] <;> rfl

/-- Both encoders store the byte 00 for ∞ (R121). -/
theorem exec_encoder_of_infinity {ra : Reg} (hq : s.pReg ra = .infinity)
    (hi : i ∈ [Instr.penc ra, Instr.pencc ra]) :
    exec i s = s.reading (sources i) (s.output [0x00]).succeed := by
  rcases List.mem_pair.1 hi with rfl | rfl
  · show execPenc ra s = _
    rw [execPenc, hq]; rfl
  · show execPencc ra s = _
    rw [execPencc, hq]; rfl

theorem exec_penc_of_affine {ra : Reg} {x y : Elem} (hq : s.pReg ra = .affine x y) :
    exec (.penc ra) s = s.reading (sources (.penc ra))
      (s.output (0x04 :: (be32 x.toNat ++ be32 y.toNat))).succeed := by
  show execPenc ra s = _
  rw [execPenc, hq]; rfl

theorem exec_pencc_of_affine {ra : Reg} {x y : Elem} (hq : s.pReg ra = .affine x y) :
    exec (.pencc ra) s = s.reading (sources (.pencc ra))
      (s.output (parityTag y.toNat :: be32 x.toNat)).succeed := by
  show execPencc ra s = _
  rw [execPencc, hq]; rfl

/-- Settles O42: the strings that the encoders store, byte by byte. -/
theorem pointEncoding : Obligations.PointEncoding := by
  refine fun s ra hbuf => ⟨⟨rfl, rfl⟩, ⟨rfl, rfl⟩, fun hq i hi hr => ?_, fun hr x y hq => ?_,
    fun hr x y hq => ?_⟩
  · obtain ⟨t, he, hs, hl, hb⟩ := exists_succeeded_output hbuf (List.cons_ne_nil _ _) (by simp) hr
      (exec_encoder_of_infinity hq hi)
    exact ⟨t, he, hs, hl, hb 0 Nat.one_pos⟩
  · obtain ⟨t, he, hs, hl, hb⟩ := exists_succeeded_output hbuf (List.cons_ne_nil _ _) (by simp) hr
      (exec_penc_of_affine hq)
    rw [List.length_cons, List.length_append, be32_length, be32_length] at hs hl hb
    refine ⟨t, he, hs, hl, hb 0 (by decide), fun j hj => ⟨?_, ?_⟩⟩
    · rw [hb _ (by omega), Nat.add_comm, List.getD_cons_succ,
        List.getD_append _ _ _ _ (by rwa [be32_length]), be32_getD _ hj]
    · rw [hb _ (by omega), show 33 + j = 32 + j + 1 by omega, List.getD_cons_succ,
        List.getD_append_right _ _ _ _ (by simp), be32_length, Nat.add_sub_cancel_left, be32_getD _ hj]
  · obtain ⟨t, he, hs, hl, hb⟩ := exists_succeeded_output hbuf (List.cons_ne_nil _ _) (by simp) hr
      (exec_pencc_of_affine hq)
    rw [List.length_cons, be32_length] at hs hl hb
    refine ⟨t, he, hs, hl, (hb 0 (by decide)).trans (parityTag_eq _), fun j hj => ?_⟩
    rw [hb _ (by omega), Nat.add_comm, List.getD_cons_succ, be32_getD _ hj]

theorem exec_pencx_of_infinity {ra : Reg} (h : s.pReg ra = .infinity) :
    exec (.pencx ra) s = s.reading (sources (.pencx ra)) (s.raise .infinityOperand) := by
  show execPencx ra s = _
  rw [execPencx, h]; rfl

theorem exec_pencx_of_affine {ra : Reg} {x y : Elem} (h : s.pReg ra = .affine x y) :
    exec (.pencx ra) s = s.reading (sources (.pencx ra)) (s.output (be32 x.toNat)).succeed := by
  show execPencx ra s = _
  rw [execPencx, h]; rfl

/-- Settles O43: the two branches of PENCX. -/
theorem pointXEncoding : Obligations.PointXEncoding := by
  refine fun s ra => ⟨⟨rfl, rfl⟩, fun hr hq => ?_, fun hbuf hr x y hq => ?_⟩
  · exact ⟨_, (exec_pencx_of_infinity hq).trans (reading_written s hr _), raised_complete s 5⟩
  · exact exists_succeeded_output_be32 hbuf hr (exec_pencx_of_affine hq)

/-! ### Decoding an encoding -/

/-- BUF holds the number whose big-endian bytes lie there (R15). -/
theorem bigEndian_of_bytes {off v : Nat} (hv : v < 2 ^ 256)
    (h : ∀ j < 32, s.bufByte (off + j) = BitVec.ofNat 8 (v / 256 ^ (31 - j))) :
    s.bigEndian off = v := by
  have hread : s.memRead off 32 = be32 v := by
    refine List.ext_getElem (by simp [State.memRead]) fun j hj hj' => ?_
    have hj32 : j < 32 := by simpa using hj'
    rw [← List.getD_eq_getElem _ 0 hj', be32_getD v hj32, ← h j hj32]
    simp [State.memRead]
  rw [bigEndian_eq_bufNat, State.bufNat, hread, beNat_be32, Nat.mod_eq_of_lt hv]

/-- The coordinates of a finite point of E are residues that satisfy the curve equation (R17). -/
theorem satisfiesCurve_of_onCurve {x y : Elem} (h : (Point.affine x y).onCurve = true) :
    x.toNat < primeP ∧ y.toNat < primeP ∧ SatisfiesCurve x.toNat y.toNat := by
  have := primeP_fact
  obtain ⟨hx, hy, -⟩ := (onCurve_affine_iff x y).1 h
  have hxy : Point.ofNat x.toNat y.toNat = .affine x y := by simp [Point.ofNat]
  exact ⟨hx, hy, (satisfiesCurve_iff_onCurve hx hy).2 (hxy ▸ h)⟩

/-- Settles O44: the decoder reads the coordinates that the encoder stored, and from a compressed form finds
the only y of the stored parity. -/
theorem decodingAnEncodingRestoresThePoint : Obligations.DecodingAnEncodingRestoresThePoint := by
  intro s rd ra hbuf hc i hi hr
  obtain ⟨-, -, hinf, hunc, hcomp⟩ := pointEncoding s ra hbuf
  cases hq : s.pReg ra with
  | infinity =>
    obtain ⟨t, he, -, hl, h0⟩ := hinf hq i hi hr
    obtain ⟨u, hu, hs, hp⟩ := exists_succeeded_pdec rd (decodePoint_of_infinity ⟨hl, h0⟩)
    exact ⟨t, u, he, hu, hs.err, hp⟩
  | affine x y =>
    obtain ⟨hx, hy, hxy⟩ := satisfiesCurve_of_onCurve (hq ▸ hc)
    rcases List.mem_pair.1 hi with rfl | rfl
    · obtain ⟨t, he, -, hl, h0, hb⟩ := hunc hr x y hq
      have ex : t.bigEndian 1 = x.toNat := bigEndian_of_bytes x.isLt fun j hj => (hb j hj).1
      have ey : t.bigEndian 33 = y.toNat := bigEndian_of_bytes y.isLt fun j hj => (hb j hj).2
      obtain ⟨-, -, hdec, -⟩ := pointDecoding t rd
      obtain ⟨-, hok, -⟩ := hdec ⟨hl, h0⟩
      rw [ex, ey] at hok
      obtain ⟨u, hu, hs, hp⟩ := hok hx hy hxy
      exact ⟨t, u, he, hu, hs.err, by simpa using hp⟩
    · obtain ⟨t, he, -, hl, h0, hb⟩ := hcomp hr x y hq
      have ex : t.bigEndian 1 = x.toNat := bigEndian_of_bytes x.isLt hb
      have ⟨htag, hparity⟩ : (t.bufByte 0 = 0x02 ∨ t.bufByte 0 = 0x03) ∧
          (t.bufByte 0).toNat % 2 = y.toNat % 2 := by
        rcases Nat.mod_two_eq_zero_or_one y.toNat with h | h <;> rw [h0, h] <;> decide
      obtain ⟨-, -, -, hdec, -⟩ := pointDecoding t rd
      obtain ⟨-, hok, -⟩ := hdec ⟨hl, htag⟩
      rw [ex] at hok
      obtain ⟨u, y', hu, hs, hy', hc', hpar, hp⟩ := hok hx ⟨_, hxy⟩
      obtain rfl := eq_of_satisfiesCurve_of_parity hx hy' hy hc' hxy (hpar.trans hparity)
      exact ⟨t, u, he, hu, hs.err, by simpa using hp⟩

end Sys2Proof.Machine
end

section
/-! SUPPORT. The control commands (spec/45_control.md R126, R127): NOP leaves all data alone, and CSET
writes C as its selector says. -/

namespace Sys2Proof.Machine

variable {s : State}

/-- NOP has one word, since its format leaves every field zero (R126). -/
theorem decode_eq_nop_iff (w : Word) : decode w = .ok .nop ↔ w = 0 := by
  have hwf : Instr.nop.WellFormed := rfl
  have hword : encode .nop = 0 := by decide
  rw [decode_eq_ok_iff, and_iff_right hwf, hword, eq_comm]

/-- The flag of a legal selector, by cases: inverted for 2, otherwise whether the selector is 1 (R127). -/
theorem flagCset_eq : ∀ k ≤ 2, ∀ c : Bool,
    flagCset k c = some (if k = 2 then !c else decide (k = 1)) := by
  decide

/-- CSET with a legal selector. -/
theorem exec_cset {k : BitVec 8} (hk : k.toNat ≤ 2) : exec (.cset k) s =
    s.reading (sources (.cset k))
      (s.setC (if k.toNat = 2 then !s.cFlag else decide (k.toNat = 1))).succeed := by
  show execCset k s = _
  rw [execCset, flagCset_eq k.toNat hk]; rfl

theorem cset_wellFormed_iff (k : BitVec 8) : (Instr.cset k).WellFormed ↔ k.toNat ≤ 2 :=
  decide_eq_true_iff

/-- Settles O45: NOP is a bare completion, CSET one write of C, and a selector above 2 is ill-formed. -/
theorem controlCommands : Obligations.ControlCommands := by
  refine ⟨fun s => ⟨_, rfl, succeeded_complete s⟩, ⟨rfl, rfl⟩, decode_eq_nop_iff,
    fun s k => ⟨⟨rfl, rfl⟩, fun hk hr => ?_, fun hk => ?_⟩⟩
  · exact exists_succeeded_setC hr (exec_cset hk)
  · exact exists_raised_of_latched_illegal fun hw => by have := (cset_wellFormed_iff k).1 hw; omega

end Sys2Proof.Machine
end

section
/-! SUPPORT. Which legal commands end with which error (spec/60_exceptions.md R128), and that no step clears
the ReadUninit record (R132). -/

namespace Sys2Proof.Machine

variable {s : State}

/-! ### The errors of each command -/

/-- The commands that can end a legal word with each error, the last column of the table of R128. -/
def ErrKind.raisers : ErrKind → List Op
  | .decodeError => [.pdec, .fld, .fltp]
  | .notOnCurve | .noSquareRoot => [.pdec]
  | .invalidScalarLength => [.nld]
  | .infinityOperand => [.pencx]
  | .illegalCommand => []

/-- An outcome that is a success, or an error of the table's row for `op`. -/
def State.EndsAs (s : State) (op : Op) (o : Host.Outcome State Fault Refusal) : Prop :=
  (∃ u : State, o = u.succeed) ∨ ∃ e : ErrKind, op ∈ e.raisers ∧ o = s.raise e

/-- The decoder's errors are those of PDEC (R122). -/
theorem pdec_mem_raisers_of_decodePoint {e : ErrKind} (h : s.decodePoint = .error e) :
    .pdec ∈ e.raisers := by
  by_cases h1 : s.bufLen = 1 ∧ s.bufByte 0 = 0x00
  · cases (decodePoint_of_infinity h1).symm.trans h
  by_cases h65 : s.bufLen = 65 ∧ s.bufByte 0 = 0x04
  · rw [decodePoint_of_uncompressed h65] at h
    split_ifs at h <;> cases h <;> decide
  by_cases h33 : s.bufLen = 33 ∧ (s.bufByte 0 = 0x02 ∨ s.bufByte 0 = 0x03)
  · rw [decodePoint_of_compressed h33] at h
    split_ifs at h <;> cases h <;> decide
  cases (decodePoint_of_other h1 h65 h33).symm.trans h
  decide

theorem exec_pdec_endsAs (rd : Reg) : s.EndsAs .pdec (exec (.pdec rd) s) := by
  cases h : s.decodePoint with
  | ok q => exact .inl ⟨_, exec_pdec_of_ok rd h⟩
  | error e => exact .inr ⟨e, pdec_mem_raisers_of_decodePoint h, exec_pdec_of_error rd h⟩

theorem exec_fld_endsAs (rd : Reg) : s.EndsAs .fld (exec (.fld rd) s) := by
  rw [exec_fld]
  split
  · exact .inl ⟨_, rfl⟩
  · exact .inr ⟨.decodeError, by decide, rfl⟩

theorem exec_fltp_endsAs : s.EndsAs .fltp (exec .fltp s) := by
  rw [exec_fltp]
  split
  · exact .inl ⟨_, rfl⟩
  · exact .inr ⟨.decodeError, by decide, rfl⟩

theorem exec_nld_endsAs (rd : Reg) : s.EndsAs .nld (exec (.nld rd) s) := by
  by_cases h : s.bufLen = 32
  · exact .inl ⟨_, exec_nld_of_bufLen h rd⟩
  · exact .inr ⟨.invalidScalarLength, by decide, exec_nld_of_bufLen_ne h rd⟩

theorem exec_pencx_endsAs (ra : Reg) (hr : s.Ready (.pencx ra)) :
    s.EndsAs .pencx (exec (.pencx ra) s) := by
  cases h : s.pReg ra with
  | infinity =>
    exact .inr ⟨.infinityOperand, by decide, (exec_pencx_of_infinity h).trans (reading_written s hr _)⟩
  | affine x y => exact .inl ⟨_, (exec_pencx_of_affine h).trans (reading_written s hr _)⟩

/-- A legal command whose sources are written succeeds, or raises an error of its row of R128: five commands
have such errors, and five more have an immediate, which a legal word gives in its range (R66). -/
theorem exec_endsAs {i : Instr} (hw : i.WellFormed) (hr : s.Ready i) : s.EndsAs i.op (exec i s) := by
  cases i with
  | pdec rd => exact exec_pdec_endsAs rd
  | fld rd => exact exec_fld_endsAs rd
  | fltp => exact exec_fltp_endsAs
  | nld rd => exact exec_nld_endsAs rd
  | pencx ra => exact exec_pencx_endsAs ra hr
  | cset k => exact .inl ⟨_, (exec_cset ((cset_wellFormed_iff k).1 hw)).trans (reading_written s hr _)⟩
  | fldc rd k => exact .inl ⟨_, exec_fldc ((fldc_wellFormed_iff rd k).1 hw) rd⟩
  | nldc rd k => exact .inl ⟨_, exec_nldc ((nldc_wellFormed_iff rd k).1 hw) rd⟩
  | fsqr rd ra k =>
    exact .inl ⟨_, (exec_fsqr ((fsqr_wellFormed_iff rd ra k).1 hw) rd ra).trans (reading_written s hr _)⟩
  | nsqr rd ra k =>
    exact .inl ⟨_, (exec_nsqr ((nsqr_wellFormed_iff rd ra k).1 hw) rd ra).trans (reading_written s hr _)⟩
  | nop | pinf | pgen => exact .inl ⟨_, rfl⟩
  | fadd | fsub | fmul | finv | fsqrt | fnegc | fsel | feq | ftom | ffromm | fmov | fst | nadd | nsub
  | nmul | ninv | nmov | nst | impsig | pmov | pdbl | padd | pnegc | psel | pisinf | pmul | pbmul | penc
  | pencc => exact .inl ⟨_, reading_written s hr _⟩

/-- Settles O8: a success has code 0, and the raisers of an error are the commands listed for its code. -/
theorem errorCodesByCommand : Obligations.ErrorCodesByCommand := by
  intro i s t hw hr ht
  rcases exec_endsAs hw hr with ⟨u, h⟩ | ⟨e, he, h⟩
  · cases h.symm.trans ht
    simp
  · cases h.symm.trans ht
    cases e with
    | illegalCommand => exact absurd he List.not_mem_nil
    | decodeError | notOnCurve | noSquareRoot | invalidScalarLength | infinityOperand =>
      simpa [ErrKind.raisers, ErrKind.code] using he

/-! ### The ReadUninit record -/

/-- A command keeps a record that is there, also where it finds a source unwritten. -/
theorem exec_keeps_uninit {i : Instr} {t : State} {r : RegName} (h : exec i s = .next t)
    (hu : s.uninit = some r) : t.uninit = some r := by
  rcases exec_cases (s := s) i with ⟨-, he⟩ | ⟨-, -, v, code, hv, -, he⟩ | ⟨-, -, r', -, he⟩ <;>
    cases he.symm.trans h
  · exact hu
  · exact hv.uninit.trans hu
  · rw [recordUninit_uninit, hu, Option.some_or]

theorem hostRead_reply_uninit (off : Nat) :
    ((s.hostRead off).2.reply (s.hostRead off).1).uninit = s.uninit := by
  rcases hostRead_state s off with e | e <;> simp [e]

theorem hostWrite_uninit (off : Nat) (w : Word) : (s.hostWrite off w).uninit = s.uninit := by
  rcases hostWrite_cases s off w with e | ⟨-, e⟩ | ⟨-, e⟩ | e | ⟨-, -, e⟩ | ⟨-, i, e⟩ <;>
    simp [e, writeStatus_eq]

theorem moves_keeps_uninit {u t : State} {r : RegName} (h : u.Moves t) (hu : u.uninit = some r) :
    t.uninit = some r := by
  cases h with
  | idle hb | illegal hb | assertReset | releaseReset => exact hu
  | command hb h => exact exec_keeps_uninit h hu
  | read off hr => exact (hostRead_reply_uninit off).trans hu
  | write off w hr => exact (hostWrite_uninit off w).trans hu

/-- Settles O10: by what a step can do; taking the host's event off leaves the record. -/
theorem uninitRecordIsNeverCleared : Obligations.UninitRecordIsNeverCleared := by
  intro s t r h hu
  obtain ⟨rest, hm⟩ := step_moves h
  exact moves_keeps_uninit hm hu

end Sys2Proof.Machine
end

section
/-! SUPPORT. The state after reset meets the invariants (spec/10_state.md R34, R35), and a completion takes
the latency of the latched word, which OP and IMM fix (spec/70_reset_and_hazards.md R153). -/

namespace Sys2Proof.Machine

/-! ### The state after reset -/

theorem reset_bufferOk : State.reset.BufferOk := ⟨memory_wf_nil, Nat.zero_le _⟩

/-- Settles O55: the registers by the values the model gives them, BUF and STATUS by their reset values. -/
theorem resetStateMeetsTheInvariants : Obligations.ResetStateMeetsTheInvariants :=
  ⟨reset_fBelow, reset_nBelow, reset_pOnCurve, reset_bufferOk,
    statusOk_of_released rfl nofun (fun _ => rfl) (Nat.zero_le _), rfl, rfl, rfl⟩

/-! ### Latency -/

variable {s t : State}

theorem latency_pos (s : State) : 0 < s.latency := Nat.succ_pos _

/-- LAT of the latched word depends on CMDL[7:0] and CMDL[31:24] alone. -/
theorem latency_congr (hop : s.cmdl.extractLsb' 0 8 = t.cmdl.extractLsb' 0 8)
    (himm : s.cmdl.extractLsb' 24 8 = t.cmdl.extractLsb' 24 8) : s.latency = t.latency := by
  simp only [State.latency, State.timing, wordOp_eq_extractLsb', wordFields_imm, hop, himm]

/-- A command that clears BUSY has completed, with or without an error, and has taken its latency. -/
theorem exec_elapsed {i : Instr} (hb : s.busy = true) (h : exec i s = .next t) (ht : t.busy = false) :
    t.elapsed = s.latency + s.elapsed := by
  rcases exec_cases (s := s) i with ⟨-, he⟩ | ⟨-, -, u, code, hu, -, he⟩ | ⟨-, -, r, -, he⟩ <;>
    cases he.symm.trans h
  · exact complete_elapsed s 6
  · have hlat : u.latency = s.latency := latency_congr (by rw [hu.cmdl]) (by rw [hu.cmdl])
    rw [complete_elapsed, hlat, elapsed_congr hu.completed]
  · exact Bool.noConfusion (hb.symm.trans ht)

/-- The engine's step that clears BUSY takes the latency of the latched word, legal or not. -/
theorem engineStep_elapsed (hb : s.busy = true) (h : s.engineStep = .next t) (ht : t.busy = false) :
    t.elapsed = s.latency + s.elapsed := by
  cases hd : decode s.cmdl with
  | ok i => exact exec_elapsed hb ((engineStep_of_legal hb hd).symm.trans h) ht
  | error e =>
    cases (engineStep_of_illegal hb hd).symm.trans h
    exact complete_elapsed s 6

/-- Settles O58: each completion adds the latency of its word, which is positive and the same for both. -/
theorem latencyDependsOnOpAndImmOnly : Obligations.LatencyDependsOnOpAndImmOnly := by
  intro s t s' t' hs ht his hit hop himm hss htt hs' ht'
  have hsum := engineStep_elapsed hs ((step_of_inbox_nil his).symm.trans hss) hs'
  have htum := engineStep_elapsed ht ((step_of_inbox_nil hit).symm.trans htt) ht'
  have hlat := latency_congr hop himm
  have hpos := latency_pos s
  omega

end Sys2Proof.Machine
end
